-- ==== Sys2Proof/Word.lean ====
section
/-! DEFINITION. The word types of the block: the widths of spec/00_scope.md R5 under the names the rules use. -/

namespace Sys2Proof

/-- A command word: CMDW = 64 bits, taken by the block as one integer (30_encoding.md R80). -/
abbrev CmdWord := BitVec 64

/-- A symbol: SYMW = 8 bits, an unsigned integer 0 to 255 (00_scope.md R5). -/
abbrev Sym := BitVec 8

/-- A payload byte (10_state.md R40, ports OUTB and the operand of UBYTE). -/
abbrev Byte := BitVec 8

/-- A response word: RSPW = 32 bits (00_scope.md R5). -/
abbrev Resp := BitVec 32

/-- A frequency: FREQW = 32 bits (00_scope.md R5). -/
abbrev Freq := BitVec 32

/-- A node weight: WTW = 40 bits (00_scope.md R5). -/
abbrev Weight := BitVec 40

/-- A node index: IDXW = 9 bits (00_scope.md R5). -/
abbrev NodeIdx := BitVec 9

/-- A counter: CNTW = 32 bits (00_scope.md R5). -/
abbrev Count := BitVec 32

/-- A bitstring (00_scope.md R10): the head of the list is the first bit, the empty list is `ε`. -/
abbrev Bits := List Bool

end Sys2Proof
end

