-- ==== Sys2Proof/Config.lean ====
section
/-! DEFINITION. The implementation parameters of spec/00_scope.md R5. All have a value there but CMD_BYTE_ORDER, which is
open (93_implementation_defined.md U9) and stands here as a constant without a body. -/

namespace Sys2Proof.Config

/-- NSYM: the number of symbol values, 2^SYMW. -/
abbrev nsym : Nat := 256

/-- NNODE: capacity of the node arena, 2·NSYM - 1. -/
abbrev nnode : Nat := 511

/-- MAXLEN: the greatest code length in bits, NSYM - 1. -/
abbrev maxlen : Nat := 255

/-- PENDMAX: capacity of the pending-bit buffer in bits, MAXLEN + 7. -/
abbrev pendmax : Nat := 262

/-- The two orders in which a byte-wide transport can carry a command word (20_memory.md R63). -/
inductive ByteOrder where
  /-- the byte with bits 63:56 (the opcode) comes first -/
  | opcodeFirst
  /-- the byte with bits 7:0 comes first -/
  | opcodeLast
deriving DecidableEq, Repr, Inhabited

/-- CMD_BYTE_ORDER, value OPEN (00_scope.md R5, 92_eei_decisions.md D26): whoever carries command words over a byte-wide
transport chooses it. No rule of the block uses it, and `step` does not. DESIGN CHOICE: one of the two plain orders (log
entry 11). Safe: nothing can be proved about which one it is. -/
opaque cmdByteOrder : ByteOrder

end Sys2Proof.Config
end

