-- ==== Sys2Proof/Syntax.lean ====
section
/-! DEFINITION. The 22 commands of WHB-1 with their operands: one constructor per row of spec/opcode_table.json
(30_encoding.md R84). An operand has the width of the field bits its row leaves free (R83, R84). -/

namespace Sys2Proof

/-- A command with its operands (30_encoding.md R83, R84). -/
inductive Instr where
  -- control and status (45_control_status.md)
  | nop
  | srst
  | rdstat
  | rdcnt (sel : BitVec 4)
  -- frequency table (40_frequency_table.md)
  | fclr
  | fset (sym : Sym) (count : Freq)
  | frd (sym : Sym)
  -- tree builder (41_tree_builder.md)
  | build
  | nrd (sel : BitVec 2) (idx : NodeIdx)
  -- code table (42_code_table.md)
  | gen
  | tclr
  | tdel (sym : Sym)
  | tapp (sym : Sym) (n : BitVec 8) (v : BitVec 32)
  | tchk
  | tlen (sym : Sym)
  | tbits (sym : Sym) (k : BitVec 3)
  -- bit packer (43_bit_packer.md)
  | pstart
  | psym (sym : Sym)
  | pfin
  -- bit unpacker (44_bit_unpacker.md)
  | ustart (limEn : Bool) (explen : Count)
  | ubyte (byte : Byte)
  | ufin
deriving DecidableEq, Repr

end Sys2Proof
end

