-- ==== Sys2Proof/WellFormed.lean ====
section
/-! DEFINITION. Which operand values are legal (spec/30_encoding.md R83 and R88). The widths of `Instr`'s operands say the
rest: a `sel` of NRD is 0 to 3, a `k` of TBITS 0 to 7, an `idx` 0 to 511 because their fields have that many bits. -/

namespace Sys2Proof

/-- The operand values that some word encodes (30_encoding.md R88): RDCNT `sel` 0 to 13; TAPP `n` 1 to 32 with `v < 2^n`;
USTART `explen = 0` when `lim_en = 0`. -/
def Instr.wf : Instr → Bool
  | .rdcnt sel => decide (sel.toNat ≤ 13)
  | .tapp _ n v => decide (1 ≤ n.toNat) && decide (n.toNat ≤ 32) && decide (v.toNat < 2 ^ n.toNat)
  | .ustart limEn explen => limEn || explen == 0#32
  | .nop => true
  | .srst => true
  | .rdstat => true
  | .fclr => true
  | .fset _ _ => true
  | .frd _ => true
  | .build => true
  | .nrd _ _ => true
  | .gen => true
  | .tclr => true
  | .tdel _ => true
  | .tchk => true
  | .tlen _ => true
  | .tbits _ _ => true
  | .pstart => true
  | .psym _ => true
  | .pfin => true
  | .ubyte _ => true
  | .ufin => true

end Sys2Proof
end

