-- ==== Sys2Proof/Decode.lean ====
section
/-! DEFINITION. Command words: their fields (spec/30_encoding.md R81), the total decoder (R82 to R88), the encoder, the
opcode table with its match and mask columns as data (R84), and the byte-wide transport (20_memory.md R63). -/

namespace Sys2Proof

/-- Why a word is illegal (30_encoding.md R86 to R88). The block treats all three alike (60_exceptions.md R203). -/
inductive Illegal where
  /-- its OP is not in the opcode map (R86) -/
  | reservedOpcode
  /-- a field its format marks unused, or Z, is not zero (R87) -/
  | mustBeZero
  /-- an operand value is out of its range (R88) -/
  | operandRange
  /-- a byte-wide transport delivered other than 8 bytes (R80: every command has one length, 64 bits) -/
  | wrongLength
deriving DecidableEq, Repr

/-! ## The fields of a command word (R81) -/

/-- OP = W[63:56]. -/
def fieldOp (w : CmdWord) : BitVec 8 := w.extractLsb' 56 8
/-- A = W[55:48]. -/
def fieldA (w : CmdWord) : BitVec 8 := w.extractLsb' 48 8
/-- B = W[47:40]. -/
def fieldB (w : CmdWord) : BitVec 8 := w.extractLsb' 40 8
/-- Z = W[39:32]. -/
def fieldZ (w : CmdWord) : BitVec 8 := w.extractLsb' 32 8
/-- IMM = W[31:0]. -/
def fieldImm (w : CmdWord) : BitVec 32 := w.extractLsb' 0 32
/-- W[63:32]: OP, A, B and Z, the half a fault records (60_exceptions.md R205). -/
def upperHalf (w : CmdWord) : BitVec 32 := w.extractLsb' 32 32

/-- The word with the fields OP, A, B and IMM as given and Z = 0. -/
def commandWord (op a b : BitVec 8) (imm : BitVec 32) : CmdWord := op ++ a ++ b ++ (0#8) ++ imm

/-! ## Decoding (R82 to R88) -/

/-- A row's verdict: the fields its format marks unused are zero (R87), its operands are in range (R88), and then it is
that command. -/
def accept (unusedZero inRange : Bool) (i : Instr) : Except Illegal Instr :=
  if !unusedZero then .error .mustBeZero
  else if !inRange then .error .operandRange
  else .ok i

/-- `decode(W)` of 30_encoding.md R85: total on all 2^64 words. The rows are those of R84 in its order, the fields a format
leaves unused those of R82, the operands those of R83 with the ranges of R88. -/
def decode (w : CmdWord) : Except Illegal Instr :=
  let a := fieldA w
  let b := fieldB w
  let z := fieldZ w == 0#8
  let imm := fieldImm w
  let a0 := a == 0#8
  let b0 := b == 0#8
  let imm0 := imm == 0#32
  let formatN := accept (a0 && b0 && z && imm0) true
  let formatA := accept (b0 && z && imm0) true
  match fieldOp w with
  | 0x00#8 => formatN .nop
  | 0x01#8 => formatN .srst
  | 0x02#8 => formatN .rdstat
  | 0x03#8 => accept (a0 && z && imm0) (decide (b.toNat ≤ 13)) (.rdcnt (b.setWidth 4))
  | 0x10#8 => formatN .fclr
  | 0x11#8 => accept (b0 && z) true (.fset a imm)
  | 0x12#8 => formatA (.frd a)
  | 0x20#8 => formatN .build
  | 0x21#8 => accept (a0 && z) (decide (b.toNat ≤ 3) && decide (imm.toNat < 512)) (.nrd (b.setWidth 2) (imm.setWidth 9))
  | 0x28#8 => formatN .gen
  | 0x30#8 => formatN .tclr
  | 0x31#8 => formatA (.tdel a)
  | 0x32#8 =>
    accept z (decide (1 ≤ b.toNat) && decide (b.toNat ≤ 32) && decide (imm.toNat < 2 ^ b.toNat)) (.tapp a b imm)
  | 0x33#8 => formatN .tchk
  | 0x34#8 => formatA (.tlen a)
  | 0x35#8 => accept (z && imm0) (decide (b.toNat ≤ 7)) (.tbits a (b.setWidth 3))
  | 0x40#8 => formatN .pstart
  | 0x41#8 => formatA (.psym a)
  | 0x42#8 => formatN .pfin
  | 0x50#8 => accept (a0 && z) (decide (b.toNat ≤ 1) && (b == 1#8 || imm0)) (.ustart (b == 1#8) imm)
  | 0x51#8 => formatA (.ubyte a)
  | 0x52#8 => formatN .ufin
  | _ => .error .reservedOpcode

/-- The word of a command (30_encoding.md R81 to R84); of a well-formed one it is the word that decodes to it. -/
def encode : Instr → CmdWord
  | .nop => commandWord 0x00 0 0 0
  | .srst => commandWord 0x01 0 0 0
  | .rdstat => commandWord 0x02 0 0 0
  | .rdcnt sel => commandWord 0x03 0 (sel.setWidth 8) 0
  | .fclr => commandWord 0x10 0 0 0
  | .fset sym count => commandWord 0x11 sym 0 count
  | .frd sym => commandWord 0x12 sym 0 0
  | .build => commandWord 0x20 0 0 0
  | .nrd sel idx => commandWord 0x21 0 (sel.setWidth 8) (idx.setWidth 32)
  | .gen => commandWord 0x28 0 0 0
  | .tclr => commandWord 0x30 0 0 0
  | .tdel sym => commandWord 0x31 sym 0 0
  | .tapp sym n v => commandWord 0x32 sym n v
  | .tchk => commandWord 0x33 0 0 0
  | .tlen sym => commandWord 0x34 sym 0 0
  | .tbits sym k => commandWord 0x35 sym (k.setWidth 8) 0
  | .pstart => commandWord 0x40 0 0 0
  | .psym sym => commandWord 0x41 sym 0 0
  | .pfin => commandWord 0x42 0 0 0
  | .ustart limEn explen => commandWord 0x50 0 (if limEn then 1 else 0) explen
  | .ubyte byte => commandWord 0x51 byte 0 0
  | .ufin => commandWord 0x52 0 0 0

/-! ## The opcode map as data (R84): the second description of the same encoding, to hold the decoder against. -/

/-- One row of the table of R84: its columns "mnemonic", "match" and "mask". -/
structure OpcodeRow where
  mnemonic : String
  fixed : CmdWord
  mask : CmdWord
deriving DecidableEq, Repr

/-- The rows of R84, column for column. -/
def opcodeTable : List OpcodeRow :=
  [⟨"NOP", 0x0000000000000000#64, 0xFFFFFFFFFFFFFFFF#64⟩,
   ⟨"SRST", 0x0100000000000000#64, 0xFFFFFFFFFFFFFFFF#64⟩,
   ⟨"RDSTAT", 0x0200000000000000#64, 0xFFFFFFFFFFFFFFFF#64⟩,
   ⟨"RDCNT", 0x0300000000000000#64, 0xFFFFF0FFFFFFFFFF#64⟩,
   ⟨"FCLR", 0x1000000000000000#64, 0xFFFFFFFFFFFFFFFF#64⟩,
   ⟨"FSET", 0x1100000000000000#64, 0xFF00FFFF00000000#64⟩,
   ⟨"FRD", 0x1200000000000000#64, 0xFF00FFFFFFFFFFFF#64⟩,
   ⟨"BUILD", 0x2000000000000000#64, 0xFFFFFFFFFFFFFFFF#64⟩,
   ⟨"NRD", 0x2100000000000000#64, 0xFFFFFCFFFFFFFE00#64⟩,
   ⟨"GEN", 0x2800000000000000#64, 0xFFFFFFFFFFFFFFFF#64⟩,
   ⟨"TCLR", 0x3000000000000000#64, 0xFFFFFFFFFFFFFFFF#64⟩,
   ⟨"TDEL", 0x3100000000000000#64, 0xFF00FFFFFFFFFFFF#64⟩,
   ⟨"TAPP", 0x3200000000000000#64, 0xFF0000FF00000000#64⟩,
   ⟨"TCHK", 0x3300000000000000#64, 0xFFFFFFFFFFFFFFFF#64⟩,
   ⟨"TLEN", 0x3400000000000000#64, 0xFF00FFFFFFFFFFFF#64⟩,
   ⟨"TBITS", 0x3500000000000000#64, 0xFF00F8FFFFFFFFFF#64⟩,
   ⟨"PSTART", 0x4000000000000000#64, 0xFFFFFFFFFFFFFFFF#64⟩,
   ⟨"PSYM", 0x4100000000000000#64, 0xFF00FFFFFFFFFFFF#64⟩,
   ⟨"PFIN", 0x4200000000000000#64, 0xFFFFFFFFFFFFFFFF#64⟩,
   ⟨"USTART", 0x5000000000000000#64, 0xFFFFFEFF00000000#64⟩,
   ⟨"UBYTE", 0x5100000000000000#64, 0xFF00FFFFFFFFFFFF#64⟩,
   ⟨"UFIN", 0x5200000000000000#64, 0xFFFFFFFFFFFFFFFF#64⟩]

/-- The "extra constraint" column of R84, by the row's OP: RDCNT `B ≤ 13`; TAPP `1 ≤ B ≤ 32 and IMM < 2^B`; USTART
`if B[0] = 0 then IMM = 0`; none for the others. -/
def extraConstraint (w : CmdWord) : Bool :=
  if fieldOp w = 0x03#8 then decide ((fieldB w).toNat ≤ 13)
  else if fieldOp w = 0x32#8 then
    decide (1 ≤ (fieldB w).toNat) && decide ((fieldB w).toNat ≤ 32) &&
      decide ((fieldImm w).toNat < 2 ^ (fieldB w).toNat)
  else if fieldOp w = 0x50#8 then (fieldB w).getLsbD 0 || fieldImm w == 0#32
  else true

/-- `W` matches a row when `W & mask = match` and the row's extra constraint holds (R84). -/
def rowMatches (w : CmdWord) (row : OpcodeRow) : Bool := w &&& row.mask == row.fixed && extraConstraint w

/-- The mnemonic of a command, as the table spells it. -/
def Instr.mnemonic : Instr → String
  | .nop => "NOP"
  | .srst => "SRST"
  | .rdstat => "RDSTAT"
  | .rdcnt _ => "RDCNT"
  | .fclr => "FCLR"
  | .fset _ _ => "FSET"
  | .frd _ => "FRD"
  | .build => "BUILD"
  | .nrd _ _ => "NRD"
  | .gen => "GEN"
  | .tclr => "TCLR"
  | .tdel _ => "TDEL"
  | .tapp _ _ _ => "TAPP"
  | .tchk => "TCHK"
  | .tlen _ => "TLEN"
  | .tbits _ _ => "TBITS"
  | .pstart => "PSTART"
  | .psym _ => "PSYM"
  | .pfin => "PFIN"
  | .ustart _ _ => "USTART"
  | .ubyte _ => "UBYTE"
  | .ufin => "UFIN"

/-! ## The byte-wide transport (20_memory.md R63, 93_implementation_defined.md U9) -/

/-- The eight bytes of a command word, in the order a transport of the given byte order carries them. -/
def serializeCommand (order : Config.ByteOrder) (w : CmdWord) : List (BitVec 8) :=
  let opcodeFirst := (List.range 8).map fun k => w.extractLsb' (56 - 8 * k) 8
  match order with
  | .opcodeFirst => opcodeFirst
  | .opcodeLast => opcodeFirst.reverse

/-- The command word that eight bytes of a transport make; any other number of bytes makes none. -/
def assembleCommand (order : Config.ByteOrder) (bytes : List (BitVec 8)) : Except Illegal CmdWord :=
  if bytes.length = 8 then
    let opcodeFirst := match order with
      | .opcodeFirst => bytes
      | .opcodeLast => bytes.reverse
    .ok (opcodeFirst.foldl (fun w byte => (w <<< 8) ||| byte.setWidth 64) 0#64)
  else .error .wrongLength

/-- Decoding what a byte-wide transport delivers: total on any bytes. -/
def decodeBytes (order : Config.ByteOrder) (bytes : List (BitVec 8)) : Except Illegal Instr :=
  match assembleCommand order bytes with
  | .ok w => decode w
  | .error e => .error e

/-- The command the decoder reads from an instruction whose bits are `w`, numbered as spec/opcode_table.json numbers them.
A command is one word of 64 bits (R80), so `w` is that word whatever `nbits` a row gives; a number of more than 64 bits is
no command word. -/
def decodeTableWord (_nbits w : Nat) : Option Instr :=
  if w < 2 ^ 64 then
    match decode (BitVec.ofNat 64 w) with
    | .ok i => some i
    | .error _ => none
  else none

end Sys2Proof
end

