-- ==== Sys2Proof/Machine/State.lean ====
section
/-! DEFINITION. The state of the block (spec/10_state.md R22), the host's side of its ports (R40), the reasons a step could
stop, and the state after reset (70_reset_and_hazards.md R240). -/

namespace Sys2Proof.Machine

/-- MODE (10_state.md R30): a 2-bit register with three values; the value 3 is never written and has no name here. -/
inductive Mode where
  /-- 0: neither packing nor unpacking -/
  | idle
  /-- 1: between PSTART and PFIN -/
  | pack
  /-- 2: between USTART and UFIN -/
  | unpack
deriving DecidableEq, Repr

/-- The value of ERR (10_state.md R34, 60_exceptions.md R200); the codes 8 to 15 are never written and have no name here. -/
inductive Err where
  /-- 0: no fault since reset -/
  | none
  /-- 1: BUILD found FREQ without a non-zero entry -/
  | treeError
  /-- 2: PSYM was given a symbol without a code -/
  | noCodeError
  /-- 3: TAPP would pass MAXLEN bits, or TCHK found the table empty or not prefix-free -/
  | tableError
  /-- 4: UBYTE is left with pending bits that can never match -/
  | streamError
  /-- 5: UFIN in limited mode with fewer than EXPLEN symbols decoded -/
  | shortError
  /-- 6: the command is not legal in this MODE, or needs a flag that is 0 -/
  | seqError
  /-- 7: the word decodes to no command -/
  | illCmdError
deriving DecidableEq, Repr

/-- The `kind` bit of a node record (10_state.md R25): 0 leaf, 1 internal. -/
inductive NodeKind where
  | leaf
  | internal
deriving DecidableEq, Repr

/-- A node record (10_state.md R25). -/
structure Node where
  kind  : NodeKind
  /-- the symbol of a leaf; 0 in an internal node -/
  sym   : Sym
  /-- the weight: a leaf's frequency zero-extended, an internal node's sum of its children -/
  wt    : Weight
  /-- index of the left child of an internal node; 0 in a leaf -/
  left  : NodeIdx
  /-- index of the right child of an internal node; 0 in a leaf -/
  right : NodeIdx
deriving DecidableEq, Repr

/-- An index-addressed space (20_memory.md R60) as plain data: (index, entry) pairs. Its canonical form is `Table.wf`
(Machine/Ops.lean): indices strictly rising, no entry equal to what an unlisted index reads as. DESIGN CHOICE (log entry 8). -/
abbrev Table (α : Type) := List (Nat × α)

/-- The complete state of the block, row for row the table of 10_state.md R22. NNODES is the length of NODE (R28) and is
that length here (`Block.nnodes`, log entry 6). -/
structure Block where
  /-- FREQ (R24): what an index not listed reads as is 0 -/
  freq      : Table Freq
  /-- NODE (R25) -/
  node      : List Node
  /-- ROOT (R28) -/
  root      : NodeIdx
  /-- TREE_VALID (R28) -/
  treeValid : Bool
  /-- NLEAF (R28), 0 to 256 -/
  nleaf     : BitVec 9
  /-- ROOTWT (R28) -/
  rootwt    : Weight
  /-- CODE (R27): what an index not listed reads as is the empty bitstring, absent -/
  code      : Table Bits
  /-- TAB_OK (R29) -/
  tabOk     : Bool
  /-- LMAX (R29) -/
  lmax      : BitVec 8
  /-- MODE (R30) -/
  mode      : Mode
  /-- ACC (R31) -/
  acc       : Byte
  /-- NACC (R31) -/
  nacc      : BitVec 3
  /-- PADCNT (R31) -/
  padcnt    : BitVec 3
  /-- PEND (R32), oldest bit first -/
  pend      : Bits
  /-- EXPLEN (R32) -/
  explen    : Count
  /-- LIMIT_EN (R32) -/
  limitEn   : Bool
  /-- SYMCNT (R33) -/
  symcnt    : Count
  /-- BYTECNT (R33) -/
  bytecnt   : Count
  /-- ERR (R34) -/
  err       : Err
  /-- ERRINFO (R34) -/
  errinfo   : BitVec 32
  /-- ERRIDX (R34) -/
  erridx    : Count
  /-- CMDCNT (R35) -/
  cmdcnt    : Count
deriving DecidableEq, Repr

/-- What the host does next at the block's inputs (10_state.md R40, 70_reset_and_hazards.md R240, R242). -/
inductive HostEvent where
  /-- present one command word on CMD and take everything the block emits -/
  | command (w : CmdWord)
  /-- pulse the reset input while no command runs (R240) -/
  | reset
  /-- present a command word and pulse the reset input while it runs, having taken the first `taken` of the words it emits
  (R242; how many is any value, 93_implementation_defined.md U13, so it is the host's to say) -/
  | resetDuring (w : CmdWord) (taken : Nat)
deriving DecidableEq, Repr

/-- The host's side of the ports: NOT state of the block (10_state.md R44) and read by no command. DESIGN CHOICE: it stands
beside the block so that a step can find its input and record its output (log entry 1). -/
structure HostSide where
  /-- what the host does next, the first thing first -/
  input : List HostEvent
  /-- RSP: the response words so far, oldest first -/
  rsp   : List Resp
  /-- OUTB: the payload bytes so far, oldest first -/
  outb  : List Byte
  /-- OUTS: the decoded symbols so far, oldest first -/
  outs  : List Sym
deriving DecidableEq, Repr

/-- The machine: the block and the host's side of its ports. -/
structure State where
  block : Block
  host  : HostSide
deriving DecidableEq, Repr

/-- Reasons for the machine to stop with a fault. THERE ARE NONE, and the type is empty: every fault of the block
(60_exceptions.md R200) is an entry into the faulted condition after which the block goes on accepting commands (R205, R206),
so it is a next state with ERR set (log entry 13); every command terminates (70_reset_and_hazards.md R259). -/
inductive Fault where
deriving DecidableEq, Repr

/-- Reasons to refuse an instruction. -/
inductive Refusal where
  /-- raised by an arm of `exec` whose instruction has no meaning yet; no arm is left that does. Safe: it stops. -/
  | notModelled (mnemonic : String)
deriving DecidableEq, Repr

/-- The block right after reset (10_state.md R22, 70_reset_and_hazards.md R240). -/
def Block.reset : Block where
  freq      := []
  node      := []
  root      := 0#9
  treeValid := false
  nleaf     := 0#9
  rootwt    := 0#40
  code      := []
  tabOk     := false
  lmax      := 0#8
  mode      := .idle
  acc       := 0#8
  nacc      := 0#3
  padcnt    := 0#3
  pend      := []
  explen    := 0#32
  limitEn   := false
  symcnt    := 0#32
  bytecnt   := 0#32
  err       := .none
  errinfo   := 0#32
  erridx    := 0#32
  cmdcnt    := 0#32

/-- The host's side before the host has done anything: nothing presented, nothing emitted. -/
def HostSide.initial : HostSide where
  input := []
  rsp   := []
  outb  := []
  outs  := []

/-- The machine right after reset. -/
def State.reset : State where
  block := Block.reset
  host  := HostSide.initial

end Sys2Proof.Machine
end

