-- ==== Sys2Proof/Machine/Ops.lean ====
section
/-! DEFINITION. The named operations of the block: reading and writing the index-addressed spaces (spec/20_memory.md R60 to
R62), the three output streams (10_state.md R40), the saturating counters (R33, R35), fault entry and the way out of it
(60_exceptions.md R205, R207), and the common prelude of every command (R204). -/

namespace Sys2Proof.Machine

/-! ## The index-addressed spaces -/

/-- What an entry of FREQ that is not listed reads as: its reset contents, 0 (10_state.md R24). -/
def unlistedFreq : Freq := 0#32

/-- What an entry of CODE that is not listed reads as: its reset contents, the empty bitstring, absent (10_state.md R27). -/
def unlistedCode : Bits := []

/-- `MemRead(space, index)` (00_scope.md R11). -/
def Table.read {α : Type} (unlisted : α) : Table α → Nat → α
  | [], _ => unlisted
  | (k, v) :: rest, j => if k = j then v else Table.read unlisted rest j

/-- Puts an entry before the first one with a greater index. -/
def Table.place {α : Type} (k : Nat) (v : α) : Table α → Table α
  | [] => [(k, v)]
  | (k', v') :: rest => if k < k' then (k, v) :: (k', v') :: rest else (k', v') :: Table.place k v rest

/-- `MemWrite(space, index, v)` (00_scope.md R11), keeping the canonical form: a value that an unlisted index reads as is
not listed. -/
def Table.write {α : Type} [DecidableEq α] (unlisted : α) (t : Table α) (k : Nat) (v : α) : Table α :=
  let others := t.filter fun e => e.1 != k
  if v = unlisted then others else Table.place k v others

/-- The canonical form: indices strictly rising and below `size`, no entry equal to what an unlisted index reads as. -/
def Table.wf {α : Type} [DecidableEq α] (size : Nat) (unlisted : α) (t : Table α) : Bool :=
  decide (t.Pairwise fun x y => x.1 < y.1) && t.all fun e => decide (e.1 < size) && decide (e.2 ≠ unlisted)

/-- The spaces FREQ and CODE are in canonical form (NODE, a list addressed by position, always is). -/
def Memory.wf (b : Block) : Bool :=
  Table.wf Config.nsym unlistedFreq b.freq && Table.wf Config.nsym unlistedCode b.code

/-- All symbols, in ascending order: `for s in 0 .. NSYM-1`. -/
def symbols : List Sym := (List.range Config.nsym).map (BitVec.ofNat 8)

/-- `FREQ[s]` (10_state.md R24). -/
def freqAt (b : Block) (sym : Sym) : Freq := Table.read unlistedFreq b.freq sym.toNat

/-- `CODE[s]` of a table (10_state.md R27). -/
def codeIn (t : Table Bits) (sym : Sym) : Bits := Table.read unlistedCode t sym.toNat

/-- `CODE[s]` (10_state.md R27). -/
def codeAt (b : Block) (sym : Sym) : Bits := codeIn b.code sym

/-- `FREQ[s] <- v`. -/
def setFreq (sym : Sym) (v : Freq) (s : State) : State :=
  { s with block.freq := Table.write unlistedFreq s.block.freq sym.toNat v }

/-- `for s in 0 .. NSYM-1: FREQ[s] <- 0`. -/
def clearFreq (s : State) : State := { s with block.freq := [] }

/-- `CODE[s] <- c` in a table. -/
def codeWith (t : Table Bits) (sym : Sym) (c : Bits) : Table Bits := Table.write unlistedCode t sym.toNat c

/-- `CODE[s] <- c`. -/
def setCode (sym : Sym) (c : Bits) (s : State) : State := { s with block.code := codeWith s.block.code sym c }

/-- `for s in 0 .. NSYM-1: CODE[s] <- ε`. -/
def clearCode (s : State) : State := { s with block.code := [] }

/-- NNODES: the length of NODE (10_state.md R28). -/
def Block.nnodes (b : Block) : Nat := b.node.length

/-! ## Counters and output streams -/

/-- `sat(v + 1)` on a counter: saturating at 2^CNTW - 1 (10_state.md R33, 00_scope.md R11). -/
def satInc (v : Count) : Count := if v = BitVec.allOnes 32 then v else v + 1#32

/-- Step 6 of 60_exceptions.md R204: CMDCNT <- sat(CMDCNT + 1) (10_state.md R35). -/
def counted (s : State) : State := { s with block.cmdcnt := satInc s.block.cmdcnt }

/-- `respond(w)`: append to RSP. -/
def respond (w : Resp) (s : State) : State := { s with host.rsp := s.host.rsp ++ [w] }

/-- `emitB(b)`: append to OUTB. -/
def emitB (byte : Byte) (s : State) : State := { s with host.outb := s.host.outb ++ [byte] }

/-- `emitS(s)`: append to OUTS. -/
def emitS (sym : Sym) (s : State) : State := { s with host.outs := s.host.outs ++ [sym] }

/-! ## Faults: entry, the faulted condition, the way out -/

/-- ERR ≠ 0: the faulted condition (60_exceptions.md R206), and the level of the output `fault` (R210). -/
def faulted (b : Block) : Bool := b.err != .none

/-- Fault entry (60_exceptions.md R205), for the command word `w`: ERR, ERRINFO <- W[63:32], ERRIDX <- CMDCNT, and nothing
else. -/
def raise (e : Err) (w : CmdWord) (s : State) : State :=
  { s with block.err := e, block.errinfo := upperHalf w, block.erridx := s.block.cmdcnt }

/-- Every piece of state of the block at its reset value: the way out of the faulted condition (60_exceptions.md R207), by
SRST (45_control_status.md R181) or by the reset input (70_reset_and_hazards.md R240). What the host has accepted is not
taken back (R242). -/
def resetBlock (s : State) : State := { s with block := Block.reset }

/-! ## The common prelude (60_exceptions.md R204) -/

/-- The seven commands that change nothing but CMDCNT and RSP and run in the faulted condition too (60_exceptions.md R206). -/
def readsOnly : Instr → Bool
  | .nop => true
  | .rdstat => true
  | .rdcnt _ => true
  | .frd _ => true
  | .nrd _ _ => true
  | .tlen _ => true
  | .tbits _ _ => true
  | .srst => false
  | .fclr => false
  | .fset _ _ => false
  | .build => false
  | .gen => false
  | .tclr => false
  | .tdel _ => false
  | .tapp _ _ _ => false
  | .tchk => false
  | .pstart => false
  | .psym _ => false
  | .pfin => false
  | .ustart _ _ => false
  | .ubyte _ => false
  | .ufin => false

/-- `seq_ok(c)`: the MODE and the flag a command needs (60_exceptions.md R204, the table). SRST never comes to this check. -/
def seqOk (b : Block) : Instr → Bool
  | .nop => true
  | .srst => true
  | .rdstat => true
  | .rdcnt _ => true
  | .fclr => true
  | .fset _ _ => true
  | .frd _ => true
  | .build => true
  | .nrd _ _ => true
  | .gen => b.mode == .idle && b.treeValid
  | .tclr => b.mode == .idle
  | .tdel _ => b.mode == .idle
  | .tapp _ _ _ => b.mode == .idle
  | .tchk => b.mode == .idle
  | .tlen _ => true
  | .tbits _ _ => true
  | .pstart => b.mode == .idle && b.tabOk
  | .psym _ => b.mode == .pack
  | .pfin => b.mode == .pack
  | .ustart _ _ => b.mode == .idle && b.tabOk
  | .ubyte _ => b.mode == .unpack
  | .ufin => b.mode == .unpack

/-- The command word `w`, illegal, is accepted: counted and ignored in the faulted condition (60_exceptions.md R206), else
IllCmdError (R203). -/
def illegalWord (w : CmdWord) (s : State) : State :=
  if faulted s.block then counted s else counted (raise .illCmdError w s)

/-- Steps 2 to 6 of 60_exceptions.md R204 around what a command itself does. A term whose operands no word encodes is
treated as the illegal word it would be (log entry 9). -/
def withPrelude (i : Instr) (perform : State → State) (s : State) : Host.Outcome State Fault Refusal :=
  if faulted s.block then .next (counted (if readsOnly i && i.wf then perform s else s))
  else if !i.wf then .next (illegalWord (encode i) s)
  else if !seqOk s.block i then .next (counted (raise .seqError (encode i) s))
  else .next (counted (perform s))

end Sys2Proof.Machine
end

