-- ==== Sys2Proof/Machine/Operands.lean ====
section
/-! DEFINITION. Operand and response forms: bitstrings and their integer images (spec/00_scope.md R10, 20_memory.md R64, R65),
the bits TAPP appends (30_encoding.md R83), and the response words of NRD, TLEN and TBITS (R90). -/

namespace Sys2Proof.Machine

/-- `img(c)`: the bitstring as an unsigned integer, its first bit the most significant (00_scope.md R10). -/
def img (c : Bits) : Nat := c.foldl (fun n bit => 2 * n + bit.toNat) 0

/-- `[ v[n-1], v[n-2], ..., v[0] ]`: the bitstring of `n` bits whose image is the low `n` bits of `v` (30_encoding.md R83). -/
def lowBits {w : Nat} (n : Nat) (v : BitVec w) : Bits := (List.range n).map fun i => v.getLsbD (n - 1 - i)

/-- The bits of a payload byte in stream order: `byte[7], ..., byte[0]` (20_memory.md R64). -/
def byteBits (byte : Byte) : Bits := lowBits 8 byte

/-- The bit of NODE's `kind` (10_state.md R25). -/
def NodeKind.bit : NodeKind → BitVec 1
  | .leaf => 0#1
  | .internal => 1#1

/-- The part of a node NRD's `sel` names (41_tree_builder.md R118, 30_encoding.md R90): 0 INFO, 1 WT_LO, 2 WT_HI, 3 CHILD. -/
def nodePart (sel : BitVec 2) (nd : Node) : Resp :=
  match sel.toNat with
  | 0 => 1#1 ++ nd.kind.bit ++ 0#22 ++ nd.sym
  | 1 => nd.wt.extractLsb' 0 32
  | 2 => (nd.wt.extractLsb' 32 8).setWidth 32
  | _ => 0#7 ++ nd.right ++ 0#7 ++ nd.left

/-- NRD's answer (41_tree_builder.md R118): an index that names no node reads 0. -/
def nodeWord (b : Block) (sel : BitVec 2) (idx : NodeIdx) : Resp :=
  match b.node[idx.toNat]? with
  | none => 0#32
  | some nd => nodePart sel nd

/-- TLEN's answer (42_code_table.md R140): bit 31 the presence, bits 7:0 the length. -/
def lengthWord (c : Bits) : Resp := BitVec.ofBool (decide (1 ≤ c.length)) ++ 0#23 ++ BitVec.ofNat 8 c.length

/-- TBITS's answer (42_code_table.md R141): bits 32k+31 to 32k of the code's image. -/
def chunkWord (c : Bits) (k : BitVec 3) : Resp := (BitVec.ofNat 256 (img c)).extractLsb' (32 * k.toNat) 32

end Sys2Proof.Machine
end

