-- ==== Sys2Proof/Machine/Flags.lean ====
section
/-! DEFINITION. Flags and views: the STATUS word (spec/10_state.md R23), the counters RDCNT reads (R36), and what TAB_OK and
LMAX stand for (R29, 42_code_table.md R138, R139). -/

namespace Sys2Proof.Machine

/-- MODE as STATUS shows it (10_state.md R30). -/
def Mode.code : Mode → BitVec 2
  | .idle => 0#2
  | .pack => 1#2
  | .unpack => 2#2

/-- ERR as STATUS shows it (60_exceptions.md R200). -/
def Err.code : Err → BitVec 4
  | .none => 0#4
  | .treeError => 1#4
  | .noCodeError => 2#4
  | .tableError => 3#4
  | .streamError => 4#4
  | .shortError => 5#4
  | .seqError => 6#4
  | .illCmdError => 7#4

/-- LIMIT_EN = 1 and SYMCNT = EXPLEN: the limit of 44_bit_unpacker.md R163 is reached. -/
def limitReached (b : Block) : Bool := b.limitEn && b.symcnt == b.explen

/-- UDONE (10_state.md R23). -/
def udone (b : Block) : Bool := b.mode == .unpack && limitReached b

/-- The STATUS word, from bit 31 down to bit 0 (10_state.md R23). -/
def statusWord (b : Block) : Resp :=
  0#7 ++ BitVec.ofNat 9 b.pend.length ++ 0#3 ++ b.nacc ++ BitVec.ofBool (udone b) ++ BitVec.ofBool b.limitEn ++
    BitVec.ofBool b.tabOk ++ BitVec.ofBool b.treeValid ++ b.mode.code ++ b.err.code

/-- The present entries of CODE with their symbols, in ascending order of the symbol (10_state.md R27). -/
def presentCodes (t : Table Bits) : List (Sym × Bits) :=
  symbols.filterMap fun sym => let c := codeIn t sym; if c = [] then none else some (sym, c)

/-- NCODES: the number of present entries, computed when read (10_state.md R27). -/
def ncodes (b : Block) : Nat := (presentCodes b.code).length

/-- The greatest `|CODE[s]|` over present entries (10_state.md R29). -/
def greatestLength (t : Table Bits) : Nat := ((presentCodes t).map fun e => e.2.length).foldl max 0

/-- `prefix_free(CODE)` (42_code_table.md R139): no present entry is a prefix of another symbol's present entry. -/
def prefixFree (t : Table Bits) : Bool :=
  let entries := presentCodes t
  entries.all fun x => entries.all fun y => x.1 == y.1 || !x.2.isPrefixOf y.2

/-- `LMAX <- max over present s of |CODE[s]| ; TAB_OK <- 1` (42_code_table.md R131, R138). -/
def markTable (s : State) : State :=
  { s with block.lmax := BitVec.ofNat 8 (greatestLength s.block.code), block.tabOk := true }

/-- `TAB_OK <- 0 ; LMAX <- 0`: what every change of CODE other than GEN does (10_state.md R29). -/
def unmarkTable (s : State) : State := { s with block.lmax := 0#8, block.tabOk := false }

/-- `counter(sel)` (10_state.md R36). The selectors 14 and 15 are illegal at decode (30_encoding.md R88) and name none. -/
def counter (b : Block) (sel : BitVec 4) : Option Resp :=
  match sel.toNat with
  | 0 => some b.symcnt
  | 1 => some b.bytecnt
  | 2 => some (b.padcnt.setWidth 32)
  | 3 => some b.explen
  | 4 => some (b.nleaf.setWidth 32)
  | 5 => some (BitVec.ofNat 32 b.nnodes)
  | 6 => some (b.root.setWidth 32)
  | 7 => some (b.rootwt.extractLsb' 0 32)
  | 8 => some ((b.rootwt.extractLsb' 32 8).setWidth 32)
  | 9 => some (b.lmax.setWidth 32)
  | 10 => some (BitVec.ofNat 32 (ncodes b))
  | 11 => some b.cmdcnt
  | 12 => some b.errinfo
  | 13 => some b.erridx
  | _ => none

end Sys2Proof.Machine
end

