-- ==== Sys2Proof/Machine/CodeTable.lean ====
section
/-! DEFINITION. Code table commands (spec/42_code_table.md): GEN, TCLR, TDEL, TAPP, TCHK, TLEN, TBITS. -/

namespace Sys2Proof.Machine

/-- `walk(i, p)` (R132): records the code of every leaf below node `i`, left subtree first. The fuel is a bound on the
depth: a child has a lesser index than its parent (10_state.md R42), so NNODES is one (log entry 12). -/
def walk (nodes : List Node) : Nat → Nat → Bits → Table Bits → Table Bits
  | 0, _, _, t => t
  | fuel + 1, i, p, t =>
    match nodes[i]? with
    | none => t
    | some nd =>
      match nd.kind with
      | .leaf => codeWith t nd.sym p
      | .internal =>
        walk nodes fuel nd.right.toNat (p ++ [true]) (walk nodes fuel nd.left.toNat (p ++ [false]) t)

/-- The table GEN derives from the tree with the given root (R131, R133, R134): from an empty table, the one-symbol code
`"0"` when the root is a leaf, else the walk. -/
def treeCodes (nodes : List Node) (root : Nat) : Table Bits :=
  match nodes[root]? with
  | none => []
  | some nd =>
    match nd.kind with
    | .leaf => codeWith [] nd.sym [false]
    | .internal => walk nodes nodes.length root [] []

/-- `NODE <- [] ; NNODES <- 0 ; ROOT <- 0 ; TREE_VALID <- 0` (R131). -/
def discardTree (s : State) : State :=
  { s with block.node := [], block.root := 0#9, block.treeValid := false }

/-- What GEN does (R131). -/
def generateCodes (s : State) : State :=
  discardTree (markTable { s with block.code := treeCodes s.block.node s.block.root.toNat })

/-- GEN (R131). -/
def execGen (s : State) : Host.Outcome State Fault Refusal := withPrelude .gen generateCodes s

/-- TCLR (R135): every code absent. -/
def execTclr (s : State) : Host.Outcome State Fault Refusal := withPrelude .tclr (fun s => unmarkTable (clearCode s)) s

/-- TDEL (R136): one code absent. -/
def execTdel (sym : Sym) (s : State) : Host.Outcome State Fault Refusal :=
  withPrelude (.tdel sym) (fun s => unmarkTable (setCode sym [] s)) s

/-- What TAPP does (R137): TableError when the code would pass MAXLEN bits, else append `v[n-1] .. v[0]`. -/
def appendCode (sym : Sym) (n : BitVec 8) (v : BitVec 32) (s : State) : State :=
  if (codeAt s.block sym).length + n.toNat > Config.maxlen then raise .tableError (encode (.tapp sym n v)) s
  else unmarkTable (setCode sym (codeAt s.block sym ++ lowBits n.toNat v) s)

/-- TAPP (R137). -/
def execTapp (sym : Sym) (n : BitVec 8) (v : BitVec 32) (s : State) : Host.Outcome State Fault Refusal :=
  withPrelude (.tapp sym n v) (appendCode sym n v) s

/-- What TCHK does (R138): TableError on an empty table, TableError on one that is not prefix-free, else mark it usable. -/
def checkTable (s : State) : State :=
  if (presentCodes s.block.code).isEmpty then raise .tableError (encode .tchk) s
  else if !prefixFree s.block.code then raise .tableError (encode .tchk) s
  else markTable s

/-- TCHK (R138). -/
def execTchk (s : State) : Host.Outcome State Fault Refusal := withPrelude .tchk checkTable s

/-- TLEN (R140): respond with the presence and length of one code. -/
def execTlen (sym : Sym) (s : State) : Host.Outcome State Fault Refusal :=
  withPrelude (.tlen sym) (fun s => respond (lengthWord (codeAt s.block sym)) s) s

/-- TBITS (R141): respond with 32 bits of one code's image. -/
def execTbits (sym : Sym) (k : BitVec 3) (s : State) : Host.Outcome State Fault Refusal :=
  withPrelude (.tbits sym k) (fun s => respond (chunkWord (codeAt s.block sym) k) s) s

end Sys2Proof.Machine
end

