-- ==== Sys2Proof/Machine/Control.lean ====
section
/-! DEFINITION. Control and status commands (spec/45_control_status.md): NOP, SRST, RDSTAT, RDCNT. -/

namespace Sys2Proof.Machine

/-- NOP (R180): no effect. -/
def execNop (s : State) : Host.Outcome State Fault Refusal := withPrelude .nop (fun s => s) s

/-- SRST (R181, and step 1 of 60_exceptions.md R204): every piece of state at its reset value, in every MODE and in the
faulted condition; SRST itself is not counted. -/
def execSrst (s : State) : Host.Outcome State Fault Refusal := .next (resetBlock s)

/-- RDSTAT (R182): respond with STATUS. -/
def execRdstat (s : State) : Host.Outcome State Fault Refusal :=
  withPrelude .rdstat (fun s => respond (statusWord s.block) s) s

/-- RDCNT (R183): respond with the counter `sel` names, CMDCNT as it was before this command is counted. -/
def execRdcnt (sel : BitVec 4) (s : State) : Host.Outcome State Fault Refusal :=
  withPrelude (.rdcnt sel) (fun s => match counter s.block sel with | some w => respond w s | none => s) s

end Sys2Proof.Machine
end

