-- ==== Sys2Proof/Machine/Frequency.lean ====
section
/-! DEFINITION. Frequency table commands (spec/40_frequency_table.md): FCLR, FSET, FRD. -/

namespace Sys2Proof.Machine

/-- FCLR (R101): every entry of FREQ becomes 0; the tree and the table stay. -/
def execFclr (s : State) : Host.Outcome State Fault Refusal := withPrelude .fclr clearFreq s

/-- FSET (R102): `FREQ[sym] <- count`; a second FSET replaces, it does not add. -/
def execFset (sym : Sym) (count : Freq) (s : State) : Host.Outcome State Fault Refusal :=
  withPrelude (.fset sym count) (setFreq sym count) s

/-- FRD (R103): respond with `FREQ[sym]`. -/
def execFrd (sym : Sym) (s : State) : Host.Outcome State Fault Refusal :=
  withPrelude (.frd sym) (fun s => respond (freqAt s.block sym) s) s

end Sys2Proof.Machine
end

