-- ==== Sys2Proof/Machine/Packer.lean ====
section
/-! DEFINITION. Bit packer commands (spec/43_bit_packer.md): PSTART, PSYM, PFIN. -/

namespace Sys2Proof.Machine

/-- `emitB(byte) ; BYTECNT <- sat(BYTECNT + 1)` (R151, R152). -/
def emitCountedByte (byte : Byte) (s : State) : State :=
  { emitB byte s with block.bytecnt := satInc s.block.bytecnt }

/-- What PSTART does (R150). -/
def startPacking (s : State) : State :=
  { s with
    block.acc := 0#8, block.nacc := 0#3, block.padcnt := 0#3
    block.symcnt := 0#32, block.bytecnt := 0#32
    block.mode := .pack }

/-- PSTART (R150). -/
def execPstart (s : State) : Host.Outcome State Fault Refusal := withPrelude .pstart startPacking s

/-- One bit into the accumulator (R151, the loop's body): the eighth bit emits the byte and clears the pair. -/
def packBit (s : State) (bit : Bool) : State :=
  let acc := (s.block.acc <<< 1) ||| (BitVec.ofBool bit).setWidth 8
  if s.block.nacc = 7#3 then { emitCountedByte acc s with block.acc := 0#8, block.nacc := 0#3 }
  else { s with block.acc := acc, block.nacc := s.block.nacc + 1#3 }

/-- The bits of a code into the accumulator, first bit first (R151). -/
def packBits (bits : Bits) (s : State) : State := bits.foldl packBit s

/-- What PSYM does (R151): NoCodeError for a symbol without a code, else append its bits and count it. -/
def packSymbol (sym : Sym) (s : State) : State :=
  if codeAt s.block sym = [] then raise .noCodeError (encode (.psym sym)) s
  else
    let packed := packBits (codeAt s.block sym) s
    { packed with block.symcnt := satInc packed.block.symcnt }

/-- PSYM (R151). -/
def execPsym (sym : Sym) (s : State) : Host.Outcome State Fault Refusal := withPrelude (.psym sym) (packSymbol sym) s

/-- The flush of PFIN (R152): 1 to 7 waiting bits go to the high bits of a last byte and PADCNT counts the zeros below. -/
def flushByte (s : State) : State :=
  if s.block.nacc = 0#3 then { s with block.padcnt := 0#3 }
  else
    let pad := 8 - s.block.nacc.toNat
    { emitCountedByte (s.block.acc <<< pad) s with block.padcnt := BitVec.ofNat 3 pad }

/-- What PFIN does (R152). -/
def finishPacking (s : State) : State :=
  { flushByte s with block.acc := 0#8, block.nacc := 0#3, block.mode := .idle }

/-- PFIN (R152). -/
def execPfin (s : State) : Host.Outcome State Fault Refusal := withPrelude .pfin finishPacking s

end Sys2Proof.Machine
end

