-- ==== Sys2Proof/Machine/Tree.lean ====
section
/-! DEFINITION. Tree builder commands (spec/41_tree_builder.md): BUILD, NRD. -/

namespace Sys2Proof.Machine

/-- The leaf of a symbol (R112). -/
def leafNode (sym : Sym) (count : Freq) : Node :=
  { kind := .leaf, sym := sym, wt := count.setWidth 40, left := 0#9, right := 0#9 }

/-- Leaf creation (R112): one leaf per symbol with a non-zero frequency, in ascending symbol order. -/
def leafNodes (b : Block) : List Node :=
  symbols.filterMap fun sym => let count := freqAt b sym; if count = 0#32 then none else some (leafNode sym count)

/-- `NODE[i].wt`. -/
def weightAt (nodes : List Node) (i : Nat) : Weight :=
  match nodes[i]? with
  | some nd => nd.wt
  | none => 0#40

/-- The order of the priority structure (R113): `(NODE[i].wt, i)` before `(NODE[j].wt, j)`, lexicographically. -/
def comesBefore (nodes : List Node) (i j : Nat) : Bool :=
  decide ((weightAt nodes i).toNat < (weightAt nodes j).toNat) ||
    (weightAt nodes i == weightAt nodes j && decide (i < j))

/-- The member that comes first among `least` and the listed ones. -/
def firstOf (nodes : List Node) (least : Nat) : List Nat → Nat
  | [] => least
  | i :: rest => firstOf nodes (if comesBefore nodes i least then i else least) rest

/-- `extract_min(ACTIVE)` (R113): the member with the least `(wt, index)`, and ACTIVE without it. -/
def extractMin (nodes : List Node) : List Nat → Option (Nat × List Nat)
  | [] => none
  | i :: rest => let least := firstOf nodes i rest; some (least, (i :: rest).erase least)

/-- The internal node over `a` and `b`: the one extracted first is the left child (R114). -/
def internalNode (nodes : List Node) (a b : Nat) : Node :=
  { kind := .internal, sym := 0#8, wt := weightAt nodes a + weightAt nodes b,
    left := BitVec.ofNat 9 a, right := BitVec.ofNat 9 b }

/-- One merge (R114): NODE and ACTIVE after it. With fewer than two members ACTIVE stays as it is. -/
def mergeOnce (nodes : List Node) (active : List Nat) : List Node × List Nat :=
  match extractMin nodes active with
  | none => (nodes, active)
  | some (a, rest) =>
    match extractMin nodes rest with
    | none => (nodes, active)
    | some (b, rest') => (nodes ++ [internalNode nodes a b], rest' ++ [nodes.length])

/-- `while |ACTIVE| >= 2: merge once` (R111), with the number of merges R115 gives as fuel. -/
def mergeLoop : Nat → List Node → List Nat → List Node × List Nat
  | 0, nodes, active => (nodes, active)
  | fuel + 1, nodes, active =>
    if active.length ≥ 2 then
      let merged := mergeOnce nodes active
      mergeLoop fuel merged.1 merged.2
    else (nodes, active)

/-- NODE and ACTIVE at the end of BUILD's loop, from the leaves: `n` leaves take `n - 1` merges (R115). -/
def mergeAll (leaves : List Node) : List Node × List Nat :=
  mergeLoop (leaves.length - 1) leaves (List.range leaves.length)

/-- The finished tree in the state: NODE, ROOT, TREE_VALID, NLEAF, ROOTWT (R111). -/
def plantTree (leaves : List Node) (s : State) : State :=
  let built := mergeAll leaves
  let root := built.2.headD 0
  { s with
    block.node := built.1
    block.root := BitVec.ofNat 9 root
    block.treeValid := true
    block.nleaf := BitVec.ofNat 9 leaves.length
    block.rootwt := weightAt built.1 root }

/-- What BUILD does (R111, R117): TreeError on an all-zero FREQ, else the tree of FREQ. -/
def buildTree (s : State) : State :=
  let leaves := leafNodes s.block
  if leaves.isEmpty then raise .treeError (encode .build) s else plantTree leaves s

/-- BUILD (R111). -/
def execBuild (s : State) : Host.Outcome State Fault Refusal := withPrelude .build buildTree s

/-- NRD (R118): respond with part of one node. -/
def execNrd (sel : BitVec 2) (idx : NodeIdx) (s : State) : Host.Outcome State Fault Refusal :=
  withPrelude (.nrd sel idx) (fun s => respond (nodeWord s.block sel idx) s) s

end Sys2Proof.Machine
end

