-- ==== Sys2Proof/Machine/Unpacker.lean ====
section
/-! DEFINITION. Bit unpacker commands (spec/44_bit_unpacker.md): USTART, UBYTE, UFIN. -/

namespace Sys2Proof.Machine

/-- What USTART does (R161). -/
def startUnpacking (limEn : Bool) (explen : Count) (s : State) : State :=
  { s with
    block.pend := []
    block.limitEn := limEn, block.explen := explen
    block.symcnt := 0#32, block.bytecnt := 0#32
    block.mode := .unpack }

/-- USTART (R161). -/
def execUstart (limEn : Bool) (explen : Count) (s : State) : Host.Outcome State Fault Refusal :=
  withPrelude (.ustart limEn explen) (startUnpacking limEn explen) s

/-- `match(P)` for a table given as a function (R162): the symbol whose code is present and a prefix of `P`. With a
prefix-free table at most one qualifies; the scan takes the least (log entry 12). -/
def matchIn (code : Sym → Bits) (pend : Bits) : Option Sym :=
  symbols.find? fun sym => !(code sym).isEmpty && (code sym).isPrefixOf pend

/-- `match(P)` on CODE (R162). -/
def matchCode (b : Block) (pend : Bits) : Option Sym := matchIn (codeAt b) pend

/-- One match taken (R163, the loop's body): emit the symbol, drop its code from the front of PEND, count it. -/
def takeSymbol (sym : Sym) (s : State) : State :=
  { emitS sym s with
    block.pend := s.block.pend.drop (codeAt s.block sym).length
    block.symcnt := satInc s.block.symcnt }

/-- The loop of UBYTE (R163): the state when it ends, and whether it ended by reaching the limit. Each pass removes at
least one bit, so the length of PEND is fuel enough. -/
def drain : Nat → State → State × Bool
  | 0, s => (s, false)
  | fuel + 1, s =>
    match matchCode s.block s.block.pend with
    | none => (s, false)
    | some sym =>
      let s' := takeSymbol sym s
      if limitReached s'.block then ({ s' with block.pend := [] }, true) else drain fuel s'

/-- What UBYTE does (R163): count the byte; discard it when the limit is reached already; else append its bits, emit every
symbol they complete, and raise StreamError when what is left can never match (R165). -/
def unpackByte (byte : Byte) (s : State) : State :=
  let s := { s with block.bytecnt := satInc s.block.bytecnt }
  if limitReached s.block then s
  else
    let s := { s with block.pend := s.block.pend ++ byteBits byte }
    let drained := drain s.block.pend.length s
    if drained.2 then drained.1
    else if drained.1.block.pend.length ≥ drained.1.block.lmax.toNat then
      raise .streamError (encode (.ubyte byte)) drained.1
    else drained.1

/-- UBYTE (R163). -/
def execUbyte (byte : Byte) (s : State) : Host.Outcome State Fault Refusal := withPrelude (.ubyte byte) (unpackByte byte) s

/-- What UFIN does (R164): ShortError in limited mode with fewer than EXPLEN symbols, else drop PEND and leave the mode. -/
def finishUnpacking (s : State) : State :=
  if s.block.limitEn && decide (s.block.symcnt.toNat < s.block.explen.toNat) then raise .shortError (encode .ufin) s
  else { s with block.pend := [], block.mode := .idle }

/-- UFIN (R164). -/
def execUfin (s : State) : Host.Outcome State Fault Refusal := withPrelude .ufin finishUnpacking s

end Sys2Proof.Machine
end

