-- ==== Sys2Proof/Machine/Dispatch.lean ====
section
/-! DEFINITION. One arm per command of spec/opcode_table.json. -/

namespace Sys2Proof.Machine

def exec (i : Instr) (s : State) : Host.Outcome State Fault Refusal :=
  match i with
  | .nop => Sys2Proof.Machine.execNop s
  | .srst => Sys2Proof.Machine.execSrst s
  | .rdstat => Sys2Proof.Machine.execRdstat s
  | .rdcnt sel => Sys2Proof.Machine.execRdcnt sel s
  | .fclr => Sys2Proof.Machine.execFclr s
  | .fset sym count => Sys2Proof.Machine.execFset sym count s
  | .frd sym => Sys2Proof.Machine.execFrd sym s
  | .build => Sys2Proof.Machine.execBuild s
  | .nrd sel idx => Sys2Proof.Machine.execNrd sel idx s
  | .gen => Sys2Proof.Machine.execGen s
  | .tclr => Sys2Proof.Machine.execTclr s
  | .tdel sym => Sys2Proof.Machine.execTdel sym s
  | .tapp sym n v => Sys2Proof.Machine.execTapp sym n v s
  | .tchk => Sys2Proof.Machine.execTchk s
  | .tlen sym => Sys2Proof.Machine.execTlen sym s
  | .tbits sym k => Sys2Proof.Machine.execTbits sym k s
  | .pstart => Sys2Proof.Machine.execPstart s
  | .psym sym => Sys2Proof.Machine.execPsym sym s
  | .pfin => Sys2Proof.Machine.execPfin s
  | .ustart limEn explen => Sys2Proof.Machine.execUstart limEn explen s
  | .ubyte byte => Sys2Proof.Machine.execUbyte byte s
  | .ufin => Sys2Proof.Machine.execUfin s

end Sys2Proof.Machine
end

