-- ==== Sys2Proof/Machine/Sequencer.lean ====
section
/-! DEFINITION. The sequencer (spec/00_scope.md R6): what the block does with the next thing the host does. -/

namespace Sys2Proof.Machine

/-- The block with the first `n` things of the host's input consumed. -/
def dropInput (n : Nat) (s : State) : State := { s with host.input := s.host.input.drop n }

/-- A command word is accepted and performed to completion (60_exceptions.md R204). -/
def acceptWord (w : CmdWord) (s : State) : Host.Outcome State Fault Refusal :=
  match decode w with
  | .ok i => exec i s
  | .error _ => .next (illegalWord w s)

/-- The first `taken` words that came after those of `before`. -/
def firstNew {α : Type} (taken : Nat) (before after : List α) : List α :=
  before ++ (after.drop before.length).take taken

/-- The reset input while a command runs (70_reset_and_hazards.md R240, R242): the block is in the reset state whatever was
running, and of what the command would have emitted the host keeps the first `taken` words. A command emits on one stream
only, so the prefix is that of its stream. -/
def cutByReset (taken : Nat) (before after : State) : State :=
  resetBlock { before with
    host.rsp := firstNew taken before.host.rsp after.host.rsp
    host.outb := firstNew taken before.host.outb after.host.outb
    host.outs := firstNew taken before.host.outs after.host.outs }

/-- One step of the sequencer: take the next thing the host does. With nothing presented the block waits and keeps all
state (60_exceptions.md R217). -/
def takeInput (s : State) : Host.Outcome State Fault Refusal :=
  match s.host.input with
  | [] => .next s
  | .command w :: _ => acceptWord w (dropInput 1 s)
  | .reset :: _ => .next (resetBlock (dropInput 1 s))
  | .resetDuring w taken :: _ =>
    match acceptWord w (dropInput 1 s) with
    | .next after => .next (cutByReset taken (dropInput 1 s) after)
    | .fault r => .fault r
    | .refused r => .refused r

/-- The host presents `w` as the next command word: before anything else it has in mind. -/
def presentNext (w : CmdWord) (s : State) : State := { s with host.input := .command w :: s.host.input }

/-- The command word that an instruction's bits make (30_encoding.md R80: one word of 64 bits, whatever `nbits` a row gives). -/
def wordOfBits (_nbits w : Nat) : CmdWord := BitVec.ofNat 64 w

end Sys2Proof.Machine
end

