-- ==== Sys2Proof/Machine/Step.lean ====
section
/-! DEFINITION. One step of the machine, and the placing of an instruction where the next step takes it. -/

namespace Sys2Proof.Machine

/-- One step: the sequencer takes the next thing the host does. -/
def step (s : State) : Host.Outcome State Fault Refusal := takeInput s

/-- `s` with the instruction whose bits are `w` as the next command word the host presents on CMD: the block has no program
counter and fetches nothing (10_state.md R21), so this is where its next instruction comes from (log entry 2). -/
def State.withFetchWord (s : State) (nbits w : Nat) : State := presentNext (wordOfBits nbits w) s

end Sys2Proof.Machine
end

