-- ==== Sys2Proof/Machine/Assembler.lean ====
section
/-! DEFINITION. Listings and pseudo-commands (spec/30_encoding.md R92, R93): a line is a mnemonic and its operands as numbers;
a pseudo-command expands to real commands and has no encoding of its own. The lexical forms of R92 (decimal, hexadecimal,
binary, quoted characters, comments) are ways to write these numbers. -/

namespace Sys2Proof.Machine

/-- One line of a listing: the mnemonic and the operands in the order of the "operands" column of R84. -/
structure Line where
  mnemonic : String
  operands : List Nat
deriving DecidableEq, Repr

/-- The operands of a command, in the order of the "operands" column of R84. -/
def operandsOf : Instr → List Nat
  | .nop => []
  | .srst => []
  | .rdstat => []
  | .rdcnt sel => [sel.toNat]
  | .fclr => []
  | .fset sym count => [sym.toNat, count.toNat]
  | .frd sym => [sym.toNat]
  | .build => []
  | .nrd sel idx => [sel.toNat, idx.toNat]
  | .gen => []
  | .tclr => []
  | .tdel sym => [sym.toNat]
  | .tapp sym n v => [sym.toNat, n.toNat, v.toNat]
  | .tchk => []
  | .tlen sym => [sym.toNat]
  | .tbits sym k => [sym.toNat, k.toNat]
  | .pstart => []
  | .psym sym => [sym.toNat]
  | .pfin => []
  | .ustart limEn explen => [limEn.toNat, explen.toNat]
  | .ubyte byte => [byte.toNat]
  | .ufin => []

/-- How a command is written in a listing (R92). -/
def lineOf (i : Instr) : Line := { mnemonic := i.mnemonic, operands := operandsOf i }

/-- A pseudo-command (R93). A text is the list of the codes of its characters. -/
inductive Pseudo where
  /-- FLOAD "text": the Frequency Analyzer done by the assembler -/
  | fload (text : List Sym)
  /-- TSET sym, "bits" -/
  | tset (sym : Sym) (bits : Bits)
  /-- PSTR "text" -/
  | pstr (text : List Sym)
  /-- UHEX b0 b1 ... -/
  | uhex (bytes : List Byte)
  /-- USTART.L n: limited mode -/
  | ustartL (n : Count)
  /-- USTART.G: greedy mode -/
  | ustartG
deriving DecidableEq, Repr

/-- The bitstring of a TSET must have 1 to 255 bits (R93); the count of every symbol of an FLOAD must fit a frequency, however
long the text is (40_frequency_table.md R100, 93_implementation_defined.md U6). -/
def Pseudo.wf : Pseudo → Bool
  | .fload text => symbols.all fun sym => decide (text.count sym < 2 ^ 32)
  | .tset _ bits => decide (1 ≤ bits.length) && decide (bits.length ≤ Config.maxlen)
  | .pstr _ => true
  | .uhex _ => true
  | .ustartL _ => true
  | .ustartG => true

/-- A bitstring cut from the left into pieces of 32 bits, the last of 1 to 32 (R93); the fuel is its length. -/
def piecesOf : Nat → Bits → List Bits
  | 0, _ => []
  | fuel + 1, bits =>
    if bits = [] then [] else bits.take 32 :: piecesOf fuel (bits.drop 32)

/-- The TAPP that appends a piece: its length and its image (R93). -/
def appendPiece (sym : Sym) (piece : Bits) : Instr :=
  .tapp sym (BitVec.ofNat 8 piece.length) (BitVec.ofNat 32 (img piece))

/-- The expansion of a pseudo-command (R93). -/
def Pseudo.expand : Pseudo → List Instr
  | .fload text =>
    .fclr :: symbols.filterMap fun sym =>
      if text.count sym = 0 then none else some (.fset sym (BitVec.ofNat 32 (text.count sym)))
  | .tset sym bits => .tdel sym :: (piecesOf bits.length bits).map (appendPiece sym)
  | .pstr text => text.map .psym
  | .uhex bytes => bytes.map .ubyte
  | .ustartL n => [.ustart true n]
  | .ustartG => [.ustart false 0#32]

end Sys2Proof.Machine
end

