-- ==== Sys2Proof/Machine/Reference.lean ====
section
/-! DEFINITION. The reference functions of spec/00_scope.md R12 and the document's batch decoder (44_bit_unpacker.md, head of
the file, and R167). They define no hardware: statements compare the block's runs with them. -/

namespace Sys2Proof.Machine

/-- `Freq(seq)(s)`: the number of positions of `seq` that hold `s` (00_scope.md R12). -/
def freqOf (seq : List Sym) (sym : Sym) : Nat := seq.count sym

/-- `Bits(seq, T)`: the codes of the symbols, one after another (00_scope.md R12). -/
def bitsOfSeq (code : Sym → Bits) (seq : List Sym) : Bits := (seq.map code).flatten

/-- `Pad(c)`: filled with zero bits to a multiple of 8 (00_scope.md R12). -/
def padBits (c : Bits) : Bits := c ++ List.replicate ((8 - c.length % 8) % 8) false

/-- `Bytes(c)`: groups of 8 bits from the left, each giving the byte that is its image (00_scope.md R12). Bits that do not
fill a group are left out. -/
def bytesOfBits : Bits → List Byte
  | b7 :: b6 :: b5 :: b4 :: b3 :: b2 :: b1 :: b0 :: rest =>
    BitVec.ofNat 8 (img [b7, b6, b5, b4, b3, b2, b1, b0]) :: bytesOfBits rest
  | _ => []

/-- `Pack(seq, T)` (00_scope.md R12). -/
def packSeq (code : Sym → Bits) (seq : List Sym) : List Byte := bytesOfBits (padBits (bitsOfSeq code seq))

/-- The document's matching loop on its buffer: the symbols it emits and what stays in the buffer. The fuel is the length of
the buffer, since a match removes at least one bit. -/
def matchLoop (code : Sym → Bits) : Nat → Bits → List Sym × Bits
  | 0, pend => ([], pend)
  | fuel + 1, pend =>
    match matchIn code pend with
    | none => ([], pend)
    | some sym =>
      let rest := matchLoop code fuel (pend.drop (code sym).length)
      (sym :: rest.1, rest.2)

/-- The document's decoder on a byte sequence, from a buffer: for each byte append its bits, then match until none does. Its
buffer is unbounded and it has no count to stop at. -/
def unpackFrom (code : Sym → Bits) : Bits → List Byte → List Sym
  | _, [] => []
  | pend, byte :: rest =>
    let buffer := pend ++ byteBits byte
    let matched := matchLoop code buffer.length buffer
    matched.1 ++ unpackFrom code matched.2 rest

/-- The symbols the document's decoder emits for a payload (44_bit_unpacker.md R167). -/
def unpackBytes (code : Sym → Bits) (bytes : List Byte) : List Sym := unpackFrom code [] bytes

/-- A run: the commands one after another, each on the state the one before left (00_scope.md R8, 20_memory.md R68). -/
def execAll : List Instr → State → Host.Outcome State Fault Refusal
  | [], s => .next s
  | i :: rest, s =>
    match exec i s with
    | .next t => execAll rest t
    | .fault r => .fault r
    | .refused r => .refused r

/-- The packing run of a sequence (43_bit_packer.md R156). -/
def packRun (seq : List Sym) : List Instr := .pstart :: seq.map .psym ++ [.pfin]

/-- The unpacking run of a payload (44_bit_unpacker.md R167). -/
def unpackRun (limEn : Bool) (explen : Count) (bytes : List Byte) : List Instr :=
  .ustart limEn explen :: bytes.map .ubyte ++ [.ufin]

end Sys2Proof.Machine
end

