-- ==== Sys2Proof/Safety.lean ====
section
/-! DEFINITION. What counts as a sound state of the block and a run that ended well: the invariants of spec/10_state.md R41
to R43 and the definition of 00_scope.md R8, in the terms the statements use. -/

namespace Sys2Proof.Machine

/-- No present code is a prefix of another symbol's present code (42_code_table.md R139, 10_state.md R43). -/
def PrefixFree (code : Sym → Bits) : Prop :=
  ∀ s t : Sym, s ≠ t → code s ≠ [] → code t ≠ [] → ¬ code s <+: code t

/-- `n` is the greatest length of a present code (10_state.md R29). -/
def IsGreatestLength (code : Sym → Bits) (n : Nat) : Prop :=
  (∃ s, code s ≠ [] ∧ (code s).length = n) ∧ ∀ s, (code s).length ≤ n

/-- `NODE[i]` is an internal node with `j` as its left or right child. -/
def IsParent (nodes : List Node) (i j : Nat) : Prop :=
  ∃ nd : Node, nodes[i]? = some nd ∧ nd.kind = .internal ∧ (nd.left.toNat = j ∨ nd.right.toNat = j)

/-- The finished tree in the arena (10_state.md R41 (e) and R42; 41_tree_builder.md R112, R115). -/
structure TreeShape (nodes : List Node) (root nleaf : Nat) : Prop where
  leafCount : 1 ≤ nleaf ∧ nleaf ≤ Config.nsym
  size : nodes.length = 2 * nleaf - 1
  rootLast : root + 1 = nodes.length
  /-- the leaves are exactly the indices 0 to NLEAF - 1 -/
  leavesFirst : ∀ (i : Nat) (nd : Node), nodes[i]? = some nd → (nd.kind = .leaf ↔ i < nleaf)
  /-- in ascending order of `sym`, so with pairwise different `sym` -/
  leavesAscend : ∀ (i j : Nat) (x y : Node), i < j → j < nleaf → nodes[i]? = some x → nodes[j]? = some y → x.sym.toNat < y.sym.toNat
  /-- every leaf has `wt ≥ 1`, and no child (10_state.md R25) -/
  leafFields : ∀ (i : Nat) (nd : Node), nodes[i]? = some nd → nd.kind = .leaf → 1 ≤ nd.wt.toNat ∧ nd.left = 0#9 ∧ nd.right = 0#9
  /-- every internal node has two different children, both made before it -/
  children : ∀ (i : Nat) (nd : Node), nodes[i]? = some nd → nd.kind = .internal →
    nd.left.toNat < i ∧ nd.right.toNat < i ∧ nd.left ≠ nd.right ∧ nd.sym = 0#8
  /-- its weight is the sum of theirs, without a carry lost (41_tree_builder.md R116) -/
  weights : ∀ (i : Nat) (nd : Node), nodes[i]? = some nd → nd.kind = .internal →
    nd.wt.toNat = (weightAt nodes nd.left.toNat).toNat + (weightAt nodes nd.right.toNat).toNat
  /-- every index other than ROOT is a child of exactly one internal node -/
  oneParent : ∀ j, j < nodes.length → j ≠ root → ∃ i, IsParent nodes i j ∧ ∀ i', IsParent nodes i' j → i' = i
  /-- ROOT is the child of none -/
  rootFree : ∀ i, ¬ IsParent nodes i root

/-- The invariants of 10_state.md R41 (a) to (h) with R42, R43 and the bounds R27, R32 and 44_bit_unpacker.md R166 put on
the bitstrings. (a), MODE ∈ {0, 1, 2}, holds by the type of MODE. -/
structure Invariant (b : Block) : Prop where
  /-- FREQ and CODE are in canonical form and within their 256 indices (20_memory.md R60; log entry 8) -/
  tables : Memory.wf b = true
  /-- no code is longer than MAXLEN (R27) -/
  codesFit : ∀ sym, (codeAt b sym).length ≤ Config.maxlen
  /-- (b) -/
  pendFits : b.pend.length ≤ Config.pendmax
  /-- (b) -/
  pendOutside : b.mode ≠ .unpack → b.pend = []
  /-- 44_bit_unpacker.md R166: between commands of a run that has not faulted fewer than LMAX bits are pending -/
  pendShort : b.mode = .unpack → b.err = .none → b.pend.length < b.lmax.toNat
  /-- between commands no code is a prefix of PEND: UBYTE goes on until none is (44_bit_unpacker.md R162, R163) -/
  pendUnmatched : b.mode = .unpack → ∀ sym, codeAt b sym ≠ [] → ¬ codeAt b sym <+: b.pend
  /-- (c) -/
  accOutside : b.mode ≠ .pack → b.nacc = 0#3 ∧ b.acc = 0#8
  /-- (c) -/
  accFits : b.acc.toNat < 2 ^ b.nacc.toNat
  /-- (d) -/
  tableUsable : b.tabOk = true →
    (∃ sym, codeAt b sym ≠ []) ∧ PrefixFree (codeAt b) ∧ IsGreatestLength (codeAt b) b.lmax.toNat
  /-- (d) -/
  tableUnmarked : b.tabOk = false → b.lmax = 0#8
  /-- (e) -/
  treeStands : b.treeValid = true →
    TreeShape b.node b.root.toNat b.nleaf.toNat ∧ weightAt b.node b.root.toNat = b.rootwt
  /-- (e) -/
  treeGone : b.treeValid = false → b.node = [] ∧ b.root = 0#9
  /-- (f) -/
  runHasTable : b.mode ≠ .idle → b.tabOk = true
  /-- (g) -/
  noFault : b.err = .none → b.errinfo = 0#32 ∧ b.erridx = 0#32
  /-- (h) -/
  limitKept : b.mode = .unpack → b.limitEn = true → b.symcnt.toNat ≤ b.explen.toNat

/-- When node `k` is made, `j` is a member of ACTIVE: created before, and no child of a node created before
(10_state.md R26). -/
def Unmerged (nodes : List Node) (k j : Nat) : Prop := j < k ∧ ∀ i, i < k → ¬ IsParent nodes i j

/-- The order of the priority structure (41_tree_builder.md R113): least weight first, among equal weights least index. -/
def LighterThan (nodes : List Node) (i j : Nat) : Prop :=
  (weightAt nodes i).toNat < (weightAt nodes j).toNat ∨
    ((weightAt nodes i).toNat = (weightAt nodes j).toNat ∧ i < j)

/-- Node `k` is the merge of R114: of the members of ACTIVE when it is made, its left child comes first and its right child
second; it has no symbol and weighs what they weigh. -/
def MergesFirstTwo (nodes : List Node) (k : Nat) : Prop :=
  ∃ nd : Node, nodes[k]? = some nd ∧ nd.kind = .internal ∧ nd.sym = 0#8 ∧
    nd.wt.toNat = (weightAt nodes nd.left.toNat).toNat + (weightAt nodes nd.right.toNat).toNat ∧
    Unmerged nodes k nd.left.toNat ∧ Unmerged nodes k nd.right.toNat ∧ nd.left ≠ nd.right ∧
    (∀ j, Unmerged nodes k j → j ≠ nd.left.toNat → LighterThan nodes nd.left.toNat j) ∧
    (∀ j, Unmerged nodes k j → j ≠ nd.left.toNat → j ≠ nd.right.toNat → LighterThan nodes nd.right.toNat j)

/-- The node reached from node `i` along the edges `p`: 0 the left child, 1 the right child (42_code_table.md R132). -/
def descend (nodes : List Node) : Nat → Bits → Option Nat
  | i, [] => some i
  | i, bit :: p =>
    match nodes[i]? with
    | none => none
    | some nd =>
      match nd.kind with
      | .leaf => none
      | .internal => descend nodes (if bit then nd.right.toNat else nd.left.toNat) p

/-- The leaf of `sym` is reached from `root` along the edges `p`. -/
def LeadsTo (nodes : List Node) (root : Nat) (p : Bits) (sym : Sym) : Prop :=
  ∃ (j : Nat) (nd : Node), descend nodes root p = some j ∧ nodes[j]? = some nd ∧ nd.kind = .leaf ∧ nd.sym = sym

/-- The state after a command word `w` that faults with `e` and does nothing else: fault entry (60_exceptions.md R205) and
then the count (R204, step 6), field by field. -/
def faultState (e : Err) (w : CmdWord) (s : State) : State :=
  { s with
    block.err := e
    block.errinfo := upperHalf w
    block.erridx := s.block.cmdcnt
    block.cmdcnt := satInc s.block.cmdcnt }

/-- A run has ended well when ERR = 0 and MODE = IDLE at its end (00_scope.md R8). -/
def EndedWell (s : State) : Prop := s.block.err = .none ∧ s.block.mode = .idle

/-- The level of the output `fault` (60_exceptions.md R210). -/
def faultOutput (s : State) : Bool := faulted s.block

end Sys2Proof.Machine
end

