-- ==== Sys2Proof/Certificates/Slice0/Obligations.lean ====
section
/-! DEFINITION. The statements for the provers. A statement about what a command does gives the next state as a record update of
the state before it: every field the update does not name is unchanged, which is the command's frame (all of FREQ, NODE and
CODE, every register, and the host's side included). -/

open Sys2Proof Sys2Proof.Machine

/-! ## Encoding -/

/-- 30_encoding.md R83 to R85: no operand bit of any command is dropped by its encoding. -/
def Obligations.EncodedCommandDecodesToItself : Prop :=
  ∀ i : Instr, i.wf = true → decode (encode i) = .ok i

/-- 30_encoding.md R85 to R88: a word that decodes has legal operands and is the word of its command, so no must-be-zero bit of
it is set and no two words mean the same command. -/
def Obligations.DecodedWordIsTheWordOfItsCommand : Prop :=
  ∀ (w : CmdWord) (i : Instr), decode w = .ok i → i.wf = true ∧ encode i = w

/-- 30_encoding.md R84, R85: the words the decoder accepts are those that match a row of the opcode map (match, mask and extra
constraint), as the command of that row, and no word matches two rows. -/
def Obligations.DecoderAgreesWithTheOpcodeMap : Prop :=
  (∀ (w : CmdWord) (i : Instr), decode w = .ok i →
    ∃ row ∈ opcodeTable, rowMatches w row = true ∧ row.mnemonic = i.mnemonic) ∧
  (∀ (w : CmdWord) (row : OpcodeRow), row ∈ opcodeTable → rowMatches w row = true →
    ∃ i, decode w = .ok i ∧ i.mnemonic = row.mnemonic) ∧
  (∀ (w : CmdWord) (r r' : OpcodeRow), r ∈ opcodeTable → r' ∈ opcodeTable →
    rowMatches w r = true → rowMatches w r' = true → r = r')

/-- 30_encoding.md R86: a word with a reserved OP is illegal whatever its other bits. -/
def Obligations.ReservedOpcodeIsIllegal : Prop :=
  ∀ w : CmdWord, (∀ row ∈ opcodeTable, fieldOp w ≠ fieldOp row.fixed) → decode w = .error .reservedOpcode

/-- 30_encoding.md R92: the words the rule writes out decode to the commands it names, and so does one word of each other
family, written out from R81 and R84. -/
def Obligations.SpelledOutWordsDecode : Prop :=
  decode 0x1141000000000003#64 = .ok (.fset 0x41#8 3#32) ∧
  decode 0x4141000000000000#64 = .ok (.psym 0x41#8) ∧
  decode 0x3243020000000002#64 = .ok (.tapp 0x43#8 2#8 2#32) ∧
  decode 0x5000010000000008#64 = .ok (.ustart true 8#32) ∧
  decode 0x2100030000000004#64 = .ok (.nrd 3#2 4#9) ∧
  decode 0x0300020000000000#64 = .ok (.rdcnt 2#4) ∧
  decode 0x51FC000000000000#64 = .ok (.ubyte 0xFC#8) ∧
  decode 0x2000000000000000#64 = .ok .build

/-! ## The step -/

/-- 00_scope.md R6, 60_exceptions.md R204: when the next thing the host does is to present a word that decodes to `i`, the step
is `exec i` with that word taken from the input and nothing else changed. -/
def Obligations.StepRunsThePresentedCommand : Prop :=
  ∀ (s : State) (w : CmdWord) (rest : List HostEvent) (i : Instr),
    s.host.input = .command w :: rest → decode w = .ok i → step s = exec i { s with host.input := rest }

/-- 60_exceptions.md R203: an illegal word in a block without a fault raises IllCmdError, records the word and its position,
and changes no other state. -/
def Obligations.IllegalWordFaults : Prop :=
  ∀ (s : State) (w : CmdWord) (rest : List HostEvent) (e : Illegal),
    s.host.input = .command w :: rest → decode w = .error e → s.block.err = .none →
    step s = .next (faultState .illCmdError w { s with host.input := rest })

/-- 60_exceptions.md R217, 00_scope.md R8: with nothing presented the block waits and keeps all state. -/
def Obligations.WaitsWhenNothingIsPresented : Prop :=
  ∀ s : State, s.host.input = [] → step s = .next s

/-- 70_reset_and_hazards.md R240, R242, 60_exceptions.md R211: the reset input puts the reset state whatever the block was in,
while a command runs as well; what the host had accepted before stays, and of the words the cut command would have emitted it
keeps the first `taken`, those it had accepted (how many they are is the host's choice, log entry 4). -/
def Obligations.ResetInputPutsTheResetState : Prop :=
  (∀ (s : State) (rest : List HostEvent), s.host.input = .reset :: rest →
    step s = .next { block := Block.reset, host := { s.host with input := rest } }) ∧
  (∀ (s : State) (w : CmdWord) (taken : Nat) (rest : List HostEvent),
    s.host.input = .resetDuring w taken :: rest →
    ∃ t u, step s = .next t ∧ step { s with host.input := .command w :: rest } = .next u ∧
      t.block = Block.reset ∧ t.host.input = rest ∧
      (∃ new, u.host.rsp = s.host.rsp ++ new ∧ t.host.rsp = s.host.rsp ++ new.take taken) ∧
      (∃ new, u.host.outb = s.host.outb ++ new ∧ t.host.outb = s.host.outb ++ new.take taken) ∧
      (∃ new, u.host.outs = s.host.outs ++ new ∧ t.host.outs = s.host.outs ++ new.take taken))

/-- 70_reset_and_hazards.md R240: the reset state, row by row of its table. -/
def Obligations.ResetStateIsAllClear : Prop :=
  let b := State.reset.block
  (∀ x, freqAt b x = 0#32) ∧ b.node = [] ∧ b.nnodes = 0 ∧ b.root = 0#9 ∧ b.treeValid = false ∧ b.nleaf = 0#9 ∧
  b.rootwt = 0#40 ∧ (∀ x, codeAt b x = []) ∧ b.tabOk = false ∧ b.lmax = 0#8 ∧ b.mode = .idle ∧ b.acc = 0#8 ∧
  b.nacc = 0#3 ∧ b.padcnt = 0#3 ∧ b.pend = [] ∧ b.explen = 0#32 ∧ b.limitEn = false ∧ b.symcnt = 0#32 ∧
  b.bytecnt = 0#32 ∧ b.cmdcnt = 0#32 ∧ b.err = .none ∧ b.errinfo = 0#32 ∧ b.erridx = 0#32 ∧
  faultOutput State.reset = false ∧ statusWord b = 0#32

/-- 70_reset_and_hazards.md R259: every step, and every command in every state, ends in a next state. -/
def Obligations.EveryStepEnds : Prop :=
  (∀ (i : Instr) (s : State), ∃ t, exec i s = .next t) ∧ ∀ s : State, ∃ t, step s = .next t

/-! ## Control and status -/

/-- 10_state.md R33, R35: a counter adds 1 and saturates at 2^32 - 1. -/
def Obligations.CountersSaturate : Prop :=
  ∀ v : Count, (satInc v).toNat = min (v.toNat + 1) (2 ^ 32 - 1)

/-- 45_control_status.md R180: NOP changes nothing but CMDCNT, in every MODE and in the faulted condition. -/
def Obligations.NopOnlyCounts : Prop :=
  ∀ s : State, exec .nop s = .next { s with block.cmdcnt := satInc s.block.cmdcnt }

/-- 45_control_status.md R181: SRST puts every piece of state at its reset value in every MODE and in the faulted condition,
is not counted, and takes back nothing the host has accepted. -/
def Obligations.SrstResetsEverything : Prop :=
  ∀ s : State, exec .srst s = .next { s with block := Block.reset }

/-- 45_control_status.md R182 with 10_state.md R23: RDSTAT responds with the STATUS word, field by field, and changes nothing
but CMDCNT and RSP. The numbers of ERR are those of 60_exceptions.md R200, the numbers of MODE those of R30. -/
def Obligations.RdstatRespondsStatus : Prop :=
  ∀ s : State, ∃ w : Resp,
    exec .rdstat s = .next { s with block.cmdcnt := satInc s.block.cmdcnt, host.rsp := s.host.rsp ++ [w] } ∧
    (s.block.err = .none → w.extractLsb' 0 4 = 0#4) ∧
    (s.block.err = .treeError → w.extractLsb' 0 4 = 1#4) ∧
    (s.block.err = .noCodeError → w.extractLsb' 0 4 = 2#4) ∧
    (s.block.err = .tableError → w.extractLsb' 0 4 = 3#4) ∧
    (s.block.err = .streamError → w.extractLsb' 0 4 = 4#4) ∧
    (s.block.err = .shortError → w.extractLsb' 0 4 = 5#4) ∧
    (s.block.err = .seqError → w.extractLsb' 0 4 = 6#4) ∧
    (s.block.err = .illCmdError → w.extractLsb' 0 4 = 7#4) ∧
    (s.block.mode = .idle → w.extractLsb' 4 2 = 0#2) ∧
    (s.block.mode = .pack → w.extractLsb' 4 2 = 1#2) ∧
    (s.block.mode = .unpack → w.extractLsb' 4 2 = 2#2) ∧
    w.getLsbD 6 = s.block.treeValid ∧
    w.getLsbD 7 = s.block.tabOk ∧
    w.getLsbD 8 = s.block.limitEn ∧
    (w.getLsbD 9 = true ↔ s.block.mode = .unpack ∧ s.block.limitEn = true ∧ s.block.symcnt = s.block.explen) ∧
    w.extractLsb' 10 3 = s.block.nacc ∧
    w.extractLsb' 13 3 = 0#3 ∧
    (s.block.pend.length ≤ Config.pendmax → (w.extractLsb' 16 9).toNat = s.block.pend.length) ∧
    w.extractLsb' 25 7 = 0#7

/-- 45_control_status.md R183 with 10_state.md R36: RDCNT responds with the word its selector names and changes nothing but
CMDCNT and RSP. -/
def Obligations.RdcntRespondsTheCounter : Prop :=
  ∀ (s : State) (sel : BitVec 4), sel.toNat ≤ 13 → ∃ w : Resp,
    exec (.rdcnt sel) s = .next { s with block.cmdcnt := satInc s.block.cmdcnt, host.rsp := s.host.rsp ++ [w] } ∧
    (sel = 0#4 → w = s.block.symcnt) ∧
    (sel = 1#4 → w = s.block.bytecnt) ∧
    (sel = 2#4 → w.toNat = s.block.padcnt.toNat) ∧
    (sel = 3#4 → w = s.block.explen) ∧
    (sel = 4#4 → w.toNat = s.block.nleaf.toNat) ∧
    (sel = 5#4 → s.block.node.length ≤ Config.nnode → w.toNat = s.block.node.length) ∧
    (sel = 6#4 → w.toNat = s.block.root.toNat) ∧
    (sel = 7#4 → w.toNat = s.block.rootwt.toNat % 2 ^ 32) ∧
    (sel = 8#4 → w.toNat = s.block.rootwt.toNat / 2 ^ 32) ∧
    (sel = 9#4 → w.toNat = s.block.lmax.toNat) ∧
    (sel = 10#4 → w.toNat = symbols.countP fun x => !(codeAt s.block x).isEmpty) ∧
    (sel = 11#4 → w = s.block.cmdcnt) ∧
    (sel = 12#4 → w = s.block.errinfo) ∧
    (sel = 13#4 → w = s.block.erridx)

/-! ## Frequency table -/

/-- 40_frequency_table.md R101: FCLR makes every entry 0; the tree and the table stay. -/
def Obligations.FclrClearsEveryFrequency : Prop :=
  ∀ s : State, s.block.err = .none → ∃ t,
    exec .fclr s = .next t ∧
    t = { s with block.freq := t.block.freq, block.cmdcnt := satInc s.block.cmdcnt } ∧
    ∀ x, freqAt t.block x = 0#32

/-- 40_frequency_table.md R102: FSET writes one entry, replacing it, and leaves every other entry alone. -/
def Obligations.FsetWritesOneFrequency : Prop :=
  ∀ (s : State) (sym : Sym) (count : Freq), s.block.err = .none → ∃ t,
    exec (.fset sym count) s = .next t ∧
    t = { s with block.freq := t.block.freq, block.cmdcnt := satInc s.block.cmdcnt } ∧
    freqAt t.block sym = count ∧ ∀ x, x ≠ sym → freqAt t.block x = freqAt s.block x

/-- 40_frequency_table.md R103: FRD responds with one entry and changes nothing but CMDCNT and RSP, in the faulted condition
too. -/
def Obligations.FrdRespondsTheFrequency : Prop :=
  ∀ (s : State) (sym : Sym),
    exec (.frd sym) s =
      .next { s with block.cmdcnt := satInc s.block.cmdcnt, host.rsp := s.host.rsp ++ [freqAt s.block sym] }

/-! ## Tree builder -/

/-- 41_tree_builder.md R117, 60_exceptions.md R201: BUILD on an all-zero FREQ raises TreeError and changes nothing else. -/
def Obligations.BuildOnEmptyFrequenciesFaults : Prop :=
  ∀ s : State, s.block.err = .none → (∀ x, freqAt s.block x = 0#32) →
    exec .build s = .next (faultState .treeError 0x2000000000000000#64 s)

/-- 41_tree_builder.md R111, R112, R115, R119 (d) with 10_state.md R42: BUILD on a FREQ with a non-zero entry changes the tree
registers only and leaves a finished tree: its leaves are the symbols with a non-zero frequency in ascending order, each with
its frequency, and its root weighs what all of FREQ weighs. -/
def Obligations.BuildLeavesAFinishedTree : Prop :=
  ∀ s : State, s.block.err = .none → (∃ x, freqAt s.block x ≠ 0#32) → ∃ t,
    exec .build s = .next t ∧
    t = { s with
          block.node := t.block.node
          block.root := t.block.root
          block.treeValid := true
          block.nleaf := t.block.nleaf
          block.rootwt := t.block.rootwt
          block.cmdcnt := satInc s.block.cmdcnt } ∧
    TreeShape t.block.node t.block.root.toNat t.block.nleaf.toNat ∧
    t.block.node.take t.block.nleaf.toNat =
      (symbols.filter fun x => freqAt s.block x != 0#32).map (fun x =>
        { kind := .leaf, sym := x, wt := (freqAt s.block x).setWidth 40, left := 0#9, right := 0#9 }) ∧
    t.block.nleaf.toNat = symbols.countP (fun x => freqAt s.block x != 0#32) ∧
    t.block.rootwt = weightAt t.block.node t.block.root.toNat ∧
    t.block.rootwt.toNat = (symbols.map fun x => (freqAt s.block x).toNat).sum

/-- 41_tree_builder.md R113, R114: every internal node BUILD makes merges the two members of the priority structure that come
first, by weight and then by index, the first as its left child. -/
def Obligations.BuildMergesTheTwoLightest : Prop :=
  ∀ s t : State, s.block.err = .none → (∃ x, freqAt s.block x ≠ 0#32) → exec .build s = .next t →
    ∀ k, t.block.nleaf.toNat ≤ k → k < t.block.node.length → MergesFirstTwo t.block.node k

/-- 41_tree_builder.md R120: BUILD is a function of FREQ alone. -/
def Obligations.BuildDependsOnFrequenciesAlone : Prop :=
  ∀ s s' t t' : State, s.block.err = .none → s'.block.err = .none → (∃ x, freqAt s.block x ≠ 0#32) →
    (∀ x, freqAt s.block x = freqAt s'.block x) → exec .build s = .next t → exec .build s' = .next t' →
    t.block.node = t'.block.node ∧ t.block.root = t'.block.root ∧ t.block.nleaf = t'.block.nleaf ∧
    t.block.rootwt = t'.block.rootwt

/-- 41_tree_builder.md R118 with 30_encoding.md R90: NRD responds with the part of the node its selector names, with 0 where
the index names no node, and changes nothing but CMDCNT and RSP, in every MODE and in the faulted condition. -/
def Obligations.NrdRespondsPartOfANode : Prop :=
  ∀ (s : State) (sel : BitVec 2) (idx : NodeIdx), ∃ w : Resp,
    exec (.nrd sel idx) s = .next { s with block.cmdcnt := satInc s.block.cmdcnt, host.rsp := s.host.rsp ++ [w] } ∧
    (s.block.node.length ≤ idx.toNat → w = 0#32) ∧
    ∀ nd : Node, s.block.node[idx.toNat]? = some nd →
      (sel = 0#2 → w.toNat = 2 ^ 31 + (if nd.kind = .internal then 2 ^ 30 else 0) + nd.sym.toNat) ∧
      (sel = 1#2 → w.toNat = nd.wt.toNat % 2 ^ 32) ∧
      (sel = 2#2 → w.toNat = nd.wt.toNat / 2 ^ 32) ∧
      (sel = 3#2 → w.toNat = nd.right.toNat * 2 ^ 16 + nd.left.toNat)

/-! ## Code table -/

/-- 42_code_table.md R131 to R134: from a finished tree GEN gives every symbol of a leaf the path from the root to it, root edge
first, 0 for left and 1 for right, the one symbol of a single leaf the code "0", and no other symbol a code; it latches LMAX and
TAB_OK and discards the tree, keeping NLEAF and ROOTWT. Outside IDLE or without a tree it raises SeqError. -/
def Obligations.GenAssignsThePathsOfTheTree : Prop :=
  ∀ s : State, s.block.err = .none →
    (s.block.mode ≠ .idle ∨ s.block.treeValid = false →
      exec .gen s = .next (faultState .seqError 0x2800000000000000#64 s)) ∧
    (Invariant s.block → s.block.mode = .idle → s.block.treeValid = true → ∃ t,
      exec .gen s = .next t ∧
      t = { s with
            block.code := t.block.code
            block.lmax := t.block.lmax
            block.tabOk := true
            block.node := []
            block.root := 0#9
            block.treeValid := false
            block.cmdcnt := satInc s.block.cmdcnt } ∧
      (s.block.nleaf.toNat ≠ 1 → ∀ x c,
        (codeAt t.block x = c ∧ c ≠ []) ↔ LeadsTo s.block.node s.block.root.toNat c x) ∧
      (∀ nd : Node, s.block.nleaf.toNat = 1 → s.block.node[0]? = some nd →
        ∀ x, codeAt t.block x = if x = nd.sym then [false] else []) ∧
      IsGreatestLength (codeAt t.block) t.block.lmax.toNat)

/-- 42_code_table.md R143 (a) to (e): the table GEN derives from a tree with `n` leaves has exactly `n` codes, is prefix-free,
has no code longer than `n - 1` bits, and for two or more symbols is complete: the 2^(-length) add up to 1. -/
def Obligations.GeneratedTableIsPrefixFreeAndComplete : Prop :=
  ∀ s t : State, Invariant s.block → s.block.err = .none → s.block.mode = .idle → s.block.treeValid = true →
    exec .gen s = .next t →
    (symbols.countP fun x => !(codeAt t.block x).isEmpty) = s.block.nleaf.toNat ∧
    PrefixFree (codeAt t.block) ∧
    (2 ≤ s.block.nleaf.toNat → ∀ x, (codeAt t.block x).length ≤ s.block.nleaf.toNat - 1) ∧
    (2 ≤ s.block.nleaf.toNat →
      (symbols.map fun x =>
        if codeAt t.block x = [] then 0 else 2 ^ (Config.maxlen - (codeAt t.block x).length)).sum = 2 ^ Config.maxlen)

/-- 10_state.md R43 (42_code_table.md R134, R143 (a), (c)): after BUILD and GEN the table is prefix-free and the symbols with a
code are exactly those whose frequency was not 0 at the BUILD, so it is not empty. -/
def Obligations.BuildThenGenCodesTheSymbolsThatOccur : Prop :=
  ∀ s : State, Invariant s.block → s.block.err = .none → s.block.mode = .idle → (∃ x, freqAt s.block x ≠ 0#32) →
    ∃ t, execAll [.build, .gen] s = .next t ∧ t.block.err = .none ∧ t.block.tabOk = true ∧ PrefixFree (codeAt t.block) ∧
      (∃ x, codeAt t.block x ≠ []) ∧ ∀ x, codeAt t.block x ≠ [] ↔ freqAt s.block x ≠ 0#32

/-- 42_code_table.md R135: TCLR makes every code absent and clears TAB_OK and LMAX; outside IDLE it raises SeqError. -/
def Obligations.TclrEmptiesTheTable : Prop :=
  ∀ s : State, s.block.err = .none →
    (s.block.mode = .idle → ∃ t,
      exec .tclr s = .next t ∧
      t = { s with
            block.code := t.block.code, block.tabOk := false, block.lmax := 0#8,
            block.cmdcnt := satInc s.block.cmdcnt } ∧
      ∀ x, codeAt t.block x = []) ∧
    (s.block.mode ≠ .idle → exec .tclr s = .next (faultState .seqError 0x3000000000000000#64 s))

/-- 42_code_table.md R136: TDEL makes one code absent, leaves the others, and clears TAB_OK and LMAX even if it was absent
already; outside IDLE it raises SeqError. -/
def Obligations.TdelDeletesOneCode : Prop :=
  ∀ (s : State) (sym : Sym), s.block.err = .none →
    (s.block.mode = .idle → ∃ t,
      exec (.tdel sym) s = .next t ∧
      t = { s with
            block.code := t.block.code, block.tabOk := false, block.lmax := 0#8,
            block.cmdcnt := satInc s.block.cmdcnt } ∧
      codeAt t.block sym = [] ∧ ∀ x, x ≠ sym → codeAt t.block x = codeAt s.block x) ∧
    (s.block.mode ≠ .idle → exec (.tdel sym) s = .next (faultState .seqError (encode (.tdel sym)) s))

/-- 42_code_table.md R137: TAPP appends `v[n-1], ..., v[0]` to one code and clears TAB_OK and LMAX; when the code would pass 255
bits it raises TableError and appends nothing; outside IDLE it raises SeqError. -/
def Obligations.TappAppendsBitsOrFaults : Prop :=
  ∀ (s : State) (sym : Sym) (n : BitVec 8) (v : BitVec 32),
    1 ≤ n.toNat → n.toNat ≤ 32 → v.toNat < 2 ^ n.toNat → s.block.err = .none →
    (s.block.mode = .idle → (codeAt s.block sym).length + n.toNat ≤ 255 → ∃ t added,
      exec (.tapp sym n v) s = .next t ∧
      t = { s with
            block.code := t.block.code, block.tabOk := false, block.lmax := 0#8,
            block.cmdcnt := satInc s.block.cmdcnt } ∧
      codeAt t.block sym = codeAt s.block sym ++ added ∧
      added.length = n.toNat ∧ (∀ k, k < n.toNat → added[k]? = some (v.getLsbD (n.toNat - 1 - k))) ∧
      ∀ x, x ≠ sym → codeAt t.block x = codeAt s.block x) ∧
    (s.block.mode = .idle → 255 < (codeAt s.block sym).length + n.toNat →
      exec (.tapp sym n v) s = .next (faultState .tableError (encode (.tapp sym n v)) s)) ∧
    (s.block.mode ≠ .idle →
      exec (.tapp sym n v) s = .next (faultState .seqError (encode (.tapp sym n v)) s))

/-- 42_code_table.md R138, R139: TCHK marks a table that has a code and is prefix-free, latching LMAX; on any other table it
raises TableError and changes nothing else; outside IDLE it raises SeqError. -/
def Obligations.TchkMarksPrefixFreeTables : Prop :=
  ∀ s : State, s.block.err = .none → (∀ x, (codeAt s.block x).length ≤ Config.maxlen) →
    (s.block.mode = .idle → (∃ x, codeAt s.block x ≠ []) → PrefixFree (codeAt s.block) → ∃ t,
      exec .tchk s = .next t ∧
      t = { s with block.lmax := t.block.lmax, block.tabOk := true, block.cmdcnt := satInc s.block.cmdcnt } ∧
      IsGreatestLength (codeAt s.block) t.block.lmax.toNat) ∧
    (s.block.mode = .idle → (∀ x, codeAt s.block x = []) ∨ ¬ PrefixFree (codeAt s.block) →
      exec .tchk s = .next (faultState .tableError 0x3300000000000000#64 s)) ∧
    (s.block.mode ≠ .idle → exec .tchk s = .next (faultState .seqError 0x3300000000000000#64 s))

/-- 42_code_table.md R138 (corner cases), R143 (c): TCHK on a table GEN just produced succeeds and changes nothing but
CMDCNT. -/
def Obligations.TchkAfterGenChangesNothing : Prop :=
  ∀ s t : State, Invariant s.block → s.block.err = .none → s.block.mode = .idle → s.block.treeValid = true →
    exec .gen s = .next t → exec .tchk t = .next { t with block.cmdcnt := satInc t.block.cmdcnt }

/-- 00_scope.md R10, 20_memory.md R65: the image of a bitstring has its first bit as the most significant bit of a number of
as many bits. -/
def Obligations.ImageHasTheFirstBitOnTop : Prop :=
  ∀ c : Bits, img c < 2 ^ c.length ∧ ∀ i, i < c.length → (img c).testBit (c.length - 1 - i) = c.getD i false

/-- 42_code_table.md R140: TLEN responds with the presence at bit 31 and the length at bits 7:0, and changes nothing but CMDCNT
and RSP, in every MODE and in the faulted condition. -/
def Obligations.TlenRespondsPresenceAndLength : Prop :=
  ∀ (s : State) (sym : Sym), (codeAt s.block sym).length ≤ Config.maxlen → ∃ w : Resp,
    exec (.tlen sym) s = .next { s with block.cmdcnt := satInc s.block.cmdcnt, host.rsp := s.host.rsp ++ [w] } ∧
    w.toNat = (if codeAt s.block sym = [] then 0 else 2 ^ 31) + (codeAt s.block sym).length

/-- 42_code_table.md R141: TBITS responds with bits 32k+31 to 32k of the code's image, 0 for an absent entry, and changes
nothing but CMDCNT and RSP, in every MODE and in the faulted condition. -/
def Obligations.TbitsRespondsAChunkOfTheImage : Prop :=
  ∀ (s : State) (sym : Sym) (k : BitVec 3), (codeAt s.block sym).length ≤ Config.maxlen → ∃ w : Resp,
    exec (.tbits sym k) s = .next { s with block.cmdcnt := satInc s.block.cmdcnt, host.rsp := s.host.rsp ++ [w] } ∧
    w.toNat = img (codeAt s.block sym) / 2 ^ (32 * k.toNat) % 2 ^ 32

/-! ## Bit packer -/

/-- 43_bit_packer.md R150: PSTART with a usable table clears the packer's registers and the counters and enters PACK; outside
IDLE or without a usable table it raises SeqError. -/
def Obligations.PstartBeginsPacking : Prop :=
  ∀ s : State, s.block.err = .none →
    (s.block.mode = .idle → s.block.tabOk = true →
      exec .pstart s = .next { s with
        block.acc := 0#8, block.nacc := 0#3, block.padcnt := 0#3, block.symcnt := 0#32, block.bytecnt := 0#32,
        block.mode := .pack, block.cmdcnt := satInc s.block.cmdcnt }) ∧
    (s.block.mode ≠ .idle ∨ s.block.tabOk = false →
      exec .pstart s = .next (faultState .seqError 0x4000000000000000#64 s))

/-- 43_bit_packer.md R151: PSYM appends the code's bits to the waiting ones; every full group of eight goes out as a byte, first
bit on top, the rest waits in ACC; the symbol and the bytes are counted. A symbol without a code raises NoCodeError and appends
nothing; outside PACK PSYM raises SeqError. -/
def Obligations.PsymPacksTheCode : Prop :=
  ∀ (s : State) (sym : Sym) (waiting : Bits), s.block.err = .none →
    waiting.length = s.block.nacc.toNat → img waiting = s.block.acc.toNat →
    (s.block.mode ≠ .pack → exec (.psym sym) s = .next (faultState .seqError (encode (.psym sym)) s)) ∧
    (s.block.mode = .pack → codeAt s.block sym = [] →
      exec (.psym sym) s = .next (faultState .noCodeError (encode (.psym sym)) s)) ∧
    (s.block.mode = .pack → codeAt s.block sym ≠ [] → ∃ t,
      exec (.psym sym) s = .next t ∧
      t = { s with
            block.acc := t.block.acc
            block.nacc := t.block.nacc
            block.symcnt := satInc s.block.symcnt
            block.bytecnt := t.block.bytecnt
            block.cmdcnt := satInc s.block.cmdcnt
            host.outb := s.host.outb ++ bytesOfBits (waiting ++ codeAt s.block sym) } ∧
      t.block.nacc.toNat = (waiting.length + (codeAt s.block sym).length) % 8 ∧
      t.block.acc.toNat =
        img ((waiting ++ codeAt s.block sym).drop
          (8 * ((waiting.length + (codeAt s.block sym).length) / 8))) ∧
      t.block.bytecnt.toNat =
        min (s.block.bytecnt.toNat + (waiting.length + (codeAt s.block sym).length) / 8) (2 ^ 32 - 1))

/-- 43_bit_packer.md R152: PFIN puts 1 to 7 waiting bits into the high bits of a last byte over zeros, counts it and latches the
number of zeros; with none waiting it emits nothing; either way it clears the accumulator and returns to
IDLE; outside PACK it raises SeqError. -/
def Obligations.PfinFlushesTheLastByte : Prop :=
  ∀ s : State, s.block.err = .none →
    (s.block.mode ≠ .pack → exec .pfin s = .next (faultState .seqError 0x4200000000000000#64 s)) ∧
    (s.block.mode = .pack → s.block.nacc = 0#3 →
      exec .pfin s = .next { s with
        block.padcnt := 0#3, block.acc := 0#8, block.nacc := 0#3, block.mode := .idle,
        block.cmdcnt := satInc s.block.cmdcnt }) ∧
    (s.block.mode = .pack → s.block.nacc ≠ 0#3 → s.block.acc.toNat < 2 ^ s.block.nacc.toNat → ∃ last pad,
      exec .pfin s = .next { s with
        block.padcnt := pad, block.acc := 0#8, block.nacc := 0#3, block.mode := .idle,
        block.bytecnt := satInc s.block.bytecnt, block.cmdcnt := satInc s.block.cmdcnt,
        host.outb := s.host.outb ++ [last] } ∧
      pad.toNat = 8 - s.block.nacc.toNat ∧
      last.toNat = s.block.acc.toNat * 2 ^ (8 - s.block.nacc.toNat))

/-- 43_bit_packer.md R155, R156: a packing run emits exactly `Pack(seq, CODE)`, ends well, and leaves the counts the rule
gives: they make up the bits of the codes unless a count saturated, and where FREQ is `Freq(seq)` those bits number the sum of
the frequencies times the code lengths. -/
def Obligations.PackingRunEmitsPack : Prop :=
  ∀ (s : State) (seq : List Sym), s.block.err = .none → s.block.mode = .idle → s.block.tabOk = true →
    (∀ x ∈ seq, codeAt s.block x ≠ []) → ∃ t,
      execAll (packRun seq) s = .next t ∧
      t = { s with
            block.acc := 0#8
            block.nacc := 0#3
            block.padcnt := t.block.padcnt
            block.symcnt := t.block.symcnt
            block.bytecnt := t.block.bytecnt
            block.cmdcnt := t.block.cmdcnt
            host.outb := s.host.outb ++ packSeq (codeAt s.block) seq } ∧
      t.block.symcnt.toNat = min seq.length (2 ^ 32 - 1) ∧
      t.block.bytecnt.toNat = min (((bitsOfSeq (codeAt s.block) seq).length + 7) / 8) (2 ^ 32 - 1) ∧
      t.block.padcnt.toNat = (8 - (bitsOfSeq (codeAt s.block) seq).length % 8) % 8 ∧
      t.block.cmdcnt.toNat = min (s.block.cmdcnt.toNat + seq.length + 2) (2 ^ 32 - 1) ∧
      (t.block.bytecnt.toNat < 2 ^ 32 - 1 →
        8 * t.block.bytecnt.toNat = (bitsOfSeq (codeAt s.block) seq).length + t.block.padcnt.toNat) ∧
      ((∀ x, (freqAt s.block x).toNat = freqOf seq x) →
        (bitsOfSeq (codeAt s.block) seq).length =
          (symbols.map fun x => (freqAt s.block x).toNat * (codeAt s.block x).length).sum)

/-! ## Bit unpacker -/

/-- 44_bit_unpacker.md R161: USTART with a usable table clears PEND and the counters, latches the way to end and enters
UNPACK; PADCNT, ACC and NACC stay. Outside IDLE or without a usable table it raises SeqError. -/
def Obligations.UstartBeginsUnpacking : Prop :=
  ∀ (s : State) (limEn : Bool) (explen : Count), (limEn = false → explen = 0#32) → s.block.err = .none →
    (s.block.mode = .idle → s.block.tabOk = true →
      exec (.ustart limEn explen) s = .next { s with
        block.pend := [], block.limitEn := limEn, block.explen := explen, block.symcnt := 0#32,
        block.bytecnt := 0#32, block.mode := .unpack, block.cmdcnt := satInc s.block.cmdcnt }) ∧
    (s.block.mode ≠ .idle ∨ s.block.tabOk = false →
      exec (.ustart limEn explen) s = .next (faultState .seqError (encode (.ustart limEn explen)) s))

/-- 44_bit_unpacker.md R162: with a prefix-free table the match is the one symbol whose code is present and a prefix. -/
def Obligations.MatchIsTheOnePrefix : Prop :=
  ∀ (b : Block) (pend : Bits), PrefixFree (codeAt b) →
    ∀ x, matchCode b pend = some x ↔ codeAt b x ≠ [] ∧ codeAt b x <+: pend

/-- 44_bit_unpacker.md R163, R165: what UBYTE does, in the document's matching loop on PEND with the byte's bits appended. In
greedy mode it emits every symbol of the loop; in limited mode those that are still expected, dropping what is left when the
last of them came; it raises StreamError, keeping all that, when LMAX or more bits are left. Outside UNPACK it
raises SeqError. -/
def Obligations.UbyteEmitsWhatTheByteCompletes : Prop :=
  ∀ (s : State) (byte : Byte), s.block.err = .none →
    (s.block.mode ≠ .unpack → exec (.ubyte byte) s = .next (faultState .seqError (encode (.ubyte byte)) s)) ∧
    (s.block.mode = .unpack → (s.block.limitEn = true → s.block.symcnt.toNat ≤ s.block.explen.toNat) →
    ∃ t, exec (.ubyte byte) s = .next t ∧
    let buffer := s.block.pend ++ byteBits byte
    let found := matchLoop (codeAt s.block) buffer.length buffer
    let missing := s.block.explen.toNat - s.block.symcnt.toNat
    (s.block.limitEn = true → missing = 0 →
      t = { s with block.bytecnt := satInc s.block.bytecnt, block.cmdcnt := satInc s.block.cmdcnt }) ∧
    (s.block.limitEn = true → 0 < missing → missing ≤ found.1.length →
      t = { s with
            block.bytecnt := satInc s.block.bytecnt, block.cmdcnt := satInc s.block.cmdcnt,
            block.pend := [], block.symcnt := s.block.explen,
            host.outs := s.host.outs ++ found.1.take missing }) ∧
    (s.block.limitEn = false ∨ found.1.length < missing →
      t.block.symcnt.toNat = min (s.block.symcnt.toNat + found.1.length) (2 ^ 32 - 1) ∧
      (found.2.length < s.block.lmax.toNat →
        t = { s with
              block.bytecnt := satInc s.block.bytecnt, block.cmdcnt := satInc s.block.cmdcnt,
              block.pend := found.2, block.symcnt := t.block.symcnt,
              host.outs := s.host.outs ++ found.1 }) ∧
      (s.block.lmax.toNat ≤ found.2.length →
        t = { s with
              block.bytecnt := satInc s.block.bytecnt, block.cmdcnt := satInc s.block.cmdcnt,
              block.pend := found.2, block.symcnt := t.block.symcnt,
              block.err := .streamError, block.errinfo := upperHalf (encode (.ubyte byte)),
              block.erridx := s.block.cmdcnt,
              host.outs := s.host.outs ++ found.1 })))

/-- 44_bit_unpacker.md R164: UFIN drops PEND and returns to IDLE; in limited mode with fewer symbols than expected it raises
ShortError and changes nothing else; outside UNPACK it raises SeqError. -/
def Obligations.UfinEndsUnpacking : Prop :=
  ∀ s : State, s.block.err = .none →
    (s.block.mode = .unpack → (s.block.limitEn = true → s.block.explen.toNat ≤ s.block.symcnt.toNat) →
      exec .ufin s = .next { s with
        block.pend := [], block.mode := .idle, block.cmdcnt := satInc s.block.cmdcnt }) ∧
    (s.block.mode = .unpack → s.block.limitEn = true → s.block.symcnt.toNat < s.block.explen.toNat →
      exec .ufin s = .next (faultState .shortError 0x5200000000000000#64 s)) ∧
    (s.block.mode ≠ .unpack → exec .ufin s = .next (faultState .seqError 0x5200000000000000#64 s))

/-- 44_bit_unpacker.md R167: a greedy run emits exactly what the document's decoder emits for the bytes, and a limited run the
first EXPLEN symbols of that, whether or not it ends in StreamError. -/
def Obligations.UnpackingRunEmitsWhatTheDocumentDecodes : Prop :=
  ∀ (s : State) (bytes : List Byte), Invariant s.block → s.block.err = .none → s.block.mode = .idle →
    s.block.tabOk = true →
    (∃ t, execAll (unpackRun false 0#32 bytes) s = .next t ∧
      t.host.outs = s.host.outs ++ unpackBytes (codeAt s.block) bytes) ∧
    (∀ explen : Count, ∃ t, execAll (unpackRun true explen bytes) s = .next t ∧
      t.host.outs = s.host.outs ++ (unpackBytes (codeAt s.block) bytes).take explen.toNat)

/-- 44_bit_unpacker.md R168 (a): unpacking `Pack(seq, T)` in limited mode with the true count emits exactly `seq`, raises
nothing and ends well. -/
def Obligations.LimitedUnpackingInvertsPacking : Prop :=
  ∀ (s : State) (seq : List Sym), Invariant s.block → s.block.err = .none → s.block.mode = .idle →
    s.block.tabOk = true → (∀ x ∈ seq, codeAt s.block x ≠ []) → seq.length < 2 ^ 32 → ∃ t,
      execAll (unpackRun true (BitVec.ofNat 32 seq.length) (packSeq (codeAt s.block) seq)) s = .next t ∧
      t.host.outs = s.host.outs ++ seq ∧ EndedWell t ∧ t.block.symcnt.toNat = seq.length

/-- 44_bit_unpacker.md R168 (b): in greedy mode the padding comes back as copies of the symbol whose code is all zeros, as many
as fit into the pad bits, and as nothing where there is no such symbol; then a pad of LMAX bits or more is a StreamError. -/
def Obligations.GreedyUnpackingReturnsThePadding : Prop :=
  ∀ (s : State) (seq : List Sym), Invariant s.block → s.block.err = .none → s.block.mode = .idle →
    s.block.tabOk = true → (∀ x ∈ seq, codeAt s.block x ≠ []) → ∃ t,
      execAll (unpackRun false 0#32 (packSeq (codeAt s.block) seq)) s = .next t ∧
      let pad := (8 - (bitsOfSeq (codeAt s.block) seq).length % 8) % 8
      (∀ z d, 0 < d → codeAt s.block z = List.replicate d false →
        t.host.outs = s.host.outs ++ seq ++ List.replicate (pad / d) z) ∧
      ((∀ z d, 0 < d → codeAt s.block z ≠ List.replicate d false) →
        t.host.outs = s.host.outs ++ seq ∧ (s.block.lmax.toNat ≤ pad → t.block.err = .streamError))

/-! ## Faults -/

/-- 60_exceptions.md R206: in the faulted condition every command but SRST and the seven that change nothing, and every illegal
word, is counted and otherwise ignored; those seven change nothing of the block but CMDCNT. -/
def Obligations.FaultedBlockIgnoresCommands : Prop :=
  ∀ s : State, s.block.err ≠ .none →
    (∀ i : Instr, i ≠ .srst → i ≠ .nop → i ≠ .rdstat → (∀ sel, i ≠ .rdcnt sel) → (∀ sym, i ≠ .frd sym) →
      (∀ sel idx, i ≠ .nrd sel idx) → (∀ sym, i ≠ .tlen sym) → (∀ sym k, i ≠ .tbits sym k) →
      exec i s = .next { s with block.cmdcnt := satInc s.block.cmdcnt }) ∧
    (∀ (w : CmdWord) (rest : List HostEvent) (e : Illegal), s.host.input = .command w :: rest → decode w = .error e →
      step s = .next { s with host.input := rest, block.cmdcnt := satInc s.block.cmdcnt }) ∧
    ∀ (i : Instr) (t : State), i ≠ .srst → exec i s = .next t →
      t.block = { s.block with cmdcnt := satInc s.block.cmdcnt } ∧ t.host.outb = s.host.outb ∧ t.host.outs = s.host.outs

/-- 60_exceptions.md R206, R207 (95_test_vectors.md section 4, property 8): once ERR ≠ 0, whatever the host does, a step changes
no state of the block but CMDCNT and appends nothing to OUTB or OUTS, or the block is in the reset state. -/
def Obligations.FaultLatchHolds : Prop :=
  ∀ s t : State, s.block.err ≠ .none → step s = .next t →
    t.host.outb = s.host.outb ∧ t.host.outs = s.host.outs ∧
    (t.block = Block.reset ∨ t.block = { s.block with cmdcnt := t.block.cmdcnt })

/-- 60_exceptions.md R205, R208, R209: a command that runs into a fault records its word and its position, and but for
StreamError changes nothing else; and each code comes from the commands the table names only. -/
def Obligations.FaultsArePreciseButStreamError : Prop :=
  ∀ (s t : State) (i : Instr), s.block.err = .none → i.wf = true → exec i s = .next t → t.block.err ≠ .none →
    t.block.errinfo = upperHalf (encode i) ∧ t.block.erridx = s.block.cmdcnt ∧
    (t.block.err ≠ .streamError → t = faultState t.block.err (encode i) s) ∧
    (t.block.err = .treeError → i = .build) ∧
    (t.block.err = .noCodeError → ∃ sym, i = .psym sym) ∧
    (t.block.err = .tableError → i = .tchk ∨ ∃ sym n v, i = .tapp sym n v) ∧
    (t.block.err = .streamError → ∃ byte, i = .ubyte byte) ∧
    (t.block.err = .shortError → i = .ufin) ∧
    (t.block.err = .seqError → i ∈ [.gen, .tclr, .tchk, .pstart, .pfin, .ufin] ∨ (∃ sym, i = .tdel sym) ∨
      (∃ sym n v, i = .tapp sym n v) ∨ (∃ sym, i = .psym sym) ∨ (∃ l e, i = .ustart l e) ∨ ∃ byte, i = .ubyte byte) ∧
    t.block.err ≠ .illCmdError

/-! ## Rules about the whole machine -/

/-- 10_state.md R35: every word the block accepts, legal or not, executed or ignored, faulting or not, adds 1 to CMDCNT, but for
SRST, which leaves it at 0; reset leaves it at 0. -/
def Obligations.EveryCommandIsCounted : Prop :=
  State.reset.block.cmdcnt = 0#32 ∧
  ∀ (s t : State) (w : CmdWord) (rest : List HostEvent), s.host.input = .command w :: rest → step s = .next t →
    t.block.cmdcnt = if decode w = .ok .srst then 0#32 else satInc s.block.cmdcnt

/-- 10_state.md R30: the commands that change MODE, and from what to what. -/
def Obligations.OnlyFiveCommandsChangeMode : Prop :=
  ∀ (s t : State) (i : Instr), exec i s = .next t → t.block.mode ≠ s.block.mode →
    (i = .pstart ∧ s.block.mode = .idle ∧ t.block.mode = .pack) ∨
    (i = .pfin ∧ s.block.mode = .pack ∧ t.block.mode = .idle) ∨
    (∃ l e, i = .ustart l e ∧ s.block.mode = .idle ∧ t.block.mode = .unpack) ∨
    (i = .ufin ∧ s.block.mode = .unpack ∧ t.block.mode = .idle) ∨
    (i = .srst ∧ t.block.mode = .idle)

/-- 43_bit_packer.md R154, 44_bit_unpacker.md R170: in the middle of a packing or unpacking run no command but SRST, which ends
it, changes the code table, TAB_OK or LMAX. -/
def Obligations.TableIsFixedDuringARun : Prop :=
  ∀ (s t : State) (i : Instr), s.block.mode ≠ .idle → i ≠ .srst → exec i s = .next t →
    t.block.code = s.block.code ∧ t.block.tabOk = s.block.tabOk ∧ t.block.lmax = s.block.lmax

/-- 20_memory.md R61, R62: which commands write which space, and the single entry the one-entry writers write. -/
def Obligations.SpacesAreWrittenByTheirCommandsOnly : Prop :=
  ∀ (s t : State) (i : Instr), exec i s = .next t →
    (t.block.freq ≠ s.block.freq → i = .fclr ∨ i = .srst ∨
      ∃ sym count, i = .fset sym count ∧ ∀ x, x ≠ sym → freqAt t.block x = freqAt s.block x) ∧
    (t.block.node ≠ s.block.node → i = .build ∨ i = .gen ∨ i = .srst) ∧
    (t.block.code ≠ s.block.code → i = .gen ∨ i = .tclr ∨ i = .srst ∨
      ∃ sym, (i = .tdel sym ∨ ∃ n v, i = .tapp sym n v) ∧ ∀ x, x ≠ sym → codeAt t.block x = codeAt s.block x)

/-- 30_encoding.md R90, 10_state.md R40: the six reading commands append exactly one word to RSP and no other command appends
to it; only PSYM and PFIN append to OUTB and only UBYTE to OUTS; nothing emitted is taken back and no command touches the
input. -/
def Obligations.StreamsGrowByTheirCommandsOnly : Prop :=
  ∀ (s t : State) (i : Instr), i.wf = true → exec i s = .next t →
    t.host.input = s.host.input ∧
    (if i = .rdstat ∨ (∃ sel, i = .rdcnt sel) ∨ (∃ sym, i = .frd sym) ∨ (∃ sel idx, i = .nrd sel idx) ∨
        (∃ sym, i = .tlen sym) ∨ (∃ sym k, i = .tbits sym k)
      then ∃ w, t.host.rsp = s.host.rsp ++ [w] else t.host.rsp = s.host.rsp) ∧
    s.host.outb <+: t.host.outb ∧ (t.host.outb ≠ s.host.outb → i = .pfin ∨ ∃ sym, i = .psym sym) ∧
    s.host.outs <+: t.host.outs ∧ (t.host.outs ≠ s.host.outs → ∃ byte, i = .ubyte byte)

/-- 43_bit_packer.md R151, R152, 44_bit_unpacker.md R163: one PSYM emits at most 32 bytes, one PFIN one byte, one UBYTE 0 to 8
symbols. -/
def Obligations.OneCommandEmitsBoundedOutput : Prop :=
  ∀ (s t : State) (i : Instr), Invariant s.block → exec i s = .next t →
    t.host.outb.length ≤ s.host.outb.length + 32 ∧ t.host.outs.length ≤ s.host.outs.length + 8

/-- 10_state.md R44: what a command does to the block depends on the block alone, not on what the host has presented or
received; and what it emits is the same. -/
def Obligations.BlockDoesNotReadTheHostSide : Prop :=
  ∀ (s s' t t' : State) (i : Instr), s.block = s'.block → exec i s = .next t → exec i s' = .next t' →
    t.block = t'.block ∧
    ∃ rsp outb outs, t.host = { s.host with
        rsp := s.host.rsp ++ rsp, outb := s.host.outb ++ outb, outs := s.host.outs ++ outs } ∧
      t'.host = { s'.host with
        rsp := s'.host.rsp ++ rsp, outb := s'.host.outb ++ outb, outs := s'.host.outs ++ outs }

/-! ## Invariants -/

/-- 10_state.md R41 (a) to (h), R42, R43, 44_bit_unpacker.md R166: the invariants hold after every step from a state in which
they hold, whatever the host does. -/
def Obligations.StepKeepsTheInvariants : Prop :=
  ∀ s t : State, Invariant s.block → step s = .next t → Invariant t.block

/-- 10_state.md R41: the invariants hold in the reset state. -/
def Obligations.ResetStateMeetsTheInvariants : Prop :=
  Invariant State.reset.block

/-! ## Pseudo-commands -/

/-- 30_encoding.md R93: TSET leaves the given bitstring as the code of its symbol and every other code as it was, and raises
nothing. -/
def Obligations.TsetLoadsTheCode : Prop :=
  ∀ (s : State) (sym : Sym) (bits : Bits), s.block.err = .none → s.block.mode = .idle →
    1 ≤ bits.length → bits.length ≤ 255 → ∃ t,
      execAll (Pseudo.tset sym bits).expand s = .next t ∧ t.block.err = .none ∧
      codeAt t.block sym = bits ∧ ∀ x, x ≠ sym → codeAt t.block x = codeAt s.block x

/-- 30_encoding.md R93, 40_frequency_table.md R100: FLOAD makes FREQ the frequencies of the text and raises nothing, however
long the text is, where every symbol's count fits a frequency. -/
def Obligations.FloadLoadsTheFrequencies : Prop :=
  ∀ (s : State) (text : List Sym), s.block.err = .none → (∀ x, freqOf text x < 2 ^ 32) → ∃ t,
    execAll (Pseudo.fload text).expand s = .next t ∧ t.block.err = .none ∧
    ∀ x, (freqAt t.block x).toNat = freqOf text x
end

