-- ==== Sys2Proof/Laws/State.lean ====
section
/-! SUPPORT. What each named update does to the state: one lemma for the block and one for the host's side. Each gives every
field at once, since a projection of the record on its right side is that field. All are true by rfl. -/

namespace Sys2Proof.Machine

@[simp] theorem counted_block (s : State) :
    (counted s).block = { s.block with cmdcnt := satInc s.block.cmdcnt } := rfl
@[simp] theorem counted_host (s : State) : (counted s).host = s.host := rfl

@[simp] theorem respond_block (w : Resp) (s : State) : (respond w s).block = s.block := rfl
@[simp] theorem respond_host (w : Resp) (s : State) :
    (respond w s).host = { s.host with rsp := s.host.rsp ++ [w] } := rfl

@[simp] theorem emitB_block (byte : Byte) (s : State) : (emitB byte s).block = s.block := rfl
@[simp] theorem emitB_host (byte : Byte) (s : State) :
    (emitB byte s).host = { s.host with outb := s.host.outb ++ [byte] } := rfl

@[simp] theorem emitS_block (sym : Sym) (s : State) : (emitS sym s).block = s.block := rfl
@[simp] theorem emitS_host (sym : Sym) (s : State) :
    (emitS sym s).host = { s.host with outs := s.host.outs ++ [sym] } := rfl

@[simp] theorem raise_block (e : Err) (w : CmdWord) (s : State) :
    (raise e w s).block = { s.block with err := e, errinfo := upperHalf w, erridx := s.block.cmdcnt } := rfl
@[simp] theorem raise_host (e : Err) (w : CmdWord) (s : State) : (raise e w s).host = s.host := rfl

@[simp] theorem resetBlock_block (s : State) : (resetBlock s).block = Block.reset := rfl
@[simp] theorem resetBlock_host (s : State) : (resetBlock s).host = s.host := rfl

@[simp] theorem setFreq_block (sym : Sym) (v : Freq) (s : State) :
    (setFreq sym v s).block = { s.block with freq := Table.write unlistedFreq s.block.freq sym.toNat v } := rfl
@[simp] theorem setFreq_host (sym : Sym) (v : Freq) (s : State) : (setFreq sym v s).host = s.host := rfl

@[simp] theorem clearFreq_block (s : State) : (clearFreq s).block = { s.block with freq := [] } := rfl
@[simp] theorem clearFreq_host (s : State) : (clearFreq s).host = s.host := rfl

@[simp] theorem setCode_block (sym : Sym) (c : Bits) (s : State) :
    (setCode sym c s).block = { s.block with code := codeWith s.block.code sym c } := rfl
@[simp] theorem setCode_host (sym : Sym) (c : Bits) (s : State) : (setCode sym c s).host = s.host := rfl

@[simp] theorem clearCode_block (s : State) : (clearCode s).block = { s.block with code := [] } := rfl
@[simp] theorem clearCode_host (s : State) : (clearCode s).host = s.host := rfl

@[simp] theorem markTable_block (s : State) :
    (markTable s).block =
      { s.block with lmax := BitVec.ofNat 8 (greatestLength s.block.code), tabOk := true } := rfl
@[simp] theorem markTable_host (s : State) : (markTable s).host = s.host := rfl

@[simp] theorem unmarkTable_block (s : State) :
    (unmarkTable s).block = { s.block with lmax := 0#8, tabOk := false } := rfl
@[simp] theorem unmarkTable_host (s : State) : (unmarkTable s).host = s.host := rfl

@[simp] theorem discardTree_block (s : State) :
    (discardTree s).block = { s.block with node := [], root := 0#9, treeValid := false } := rfl
@[simp] theorem discardTree_host (s : State) : (discardTree s).host = s.host := rfl

@[simp] theorem plantTree_block (leaves : List Node) (s : State) :
    (plantTree leaves s).block =
      { s.block with
        node := (mergeAll leaves).1
        root := BitVec.ofNat 9 ((mergeAll leaves).2.headD 0)
        treeValid := true
        nleaf := BitVec.ofNat 9 leaves.length
        rootwt := weightAt (mergeAll leaves).1 ((mergeAll leaves).2.headD 0) } := rfl
@[simp] theorem plantTree_host (leaves : List Node) (s : State) : (plantTree leaves s).host = s.host := rfl

@[simp] theorem startPacking_block (s : State) :
    (startPacking s).block =
      { s.block with
        acc := 0#8, nacc := 0#3, padcnt := 0#3, symcnt := 0#32, bytecnt := 0#32, mode := .pack } := rfl
@[simp] theorem startPacking_host (s : State) : (startPacking s).host = s.host := rfl

@[simp] theorem emitCountedByte_block (byte : Byte) (s : State) :
    (emitCountedByte byte s).block = { s.block with bytecnt := satInc s.block.bytecnt } := rfl
@[simp] theorem emitCountedByte_host (byte : Byte) (s : State) :
    (emitCountedByte byte s).host = { s.host with outb := s.host.outb ++ [byte] } := rfl

@[simp] theorem startUnpacking_block (limEn : Bool) (explen : Count) (s : State) :
    (startUnpacking limEn explen s).block =
      { s.block with
        pend := [], limitEn := limEn, explen := explen, symcnt := 0#32, bytecnt := 0#32, mode := .unpack } := rfl
@[simp] theorem startUnpacking_host (limEn : Bool) (explen : Count) (s : State) :
    (startUnpacking limEn explen s).host = s.host := rfl

@[simp] theorem takeSymbol_block (sym : Sym) (s : State) :
    (takeSymbol sym s).block =
      { s.block with
        pend := s.block.pend.drop (codeAt s.block sym).length, symcnt := satInc s.block.symcnt } := rfl
@[simp] theorem takeSymbol_host (sym : Sym) (s : State) :
    (takeSymbol sym s).host = { s.host with outs := s.host.outs ++ [sym] } := rfl

@[simp] theorem dropInput_block (n : Nat) (s : State) : (dropInput n s).block = s.block := rfl
@[simp] theorem dropInput_host (n : Nat) (s : State) :
    (dropInput n s).host = { s.host with input := s.host.input.drop n } := rfl

@[simp] theorem presentNext_block (w : CmdWord) (s : State) : (presentNext w s).block = s.block := rfl
@[simp] theorem presentNext_host (w : CmdWord) (s : State) :
    (presentNext w s).host = { s.host with input := .command w :: s.host.input } := rfl

end Sys2Proof.Machine
end

