-- ==== Sys2Proof/Laws/Table.lean ====
section
/-! SUPPORT. The laws of the index-addressed spaces: a read after a write to the same index gives the value written, a write
leaves every other index alone, and every operation keeps the canonical form. The first two hold of every table, canonical or
not. -/

namespace Sys2Proof.Machine

variable {α : Type}

@[simp] theorem Table.read_nil (u : α) (j : Nat) : Table.read u [] j = u := rfl

theorem Table.read_filter_other (u : α) (t : Table α) (k j : Nat) (h : j ≠ k) :
    Table.read u (t.filter fun e => e.1 != k) j = Table.read u t j := by
  induction t with
  | nil => rfl
  | cons e rest ih =>
    obtain ⟨i, v⟩ := e
    by_cases hi : i = k
    · subst hi
      simp [Table.read, ih, Ne.symm h]
    · simp [Table.read, hi, ih]

theorem Table.read_filter_same (u : α) (t : Table α) (k : Nat) :
    Table.read u (t.filter fun e => e.1 != k) k = u := by
  induction t with
  | nil => rfl
  | cons e rest ih =>
    obtain ⟨i, v⟩ := e
    by_cases hi : i = k
    · simpa [hi] using ih
    · simpa [Table.read, hi] using ih

theorem Table.read_place_other (u v : α) (t : Table α) (k j : Nat) (h : j ≠ k) :
    Table.read u (Table.place k v t) j = Table.read u t j := by
  induction t with
  | nil => simp [Table.place, Table.read, Ne.symm h]
  | cons e rest ih =>
    obtain ⟨i, w⟩ := e
    simp only [Table.place]
    split
    · simp [Table.read, Ne.symm h]
    · simp [Table.read, ih]

theorem Table.read_place_same (u v : α) (t : Table α) (k : Nat) (h : ∀ e ∈ t, e.1 ≠ k) :
    Table.read u (Table.place k v t) k = v := by
  induction t with
  | nil => simp [Table.place, Table.read]
  | cons e rest ih =>
    obtain ⟨i, w⟩ := e
    simp only [Table.place]
    split
    · simp [Table.read]
    · simp only [List.mem_cons, forall_eq_or_imp] at h
      simp [Table.read, h.1, ih h.2]

variable [DecidableEq α]

theorem Table.read_write (u v : α) (t : Table α) (k j : Nat) :
    Table.read u (Table.write u t k v) j = if j = k then v else Table.read u t j := by
  unfold Table.write
  by_cases hj : j = k
  · subst hj
    by_cases hv : v = u
    · simp [hv, Table.read_filter_same]
    · simp [hv, Table.read_place_same]
  · by_cases hv : v = u
    · simp [hv, hj, Table.read_filter_other]
    · simp [hv, hj, Table.read_place_other, Table.read_filter_other]

theorem Table.wf_iff (n : Nat) (u : α) (t : Table α) :
    Table.wf n u t = true ↔ t.Pairwise (fun x y => x.1 < y.1) ∧ ∀ e ∈ t, e.1 < n ∧ e.2 ≠ u := by
  simp [Table.wf]

theorem Table.wf_nil (n : Nat) (u : α) : Table.wf n u [] = true := by simp [Table.wf_iff]

omit [DecidableEq α] in
theorem Table.mem_place (k : Nat) (v : α) (t : Table α) (e : Nat × α) :
    e ∈ Table.place k v t ↔ e = (k, v) ∨ e ∈ t := by
  induction t with
  | nil => simp [Table.place]
  | cons x rest ih =>
    simp only [Table.place]
    split <;> simp [ih, or_left_comm]

omit [DecidableEq α] in
theorem Table.place_rising (k : Nat) (v : α) (t : Table α) (h : t.Pairwise fun x y => x.1 < y.1)
    (hk : ∀ e ∈ t, e.1 ≠ k) : (Table.place k v t).Pairwise fun x y => x.1 < y.1 := by
  induction t with
  | nil => simp [Table.place]
  | cons x rest ih =>
    simp only [List.pairwise_cons, List.mem_cons, forall_eq_or_imp] at h hk
    simp only [Table.place]
    split
    · rename_i hlt
      simp only [List.pairwise_cons, List.mem_cons, forall_eq_or_imp]
      exact ⟨⟨hlt, fun e he => lt_trans hlt (h.1 e he)⟩, h.1, h.2⟩
    · rename_i hlt
      simp only [List.pairwise_cons, Table.mem_place]
      refine ⟨?_, ih h.2 hk.2⟩
      rintro e (rfl | he)
      · exact lt_of_le_of_ne (not_lt.mp hlt) hk.1
      · exact h.1 e he

theorem Table.write_wf (n : Nat) (u v : α) (t : Table α) (k : Nat) (hk : k < n) (h : Table.wf n u t = true) :
    Table.wf n u (Table.write u t k v) = true := by
  rw [Table.wf_iff] at h ⊢
  unfold Table.write
  have hsub : (t.filter fun e => e.1 != k).Pairwise fun x y => x.1 < y.1 := h.1.filter _
  have hmem : ∀ e ∈ t.filter fun e => e.1 != k, e.1 < n ∧ e.2 ≠ u :=
    fun e he => h.2 e (List.mem_filter.mp he).1
  by_cases hv : v = u
  · simpa [hv] using And.intro hsub hmem
  · simp only [hv, if_false]
    refine ⟨Table.place_rising k v _ hsub (by simp), fun e he => ?_⟩
    rcases (Table.mem_place k v _ e).mp he with rfl | he
    · exact ⟨hk, hv⟩
    · exact hmem e he

omit [DecidableEq α] in
/-- In a canonical table an entry listed is the entry read. -/
theorem Table.read_of_mem (u : α) (t : Table α) (h : t.Pairwise fun x y => x.1 < y.1) (k : Nat) (v : α)
    (hm : (k, v) ∈ t) : Table.read u t k = v := by
  induction t with
  | nil => cases hm
  | cons x rest ih =>
    obtain ⟨i, w⟩ := x
    simp only [List.pairwise_cons] at h
    simp only [List.mem_cons, Prod.mk.injEq] at hm
    simp only [Table.read]
    rcases hm with ⟨rfl, rfl⟩ | hm
    · simp
    · have := h.1 _ hm
      simp only at this
      rw [if_neg (by omega), ih h.2 hm]

/-! ## FREQ and CODE -/

theorem sym_toNat_inj {x y : Sym} : x.toNat = y.toNat ↔ x = y := BitVec.toNat_inj

theorem freqAt_setFreq (sym x : Sym) (v : Freq) (s : State) :
    freqAt (setFreq sym v s).block x = if x = sym then v else freqAt s.block x := by
  simp [freqAt, Table.read_write, sym_toNat_inj]

theorem codeIn_codeWith (t : Table Bits) (sym x : Sym) (c : Bits) :
    codeIn (codeWith t sym c) x = if x = sym then c else codeIn t x := by
  simp [codeIn, codeWith, Table.read_write, sym_toNat_inj]

theorem codeAt_setCode (sym x : Sym) (c : Bits) (s : State) :
    codeAt (setCode sym c s).block x = if x = sym then c else codeAt s.block x := by
  simp [codeAt, codeIn_codeWith]

@[simp] theorem codeIn_nil (x : Sym) : codeIn [] x = [] := rfl

theorem memory_wf_iff (b : Block) : Memory.wf b = true ↔
    Table.wf Config.nsym unlistedFreq b.freq = true ∧ Table.wf Config.nsym unlistedCode b.code = true := by
  simp [Memory.wf]

theorem reset_memory_wf : Memory.wf State.reset.block = true := by decide

theorem setFreq_memory_wf (sym : Sym) (v : Freq) (s : State) (h : Memory.wf s.block = true) :
    Memory.wf (setFreq sym v s).block = true := by
  rw [memory_wf_iff] at h ⊢
  exact ⟨Table.write_wf _ _ _ _ _ sym.isLt h.1, h.2⟩

theorem codeWith_wf (t : Table Bits) (sym : Sym) (c : Bits) (h : Table.wf Config.nsym unlistedCode t = true) :
    Table.wf Config.nsym unlistedCode (codeWith t sym c) = true :=
  Table.write_wf _ _ _ _ _ sym.isLt h

theorem setCode_memory_wf (sym : Sym) (c : Bits) (s : State) (h : Memory.wf s.block = true) :
    Memory.wf (setCode sym c s).block = true := by
  rw [memory_wf_iff] at h ⊢
  exact ⟨h.1, codeWith_wf _ _ _ h.2⟩

/-! ## The symbols -/

theorem mem_symbols (x : Sym) : x ∈ symbols := by
  simp only [symbols, List.mem_map, List.mem_range]
  exact ⟨x.toNat, x.isLt, by simp⟩

theorem symbols_rising : symbols.Pairwise fun x y => x.toNat < y.toNat := by
  rw [symbols, List.pairwise_map]
  refine List.Pairwise.imp_of_mem ?_ List.pairwise_lt_range
  intro a b ha hb hab
  simp only [List.mem_range, Config.nsym] at ha hb
  simp only [BitVec.toNat_ofNat]
  omega

theorem symbols_nodup : symbols.Nodup :=
  symbols_rising.imp fun {x y} h => by rintro rfl; exact lt_irrefl _ h

theorem symbols_length : symbols.length = 256 := by simp [symbols]

end Sys2Proof.Machine
end

