-- ==== Sys2Proof/Laws/Prelude.lean ====
section
/-! SUPPORT. What `exec` can do, said once: every command but SRST is the prelude around one effect, and the prelude ends in
one of five ways (spec/60_exceptions.md R204). -/

namespace Sys2Proof.Machine

/-- What a command does once the prelude has let it run (step 5 of R204). -/
def effect : Instr → State → State
  | .nop => fun s => s
  | .srst => resetBlock
  | .rdstat => fun s => respond (statusWord s.block) s
  | .rdcnt sel => fun s => match counter s.block sel with | some w => respond w s | none => s
  | .fclr => clearFreq
  | .fset sym count => setFreq sym count
  | .frd sym => fun s => respond (freqAt s.block sym) s
  | .build => buildTree
  | .nrd sel idx => fun s => respond (nodeWord s.block sel idx) s
  | .gen => generateCodes
  | .tclr => fun s => unmarkTable (clearCode s)
  | .tdel sym => fun s => unmarkTable (setCode sym [] s)
  | .tapp sym n v => appendCode sym n v
  | .tchk => checkTable
  | .tlen sym => fun s => respond (lengthWord (codeAt s.block sym)) s
  | .tbits sym k => fun s => respond (chunkWord (codeAt s.block sym) k) s
  | .pstart => startPacking
  | .psym sym => packSymbol sym
  | .pfin => finishPacking
  | .ustart limEn explen => startUnpacking limEn explen
  | .ubyte byte => unpackByte byte
  | .ufin => finishUnpacking

theorem exec_srst (s : State) : exec .srst s = .next (resetBlock s) := rfl

theorem exec_eq (i : Instr) (s : State) (h : i ≠ .srst) : exec i s = withPrelude i (effect i) s := by
  cases i <;> first | rfl | exact absurd rfl h

theorem faulted_eq_false {b : Block} (h : b.err = .none) : faulted b = false := by simp [faulted, h]

theorem faulted_eq_true {b : Block} (h : b.err ≠ .none) : faulted b = true := by simpa [faulted] using h

/-- A command runs: no fault has been latched, the operands are ones a word encodes, and it is in sequence. -/
theorem exec_runs {i : Instr} {s : State} (hi : i ≠ .srst) (he : s.block.err = .none) (hw : i.wf = true)
    (hq : seqOk s.block i = true) : exec i s = .next (counted (effect i s)) := by
  rw [exec_eq i s hi]
  simp [withPrelude, faulted_eq_false he, hw, hq]

/-- A command out of sequence faults. -/
theorem exec_out_of_sequence {i : Instr} {s : State} (hi : i ≠ .srst) (he : s.block.err = .none) (hw : i.wf = true)
    (hq : seqOk s.block i = false) : exec i s = .next (counted (raise .seqError (encode i) s)) := by
  rw [exec_eq i s hi]
  simp [withPrelude, faulted_eq_false he, hw, hq]

/-- A reading command runs in every state. -/
theorem exec_reads {i : Instr} {s : State} (hr : readsOnly i = true) (hw : i.wf = true) :
    exec i s = .next (counted (effect i s)) := by
  have hi : i ≠ .srst := by rintro rfl; exact absurd hr (by decide)
  have hq : seqOk s.block i = true := by cases i <;> first | rfl | exact absurd hr (by simp [readsOnly])
  rw [exec_eq i s hi]
  by_cases he : s.block.err = .none
  · simp [withPrelude, faulted_eq_false he, hw, hq]
  · simp [withPrelude, faulted_eq_true he, hr, hw]

/-- In the faulted condition every command but SRST and the reading ones is counted and ignored. -/
theorem exec_ignored {i : Instr} {s : State} (hi : i ≠ .srst) (he : s.block.err ≠ .none) (hr : readsOnly i = false) :
    exec i s = .next (counted s) := by
  rw [exec_eq i s hi]
  simp [withPrelude, faulted_eq_true he, hr]

/-- Every way a command can end. -/
theorem exec_cases {i : Instr} {s t : State} (h : exec i s = .next t) :
    (i = .srst ∧ t = resetBlock s) ∨
    (i ≠ .srst ∧ s.block.err ≠ .none ∧ (readsOnly i && i.wf) = false ∧ t = counted s) ∨
    (i ≠ .srst ∧ s.block.err = .none ∧ i.wf = false ∧ t = counted (raise .illCmdError (encode i) s)) ∨
    (i ≠ .srst ∧ s.block.err = .none ∧ i.wf = true ∧ seqOk s.block i = false ∧
      t = counted (raise .seqError (encode i) s)) ∨
    (i ≠ .srst ∧ i.wf = true ∧ seqOk s.block i = true ∧ (s.block.err = .none ∨ readsOnly i = true) ∧
      t = counted (effect i s)) := by
  by_cases hi : i = .srst
  · subst hi
    rw [exec_srst] at h
    exact .inl ⟨rfl, by injection h with h; exact h.symm⟩
  · by_cases hr : readsOnly i = true ∧ i.wf = true
    · rw [exec_reads hr.1 hr.2] at h
      injection h with h
      have hq : seqOk s.block i = true := by
        cases i <;> first | rfl | exact absurd hr.1 (by simp [readsOnly])
      exact .inr (.inr (.inr (.inr ⟨hi, hr.2, hq, .inr hr.1, h.symm⟩)))
    · rw [exec_eq i s hi] at h
      by_cases he : s.block.err = .none
      · by_cases hw : i.wf = true
        · by_cases hq : seqOk s.block i = true
          · simp only [withPrelude, faulted_eq_false he, hw, hq] at h
            simp only [Bool.false_eq_true, if_false, Bool.not_true] at h
            injection h with h
            exact .inr (.inr (.inr (.inr ⟨hi, hw, hq, .inl he, h.symm⟩)))
          · simp only [Bool.not_eq_true] at hq
            simp only [withPrelude, faulted_eq_false he, hw, hq] at h
            simp only [Bool.false_eq_true, if_false, Bool.not_true, Bool.not_false, if_true] at h
            injection h with h
            exact .inr (.inr (.inr (.inl ⟨hi, he, hw, hq, h.symm⟩)))
        · simp only [Bool.not_eq_true] at hw
          simp only [withPrelude, illegalWord, faulted_eq_false he, hw] at h
          simp only [Bool.false_eq_true, if_false, Bool.not_false, if_true] at h
          injection h with h
          exact .inr (.inr (.inl ⟨hi, he, hw, h.symm⟩))
      · have hb : (readsOnly i && i.wf) = false := by
          simp only [not_and, Bool.not_eq_true] at hr
          cases hro : readsOnly i
          · rfl
          · simp [hr hro]
        simp only [withPrelude, faulted_eq_true he, hb, if_true, Bool.false_eq_true, if_false] at h
        injection h with h
        exact .inr (.inl ⟨hi, he, hb, h.symm⟩)

/-- Every command answers a next state. -/
theorem exec_total (i : Instr) (s : State) : ∃ t, exec i s = .next t := by
  by_cases hi : i = .srst
  · exact ⟨_, hi ▸ exec_srst s⟩
  · rw [exec_eq i s hi]
    unfold withPrelude
    split
    · exact ⟨_, rfl⟩
    · split
      · exact ⟨_, rfl⟩
      · split <;> exact ⟨_, rfl⟩

theorem acceptWord_total (w : CmdWord) (s : State) : ∃ t, acceptWord w s = .next t := by
  unfold acceptWord
  split
  · exact exec_total _ _
  · exact ⟨_, rfl⟩

/-- Every step answers a next state. -/
theorem takeInput_total (s : State) : ∃ t, takeInput s = .next t := by
  unfold takeInput
  split
  · exact ⟨_, rfl⟩
  · exact acceptWord_total _ _
  · exact ⟨_, rfl⟩
  · rename_i w taken rest _
    obtain ⟨t, ht⟩ := acceptWord_total w (dropInput 1 s)
    rw [ht]
    exact ⟨_, rfl⟩

/-- Every way a word on CMD can end. -/
theorem acceptWord_cases {w : CmdWord} {s t : State} (h : acceptWord w s = .next t) :
    (∃ i, decode w = .ok i ∧ exec i s = .next t) ∨ ∃ e, decode w = .error e ∧ t = illegalWord w s := by
  unfold acceptWord at h
  split at h
  · rename_i i hd
    exact .inl ⟨i, hd, h⟩
  · rename_i e hd
    injection h with h
    exact .inr ⟨e, hd, h.symm⟩

/-- Every way a step can end: nothing presented, a command word, the reset input, the reset input during a command. -/
theorem step_cases {s t : State} (h : step s = .next t) :
    (s.host.input = [] ∧ t = s) ∨
    (∃ w rest, s.host.input = .command w :: rest ∧ acceptWord w (dropInput 1 s) = .next t) ∨
    (∃ rest, s.host.input = .reset :: rest ∧ t = resetBlock (dropInput 1 s)) ∨
    (∃ w taken rest after, s.host.input = .resetDuring w taken :: rest ∧
      acceptWord w (dropInput 1 s) = .next after ∧ t = cutByReset taken (dropInput 1 s) after) := by
  unfold step takeInput at h
  split at h
  · rename_i hin
    injection h with h
    exact .inl ⟨hin, h.symm⟩
  · rename_i w rest hin
    exact .inr (.inl ⟨w, rest, hin, h⟩)
  · rename_i rest hin
    injection h with h
    exact .inr (.inr (.inl ⟨rest, hin, h.symm⟩))
  · rename_i w taken rest hin
    obtain ⟨after, ha⟩ := acceptWord_total w (dropInput 1 s)
    rw [ha] at h
    injection h with h
    exact .inr (.inr (.inr ⟨w, taken, rest, after, hin, ha, h.symm⟩))

/-! ## Counters -/

theorem satInc_toNat (v : Count) : (satInc v).toNat = min (v.toNat + 1) (2 ^ 32 - 1) := by
  unfold satInc
  split
  · rename_i h; subst h; decide
  · rename_i h
    have : v.toNat ≠ 2 ^ 32 - 1 := fun hv => h (BitVec.eq_of_toNat_eq (by simpa using hv))
    have := v.isLt
    rw [BitVec.toNat_add]
    simp only [BitVec.toNat_ofNat]
    omega

end Sys2Proof.Machine
end

