-- ==== Sys2Proof/Laws/Bits.lean ====
section
/-! SUPPORT. Bitstrings, their images and their bytes (spec/00_scope.md R10, R12; 20_memory.md R64, R65), and the saturating
counters stepped many times. -/

namespace Sys2Proof.Machine

/-! ## Images (R10) -/

@[simp] theorem img_nil : img [] = 0 := rfl

theorem img_concat (c : Bits) (bit : Bool) : img (c ++ [bit]) = 2 * img c + bit.toNat := by
  simp [img]

theorem img_lt (c : Bits) : img c < 2 ^ c.length := by
  induction c using List.reverseRecOn with
  | nil => simp
  | append_singleton c bit ih =>
    rw [img_concat, List.length_append, List.length_singleton, pow_succ]
    have := Bool.toNat_le bit
    omega

theorem img_append (c d : Bits) : img (c ++ d) = img c * 2 ^ d.length + img d := by
  induction d using List.reverseRecOn with
  | nil => simp
  | append_singleton d bit ih =>
    rw [← List.append_assoc, img_concat, ih, img_concat, List.length_append, List.length_singleton, pow_succ]
    ring

theorem img_zeros (n : Nat) : img (List.replicate n false) = 0 := by
  induction n with
  | zero => rfl
  | succ n ih => rw [List.replicate_succ', img_concat, ih]; rfl

/-- The low `n` bits of the image of `n` bits are those bits. -/
theorem lowBits_img {w : Nat} (c : Bits) (h : c.length ≤ w) : lowBits c.length (BitVec.ofNat w (img c)) = c := by
  induction c using List.reverseRecOn with
  | nil => rfl
  | append_singleton c bit ih =>
    rw [List.length_append, List.length_singleton] at h ⊢
    have hc := ih (by omega)
    conv_rhs => rw [← hc]
    simp only [lowBits, List.range_succ, List.map_append, List.map_cons, List.map_nil]
    congr 1
    · refine List.map_congr_left fun i hi => ?_
      have hi := List.mem_range.mp hi
      rw [BitVec.getLsbD_ofNat, BitVec.getLsbD_ofNat, img_concat]
      rw [show c.length + 1 - 1 - i = (c.length - 1 - i) + 1 by omega, Nat.testBit_succ]
      rw [show (2 * img c + bit.toNat) / 2 = img c by have := Bool.toNat_le bit; omega]
      congr 1
      simp only [decide_eq_decide]
      omega
    · rw [show c.length + 1 - 1 - c.length = 0 by omega, BitVec.getLsbD_ofNat, img_concat]
      cases bit
      · simp
      · simp; omega

/-- A byte made of eight bits has those bits in stream order (20_memory.md R64). -/
theorem byteBits_img (c : Bits) (h : c.length = 8) : byteBits (BitVec.ofNat 8 (img c)) = c := by
  have := lowBits_img (w := 8) c (by omega)
  rw [h] at this
  exact this

@[simp] theorem byteBits_length (byte : Byte) : (byteBits byte).length = 8 := by simp [byteBits, lowBits]

/-! ## Bytes (R12) -/

theorem bytesOfBits_short (c : Bits) (h : c.length < 8) : bytesOfBits c = [] := by
  match c with
  | [] | [_] | [_, _] | [_, _, _] | [_, _, _, _] | [_, _, _, _, _] | [_, _, _, _, _, _] | [_, _, _, _, _, _, _] => rfl
  | _ :: _ :: _ :: _ :: _ :: _ :: _ :: _ :: _ => simp only [List.length_cons] at h; omega

theorem bytesOfBits_eight (c rest : Bits) (h : c.length = 8) :
    bytesOfBits (c ++ rest) = BitVec.ofNat 8 (img c) :: bytesOfBits rest := by
  match c with
  | [_, _, _, _, _, _, _, _] => rfl

theorem bytesOfBits_length (c : Bits) : (bytesOfBits c).length = c.length / 8 := by
  induction hn : c.length using Nat.strongRecOn generalizing c with
  | ind n ih =>
    by_cases h : c.length < 8
    · rw [bytesOfBits_short c h]; simp; omega
    · rw [← List.take_append_drop 8 c, bytesOfBits_eight _ _ (by simp; omega), List.length_cons,
        ih (c.drop 8).length (by simp; omega) _ rfl, List.length_drop]
      omega

/-- Bytes of whole groups come first, unchanged by what follows. -/
theorem bytesOfBits_append (c d : Bits) (h : c.length % 8 = 0) :
    bytesOfBits (c ++ d) = bytesOfBits c ++ bytesOfBits d := by
  induction hn : c.length using Nat.strongRecOn generalizing c with
  | ind n ih =>
    by_cases h0 : c.length < 8
    · obtain rfl := List.length_eq_zero_iff.mp (show c.length = 0 by omega)
      rfl
    · conv_lhs => rw [← List.take_append_drop 8 c]
      conv_rhs => rw [← List.take_append_drop 8 c]
      have h8 : (c.take 8).length = 8 := by simp; omega
      rw [List.append_assoc, bytesOfBits_eight (c.take 8) (c.drop 8 ++ d) h8, bytesOfBits_eight (c.take 8) (c.drop 8) h8,
        ih (c.drop 8).length (by simp; omega) _ (by simp; omega) rfl]
      rfl

/-- The bits of the bytes of whole groups are the bits themselves. -/
theorem bits_of_bytes (c : Bits) (h : c.length % 8 = 0) : (bytesOfBits c).flatMap byteBits = c := by
  induction hn : c.length using Nat.strongRecOn generalizing c with
  | ind n ih =>
    by_cases h0 : c.length < 8
    · obtain rfl := List.length_eq_zero_iff.mp (show c.length = 0 by omega)
      rfl
    · conv_lhs => rw [← List.take_append_drop 8 c]
      rw [bytesOfBits_eight _ _ (by simp; omega), List.flatMap_cons, byteBits_img _ (by simp; omega),
        ih (c.drop 8).length (by simp; omega) _ (by simp; omega) rfl, List.take_append_drop]

theorem padBits_length (c : Bits) : (padBits c).length % 8 = 0 := by
  rw [padBits, List.length_append, List.length_replicate]
  omega

/-! ## Counters stepped many times (10_state.md R33) -/

theorem satInc_iterate_toNat (n : Nat) (v : Count) : (satInc^[n] v).toNat = min (v.toNat + n) (2 ^ 32 - 1) := by
  induction n generalizing v with
  | zero =>
    have := v.isLt
    simp only [Function.iterate_zero, id_eq]
    omega
  | succ n ih =>
    rw [Function.iterate_succ_apply, ih, satInc_toNat]
    omega

end Sys2Proof.Machine
end

