-- ==== Sys2Proof/Laws/CodeTable.lean ====
section
/-! SUPPORT. The views of a code table: the present entries, their number, their greatest length, the prefix-free check, and
the match (spec/10_state.md R27, R29; 42_code_table.md R139; 44_bit_unpacker.md R162). -/

namespace Sys2Proof.Machine

theorem mem_presentCodes {t : Table Bits} {x : Sym} {c : Bits} :
    (x, c) ∈ presentCodes t ↔ codeIn t x = c ∧ c ≠ [] := by
  simp only [presentCodes, List.mem_filterMap]
  constructor
  · rintro ⟨y, -, hy⟩
    by_cases h : codeIn t y = []
    · simp [h] at hy
    · simp only [h, if_false, Option.some.injEq, Prod.mk.injEq] at hy
      obtain ⟨rfl, rfl⟩ := hy
      exact ⟨rfl, h⟩
  · rintro ⟨rfl, hc⟩
    exact ⟨x, mem_symbols x, by simp [hc]⟩

/-- No entry is present exactly when every code is empty. -/
theorem presentCodes_eq_nil {t : Table Bits} : presentCodes t = [] ↔ ∀ x, codeIn t x = [] := by
  constructor
  · intro h x
    by_contra hx
    have := mem_presentCodes.mpr ⟨rfl, hx⟩
    rw [h] at this
    cases this
  · intro h
    rw [List.eq_nil_iff_forall_not_mem]
    rintro ⟨x, c⟩ hm
    obtain ⟨rfl, hc⟩ := mem_presentCodes.mp hm
    exact hc (h x)

/-- NCODES counts the symbols whose code is not empty (10_state.md R27). -/
theorem ncodes_eq (b : Block) : ncodes b = symbols.countP fun x => !(codeAt b x).isEmpty := by
  simp only [ncodes, presentCodes, List.countP_eq_length_filter]
  rw [← List.filterMap_eq_filter, List.length_filterMap_eq_countP, List.length_filterMap_eq_countP]
  congr 1
  funext x
  simp only [codeAt]
  by_cases h : codeIn b.code x = [] <;> simp [h, Option.guard]

theorem prefixFree_iff (t : Table Bits) : prefixFree t = true ↔ PrefixFree (codeIn t) := by
  simp only [prefixFree, List.all_eq_true, Bool.or_eq_true, beq_iff_eq, Bool.not_eq_true', PrefixFree]
  constructor
  · intro h x y hxy hx hy hp
    rcases h _ (mem_presentCodes.mpr ⟨rfl, hx⟩) _ (mem_presentCodes.mpr ⟨rfl, hy⟩) with he | he
    · exact hxy he
    · rw [← Bool.not_eq_true, List.isPrefixOf_iff_prefix] at he
      exact he hp
  · rintro h ⟨x, c⟩ hx ⟨y, d⟩ hy
    obtain ⟨rfl, hc⟩ := mem_presentCodes.mp hx
    obtain ⟨rfl, hd⟩ := mem_presentCodes.mp hy
    by_cases hxy : x = y
    · exact .inl hxy
    · refine .inr ?_
      rw [← Bool.not_eq_true, List.isPrefixOf_iff_prefix]
      exact h x y hxy hc hd

theorem le_foldl_max (l : List Nat) (m : Nat) : m ≤ l.foldl max m ∧ ∀ n ∈ l, n ≤ l.foldl max m := by
  induction l generalizing m with
  | nil => simp
  | cons k rest ih =>
    obtain ⟨h1, h2⟩ := ih (max m k)
    simp only [List.foldl_cons, List.mem_cons, forall_eq_or_imp]
    exact ⟨by omega, by omega, h2⟩

theorem foldl_max_mem (l : List Nat) (m : Nat) : l.foldl max m = m ∨ l.foldl max m ∈ l := by
  induction l generalizing m with
  | nil => simp
  | cons k rest ih =>
    rw [List.foldl_cons]
    rcases ih (max m k) with h | h
    · rw [h]
      rcases Nat.le_total m k with hmk | hmk
      · rw [Nat.max_eq_right hmk]; simp
      · rw [Nat.max_eq_left hmk]; simp
    · exact .inr (List.mem_cons_of_mem _ h)

theorem length_le_greatest (t : Table Bits) (x : Sym) : (codeIn t x).length ≤ greatestLength t := by
  by_cases h : codeIn t x = []
  · simp [h]
  · exact (le_foldl_max _ 0).2 _ (List.mem_map.mpr ⟨_, mem_presentCodes.mpr ⟨rfl, h⟩, rfl⟩)

/-- `greatestLength` is what its name says (10_state.md R29). -/
theorem greatestLength_spec {t : Table Bits} (h : ∃ x, codeIn t x ≠ []) :
    IsGreatestLength (codeIn t) (greatestLength t) := by
  refine ⟨?_, length_le_greatest t⟩
  rcases foldl_max_mem ((presentCodes t).map fun e => e.2.length) 0 with h0 | hm
  · obtain ⟨x, hx⟩ := h
    have := length_le_greatest t x
    rw [greatestLength, h0] at this
    exact absurd (List.length_eq_zero_iff.mp (Nat.le_zero.mp this)) hx
  · obtain ⟨⟨x, c⟩, hx, he⟩ := List.mem_map.mp hm
    obtain ⟨rfl, hc⟩ := mem_presentCodes.mp hx
    exact ⟨x, hc, he⟩

theorem IsGreatestLength.unique {code : Sym → Bits} {m n : Nat} (h : IsGreatestLength code m)
    (h' : IsGreatestLength code n) : m = n := by
  obtain ⟨⟨x, -, hx⟩, h1⟩ := h
  obtain ⟨⟨y, -, hy⟩, h2⟩ := h'
  have := h1 y
  have := h2 x
  omega

/-- `LMAX` as `markTable` latches it, when no code is longer than MAXLEN. -/
theorem markTable_lmax {t : Table Bits} (h : ∃ x, codeIn t x ≠ []) (hl : ∀ x, (codeIn t x).length ≤ Config.maxlen) :
    IsGreatestLength (codeIn t) (BitVec.ofNat 8 (greatestLength t)).toNat := by
  have hs := greatestLength_spec h
  obtain ⟨x, -, hx⟩ := hs.1
  have hx' : greatestLength t ≤ 255 := hx ▸ hl x
  rwa [BitVec.toNat_ofNat, Nat.mod_eq_of_lt (by omega)]

/-! ## What TAPP and TCHK can do -/

theorem appendCode_cases (sym : Sym) (n : BitVec 8) (v : BitVec 32) (s : State) :
    appendCode sym n v s = raise .tableError (encode (.tapp sym n v)) s ∨
      appendCode sym n v s = unmarkTable (setCode sym (codeAt s.block sym ++ lowBits n.toNat v) s) := by
  unfold appendCode
  split
  · exact .inl rfl
  · exact .inr rfl

theorem checkTable_cases (s : State) :
    checkTable s = raise .tableError (encode .tchk) s ∨
      (presentCodes s.block.code ≠ [] ∧ PrefixFree (codeAt s.block) ∧ checkTable s = markTable s) := by
  unfold checkTable
  split
  · exact .inl rfl
  · split
    · exact .inl rfl
    · rename_i h1 h2
      exact .inr ⟨by simpa using h1, (prefixFree_iff _).mp (by simpa using h2), rfl⟩

/-! ## The match (44_bit_unpacker.md R162) -/

theorem matchIn_some {code : Sym → Bits} {pend : Bits} {x : Sym} (h : matchIn code pend = some x) :
    code x ≠ [] ∧ code x <+: pend := by
  have := List.find?_some h
  simpa using this

theorem matchIn_none {code : Sym → Bits} {pend : Bits} :
    matchIn code pend = none ↔ ∀ x, code x ≠ [] → ¬ code x <+: pend := by
  simp [matchIn, mem_symbols]

/-- Where a code is a prefix, the match is found, and with a prefix-free table it is the symbol of that code. -/
theorem matchIn_of_prefix {code : Sym → Bits} (hp : PrefixFree code) {pend : Bits} {x : Sym} (hx : code x ≠ [])
    (h : code x <+: pend) : matchIn code pend = some x := by
  cases hm : matchIn code pend with
  | none => exact absurd h (matchIn_none.mp hm x hx)
  | some y =>
    obtain ⟨hy, hy'⟩ := matchIn_some hm
    by_contra hne
    have hne : y ≠ x := fun e => hne (by rw [e])
    rcases List.prefix_or_prefix_of_prefix hy' h with hpre | hpre
    · exact hp y x hne hy hx hpre
    · exact hp x y (Ne.symm hne) hx hy hpre

end Sys2Proof.Machine
end

