-- ==== Sys2Proof/Laws/Encoding.lean ====
section
/-! SUPPORT. The fields of a command word (spec/30_encoding.md R81): a word is its fields, and its fields are what it was made
of. -/

namespace Sys2Proof

theorem fieldOp_commandWord (op a b : BitVec 8) (imm : BitVec 32) : fieldOp (commandWord op a b imm) = op := by
  unfold fieldOp commandWord
  ext i hi
  simp only [BitVec.getElem_extractLsb', BitVec.getLsbD_append]
  rw [if_neg (by omega), if_neg (by omega), if_neg (by omega), if_neg (by omega), ← BitVec.getLsbD_eq_getElem]
  congr 1; omega

theorem fieldA_commandWord (op a b : BitVec 8) (imm : BitVec 32) : fieldA (commandWord op a b imm) = a := by
  unfold fieldA commandWord
  ext i hi
  simp only [BitVec.getElem_extractLsb', BitVec.getLsbD_append]
  rw [if_neg (by omega), if_neg (by omega), if_neg (by omega), if_pos (by omega), ← BitVec.getLsbD_eq_getElem]
  congr 1; omega

theorem fieldB_commandWord (op a b : BitVec 8) (imm : BitVec 32) : fieldB (commandWord op a b imm) = b := by
  unfold fieldB commandWord
  ext i hi
  simp only [BitVec.getElem_extractLsb', BitVec.getLsbD_append]
  rw [if_neg (by omega), if_neg (by omega), if_pos (by omega), ← BitVec.getLsbD_eq_getElem]
  congr 1; omega

theorem fieldZ_commandWord (op a b : BitVec 8) (imm : BitVec 32) : fieldZ (commandWord op a b imm) = 0#8 := by
  unfold fieldZ commandWord
  ext i hi
  simp only [BitVec.getElem_extractLsb', BitVec.getLsbD_append]
  rw [if_neg (by omega), if_pos (by omega)]
  simp

theorem fieldImm_commandWord (op a b : BitVec 8) (imm : BitVec 32) : fieldImm (commandWord op a b imm) = imm := by
  unfold fieldImm commandWord
  ext i hi
  simp only [BitVec.getElem_extractLsb', BitVec.getLsbD_append]
  rw [if_pos (by omega), ← BitVec.getLsbD_eq_getElem]
  congr 1; omega

/-- Every word is its five fields, one after another. -/
theorem word_of_fields (w : CmdWord) :
    (fieldOp w ++ fieldA w ++ fieldB w ++ fieldZ w ++ fieldImm w : BitVec 64) = w := by
  apply BitVec.eq_of_getLsbD_eq
  intro i hi
  simp only [BitVec.getLsbD_append, fieldOp, fieldA, fieldB, fieldZ, fieldImm, BitVec.getLsbD_extractLsb']
  split
  · simp [*]
  · split
    · simp only [decide_true, Bool.true_and, *]; congr 1; omega
    · split
      · simp only [decide_true, Bool.true_and, *]; congr 1; omega
      · split
        · simp only [decide_true, Bool.true_and, *]; congr 1; omega
        · rw [decide_eq_true (by omega : _), Bool.true_and]; congr 1; omega

/-- A word with Z = 0 is the command word of its other fields. -/
theorem commandWord_fields (w : CmdWord) (h : fieldZ w = 0#8) :
    commandWord (fieldOp w) (fieldA w) (fieldB w) (fieldImm w) = w := by
  have := word_of_fields w
  rw [h] at this
  exact this

theorem accept_ok {unusedZero inRange : Bool} {i j : Instr} :
    accept unusedZero inRange i = .ok j ↔ unusedZero = true ∧ inRange = true ∧ i = j := by
  unfold accept
  cases unusedZero <;> cases inRange <;> simp

end Sys2Proof
end

