-- ==== Sys2Proof/Laws/Packer.lean ====
section
/-! SUPPORT. What the packer's loop does to the accumulator, the byte count and OUTB (spec/43_bit_packer.md R151). -/

namespace Sys2Proof.Machine

/-- The bits of `c` that fill no byte. -/
def leftOver (c : Bits) : Bits := c.drop (8 * (c.length / 8))

theorem leftOver_length (c : Bits) : (leftOver c).length = c.length % 8 := by
  rw [leftOver, List.length_drop]; omega

theorem leftOver_short (c : Bits) (h : c.length < 8) : leftOver c = c := by
  rw [leftOver, show c.length / 8 = 0 by omega]; rfl

theorem leftOver_eight (c rest : Bits) (h : c.length = 8) : leftOver (c ++ rest) = leftOver rest := by
  unfold leftOver
  rw [List.length_append, show 8 * ((c.length + rest.length) / 8) = c.length + 8 * (rest.length / 8) by omega,
    List.drop_append, List.drop_eq_nil_of_le (by omega)]
  simp

/-- A bitstring is the whole groups of its bytes and what is left over. -/
theorem whole_groups (c : Bits) : c.take (8 * (c.length / 8)) ++ leftOver c = c := List.take_append_drop _ _

/-- Bits in two portions: what the first leaves over comes in front of the second. -/
theorem leftOver_append (c d : Bits) : leftOver (c ++ d) = leftOver (leftOver c ++ d) := by
  have hl := leftOver_length c
  unfold leftOver at hl ⊢
  rw [List.length_append (as := List.drop _ _), hl, List.length_append,
    show 8 * ((c.length + d.length) / 8) = 8 * (c.length / 8) + 8 * ((c.length % 8 + d.length) / 8) by omega,
    ← List.drop_drop, List.drop_append_of_le_length (by omega)]

theorem bytesOfBits_portions (c d : Bits) :
    bytesOfBits (c ++ d) = bytesOfBits c ++ bytesOfBits (leftOver c ++ d) := by
  have hlen : (c.take (8 * (c.length / 8))).length % 8 = 0 := by rw [List.length_take]; omega
  have hs : bytesOfBits (leftOver c) = [] := bytesOfBits_short _ (by rw [leftOver_length]; omega)
  conv_lhs => rw [← whole_groups c, List.append_assoc, bytesOfBits_append _ _ hlen]
  conv_rhs => rw [← whole_groups c, bytesOfBits_append _ _ hlen, hs, List.append_nil, whole_groups]

theorem groups_portions (c d : Bits) :
    (c ++ d).length / 8 = c.length / 8 + (leftOver c ++ d).length / 8 := by
  rw [List.length_append, List.length_append, leftOver_length]
  omega

/-- The waiting bits of the packer are `waiting`: NACC of them, held in ACC first bit on top (10_state.md R31). -/
def Waits (waiting : Bits) (b : Block) : Prop := waiting.length = b.nacc.toNat ∧ img waiting = b.acc.toNat

/-- One bit into the accumulator: the bit goes behind those waiting, or completes a byte. -/
theorem packBit_spec {waiting : Bits} {s : State} (h : Waits waiting s.block) (bit : Bool) :
    (waiting.length < 7 → Waits (waiting ++ [bit]) (packBit s bit).block ∧
      packBit s bit = { s with block.acc := (packBit s bit).block.acc, block.nacc := (packBit s bit).block.nacc }) ∧
    (waiting.length = 7 → packBit s bit =
      { s with
        block.acc := 0#8, block.nacc := 0#3, block.bytecnt := satInc s.block.bytecnt
        host.outb := s.host.outb ++ [BitVec.ofNat 8 (img (waiting ++ [bit]))] }) := by
  obtain ⟨hl, hi⟩ := h
  have hacc : ((s.block.acc <<< 1) ||| (BitVec.ofBool bit).setWidth 8) = BitVec.ofNat 8 (img (waiting ++ [bit])) := by
    rw [img_concat, hi]
    generalize s.block.acc = acc
    apply BitVec.eq_of_toNat_eq
    have hor : ∀ n : Nat, (2 * n) ||| bit.toNat = 2 * n + bit.toNat := fun n => by
      have := Bool.toNat_le bit
      have h2 := Nat.two_pow_add_eq_or_of_lt (i := 1) (b := bit.toNat) (by omega) n
      rw [pow_one] at h2
      exact h2.symm
    have hb : ((BitVec.ofBool bit).setWidth 8).toNat = bit.toNat := by cases bit <;> rfl
    have hs : (acc <<< 1).toNat = 2 * (acc.toNat % 128) := by
      rw [BitVec.toNat_shiftLeft, Nat.shiftLeft_eq]
      omega
    rw [BitVec.toNat_or, hb, hs, hor, BitVec.toNat_ofNat]
    have := Bool.toNat_le bit
    omega
  constructor
  · intro h7
    have hn : s.block.nacc ≠ 7#3 := fun he => by rw [he] at hl; simp at hl; omega
    have hp : packBit s bit = { s with
        block.acc := BitVec.ofNat 8 (img (waiting ++ [bit])), block.nacc := s.block.nacc + 1#3 } := by
      simp only [packBit, hacc, hn, if_false]
    rw [hp]
    refine ⟨⟨?_, ?_⟩, rfl⟩
    · simp only [List.length_append, List.length_singleton, BitVec.toNat_add, BitVec.toNat_ofNat]
      omega
    · have hlt := img_lt (waiting ++ [bit])
      have : 2 ^ (waiting ++ [bit]).length ≤ 2 ^ 8 := Nat.pow_le_pow_right (by omega) (by simp; omega)
      simp only [BitVec.toNat_ofNat]
      omega
  · intro h7
    have hn : s.block.nacc = 7#3 := BitVec.eq_of_toNat_eq (by simp; omega)
    simp only [packBit, hacc, hn, if_true, emitCountedByte, emitB]

/-- The bits of a code into the accumulator: every byte they complete goes out, the rest waits. -/
theorem packBits_spec (bits : Bits) {waiting : Bits} {s : State} (h : Waits waiting s.block) :
    packBits bits s =
      { s with
        block.acc := BitVec.ofNat 8 (img (leftOver (waiting ++ bits)))
        block.nacc := BitVec.ofNat 3 ((waiting ++ bits).length % 8)
        block.bytecnt := satInc^[(waiting ++ bits).length / 8] s.block.bytecnt
        host.outb := s.host.outb ++ bytesOfBits (waiting ++ bits) } := by
  have hlt : waiting.length < 8 := by rw [h.1]; exact s.block.nacc.isLt
  induction bits generalizing waiting s with
  | nil =>
    have h1 : BitVec.ofNat 8 (img waiting) = s.block.acc := by rw [h.2]; simp
    have h2 : BitVec.ofNat 3 (waiting.length % 8) = s.block.nacc := by
      rw [Nat.mod_eq_of_lt hlt, h.1]; simp
    rw [List.append_nil, leftOver_short _ hlt, h1, h2, bytesOfBits_short _ hlt, Nat.div_eq_of_lt hlt, List.append_nil]
    rfl
  | cons bit bits ih =>
    have hstep : packBits (bit :: bits) s = packBits bits (packBit s bit) := rfl
    obtain ⟨hin, hout⟩ := packBit_spec h bit
    have hassoc : waiting ++ bit :: bits = (waiting ++ [bit]) ++ bits := by simp
    rw [hstep, hassoc]
    by_cases h7 : waiting.length = 7
    · have h8 : (waiting ++ [bit]).length = 8 := by simp [h7]
      rw [hout h7, ih (waiting := []) ⟨rfl, rfl⟩ (by simp)]
      rw [List.nil_append, leftOver_eight _ _ h8, bytesOfBits_eight _ _ h8, List.length_append (bs := bits), h8,
        show (8 + bits.length) / 8 = bits.length / 8 + 1 by omega, show (8 + bits.length) % 8 = bits.length % 8 by omega,
        Function.iterate_succ_apply]
      simp
    · obtain ⟨hw, he⟩ := hin (by omega)
      rw [ih hw (by simp; omega), he]

/-- After the loop the bits that fill no byte wait. -/
theorem packBits_waits (bits : Bits) {waiting : Bits} {s : State} (h : Waits waiting s.block) :
    Waits (leftOver (waiting ++ bits)) (packBits bits s).block := by
  rw [packBits_spec bits h]
  have hl := leftOver_length (waiting ++ bits)
  have hlt := img_lt (leftOver (waiting ++ bits))
  have : 2 ^ (leftOver (waiting ++ bits)).length ≤ 2 ^ 8 := Nat.pow_le_pow_right (by omega) (by omega)
  refine ⟨?_, ?_⟩
  · rw [hl]
    simp
  · simp only [BitVec.toNat_ofNat]
    omega

/-- There are such waiting bits whenever the accumulator holds no bit above NACC (10_state.md R41 (c)). -/
theorem exists_waits (b : Block) (h : b.acc.toNat < 2 ^ b.nacc.toNat) : ∃ waiting, Waits waiting b := by
  refine ⟨lowBits b.nacc.toNat b.acc, by simp [lowBits], ?_⟩
  have key : ∀ (n : Nat), img (lowBits n b.acc) = b.acc.toNat % 2 ^ n := by
    intro n
    induction n with
    | zero => simp [lowBits, Nat.mod_one]
    | succ n ih =>
      have hcons : lowBits (n + 1) b.acc = [b.acc.getLsbD n] ++ lowBits n b.acc := by
        simp only [lowBits, List.range_succ_eq_map, List.map_cons, List.map_map, List.singleton_append]
        congr 1
        refine List.map_congr_left fun i hi => ?_
        simp only [Function.comp_apply]
        congr 1
        omega
      have h1 : img [b.acc.getLsbD n] = (b.acc.getLsbD n).toNat := by simp [img]
      rw [hcons, img_append, ih, h1, show (lowBits n b.acc).length = n by simp [lowBits], ← BitVec.testBit_toNat,
        Nat.toNat_testBit, Nat.mod_pow_succ, Nat.mul_comm, Nat.add_comm]
  rw [key, Nat.mod_eq_of_lt h]

/-- The loop touches the accumulator, the byte count and OUTB, whatever the accumulator holds. -/
theorem packBits_frame (bits : Bits) (s : State) : ∃ acc nacc bytecnt out,
    packBits bits s = { s with
      block.acc := acc, block.nacc := nacc, block.bytecnt := bytecnt, host.outb := s.host.outb ++ out } := by
  induction bits generalizing s with
  | nil => exact ⟨_, _, _, [], by rw [List.append_nil]; rfl⟩
  | cons bit bits ih =>
    obtain ⟨acc, nacc, bytecnt, out, h⟩ := ih (packBit s bit)
    have hstep : packBits (bit :: bits) s = packBits bits (packBit s bit) := rfl
    rw [hstep, h]
    unfold packBit
    dsimp only
    split
    · exact ⟨acc, nacc, bytecnt, _ :: out, by simp only [emitCountedByte, emitB, List.append_assoc, List.singleton_append]; rfl⟩
    · exact ⟨acc, nacc, bytecnt, out, rfl⟩

/-- What PSYM can do. -/
theorem packSymbol_frame (sym : Sym) (s : State) :
    (codeAt s.block sym = [] ∧ packSymbol sym s = raise .noCodeError (encode (.psym sym)) s) ∨
    ∃ acc nacc bytecnt out, packSymbol sym s = { s with
      block.acc := acc, block.nacc := nacc, block.bytecnt := bytecnt, block.symcnt := satInc s.block.symcnt
      host.outb := s.host.outb ++ out } := by
  by_cases h : codeAt s.block sym = []
  · exact .inl ⟨h, by simp only [packSymbol, h, if_true]⟩
  · obtain ⟨acc, nacc, bytecnt, out, hp⟩ := packBits_frame (codeAt s.block sym) s
    exact .inr ⟨acc, nacc, bytecnt, out, by simp only [packSymbol, h, if_false, hp]⟩

/-- What PFIN can do. -/
theorem finishPacking_frame (s : State) : ∃ padcnt bytecnt out, out.length ≤ 1 ∧
    finishPacking s = { s with
      block.acc := 0#8, block.nacc := 0#3, block.padcnt := padcnt, block.bytecnt := bytecnt, block.mode := .idle
      host.outb := s.host.outb ++ out } := by
  unfold finishPacking flushByte
  split
  · exact ⟨_, _, [], by simp, by rw [List.append_nil]⟩
  · exact ⟨_, _, [_], by simp, rfl⟩

end Sys2Proof.Machine
end

