-- ==== Sys2Proof/Laws/PerInstr.lean ====
section
/-! SUPPORT. A fact about every command's word, one lemma per constructor: its OP is the one its row of spec/30_encoding.md R84
names, its Z is zero (R81, R87), and its A field is its symbol or byte where it has one and zero where it has none (R82, R83). -/

namespace Sys2Proof.Laws.EncodedFields

/-- The OP of a command, from the "OP" column of R84. -/
def opOf : Instr → BitVec 8
  | .nop => 0x00#8
  | .srst => 0x01#8
  | .rdstat => 0x02#8
  | .rdcnt _ => 0x03#8
  | .fclr => 0x10#8
  | .fset _ _ => 0x11#8
  | .frd _ => 0x12#8
  | .build => 0x20#8
  | .nrd _ _ => 0x21#8
  | .gen => 0x28#8
  | .tclr => 0x30#8
  | .tdel _ => 0x31#8
  | .tapp _ _ _ => 0x32#8
  | .tchk => 0x33#8
  | .tlen _ => 0x34#8
  | .tbits _ _ => 0x35#8
  | .pstart => 0x40#8
  | .psym _ => 0x41#8
  | .pfin => 0x42#8
  | .ustart _ _ => 0x50#8
  | .ubyte _ => 0x51#8
  | .ufin => 0x52#8

/-- The symbol or byte a command carries in its A field; zero for a command that has none. -/
def symbolOf : Instr → BitVec 8
  | .nop => 0#8
  | .srst => 0#8
  | .rdstat => 0#8
  | .rdcnt _ => 0#8
  | .fclr => 0#8
  | .fset sym _ => sym
  | .frd sym => sym
  | .build => 0#8
  | .nrd _ _ => 0#8
  | .gen => 0#8
  | .tclr => 0#8
  | .tdel sym => sym
  | .tapp sym _ _ => sym
  | .tchk => 0#8
  | .tlen sym => sym
  | .tbits sym _ => sym
  | .pstart => 0#8
  | .psym sym => sym
  | .pfin => 0#8
  | .ustart _ _ => 0#8
  | .ubyte byte => byte
  | .ufin => 0#8

/-- OP, A and Z of a command's word. -/
def Statement (i : Instr) : Prop :=
  fieldOp (encode i) = opOf i ∧ fieldA (encode i) = symbolOf i ∧ fieldZ (encode i) = 0#8

theorem nop : Statement (.nop) :=
  ⟨fieldOp_commandWord _ _ _ _, fieldA_commandWord _ _ _ _, fieldZ_commandWord _ _ _ _⟩

theorem srst : Statement (.srst) :=
  ⟨fieldOp_commandWord _ _ _ _, fieldA_commandWord _ _ _ _, fieldZ_commandWord _ _ _ _⟩

theorem rdstat : Statement (.rdstat) :=
  ⟨fieldOp_commandWord _ _ _ _, fieldA_commandWord _ _ _ _, fieldZ_commandWord _ _ _ _⟩

theorem rdcnt (sel : BitVec 4) : Statement (.rdcnt sel) :=
  ⟨fieldOp_commandWord _ _ _ _, fieldA_commandWord _ _ _ _, fieldZ_commandWord _ _ _ _⟩

theorem fclr : Statement (.fclr) :=
  ⟨fieldOp_commandWord _ _ _ _, fieldA_commandWord _ _ _ _, fieldZ_commandWord _ _ _ _⟩

theorem fset (sym : Sym) (count : Freq) : Statement (.fset sym count) :=
  ⟨fieldOp_commandWord _ _ _ _, fieldA_commandWord _ _ _ _, fieldZ_commandWord _ _ _ _⟩

theorem frd (sym : Sym) : Statement (.frd sym) :=
  ⟨fieldOp_commandWord _ _ _ _, fieldA_commandWord _ _ _ _, fieldZ_commandWord _ _ _ _⟩

theorem build : Statement (.build) :=
  ⟨fieldOp_commandWord _ _ _ _, fieldA_commandWord _ _ _ _, fieldZ_commandWord _ _ _ _⟩

theorem nrd (sel : BitVec 2) (idx : NodeIdx) : Statement (.nrd sel idx) :=
  ⟨fieldOp_commandWord _ _ _ _, fieldA_commandWord _ _ _ _, fieldZ_commandWord _ _ _ _⟩

theorem gen : Statement (.gen) :=
  ⟨fieldOp_commandWord _ _ _ _, fieldA_commandWord _ _ _ _, fieldZ_commandWord _ _ _ _⟩

theorem tclr : Statement (.tclr) :=
  ⟨fieldOp_commandWord _ _ _ _, fieldA_commandWord _ _ _ _, fieldZ_commandWord _ _ _ _⟩

theorem tdel (sym : Sym) : Statement (.tdel sym) :=
  ⟨fieldOp_commandWord _ _ _ _, fieldA_commandWord _ _ _ _, fieldZ_commandWord _ _ _ _⟩

theorem tapp (sym : Sym) (n : BitVec 8) (v : BitVec 32) : Statement (.tapp sym n v) :=
  ⟨fieldOp_commandWord _ _ _ _, fieldA_commandWord _ _ _ _, fieldZ_commandWord _ _ _ _⟩

theorem tchk : Statement (.tchk) :=
  ⟨fieldOp_commandWord _ _ _ _, fieldA_commandWord _ _ _ _, fieldZ_commandWord _ _ _ _⟩

theorem tlen (sym : Sym) : Statement (.tlen sym) :=
  ⟨fieldOp_commandWord _ _ _ _, fieldA_commandWord _ _ _ _, fieldZ_commandWord _ _ _ _⟩

theorem tbits (sym : Sym) (k : BitVec 3) : Statement (.tbits sym k) :=
  ⟨fieldOp_commandWord _ _ _ _, fieldA_commandWord _ _ _ _, fieldZ_commandWord _ _ _ _⟩

theorem pstart : Statement (.pstart) :=
  ⟨fieldOp_commandWord _ _ _ _, fieldA_commandWord _ _ _ _, fieldZ_commandWord _ _ _ _⟩

theorem psym (sym : Sym) : Statement (.psym sym) :=
  ⟨fieldOp_commandWord _ _ _ _, fieldA_commandWord _ _ _ _, fieldZ_commandWord _ _ _ _⟩

theorem pfin : Statement (.pfin) :=
  ⟨fieldOp_commandWord _ _ _ _, fieldA_commandWord _ _ _ _, fieldZ_commandWord _ _ _ _⟩

theorem ustart (limEn : Bool) (explen : Count) : Statement (.ustart limEn explen) :=
  ⟨fieldOp_commandWord _ _ _ _, fieldA_commandWord _ _ _ _, fieldZ_commandWord _ _ _ _⟩

theorem ubyte (byte : Byte) : Statement (.ubyte byte) :=
  ⟨fieldOp_commandWord _ _ _ _, fieldA_commandWord _ _ _ _, fieldZ_commandWord _ _ _ _⟩

theorem ufin : Statement (.ufin) :=
  ⟨fieldOp_commandWord _ _ _ _, fieldA_commandWord _ _ _ _, fieldZ_commandWord _ _ _ _⟩

end Sys2Proof.Laws.EncodedFields
end

