-- ==== Sys2Proof/Laws/Runs.lean ====
section
/-! SUPPORT. Runs of several commands (spec/00_scope.md R8). -/

namespace Sys2Proof.Machine

theorem execAll_cons {i : Instr} {rest : List Instr} {s t : State} (h : exec i s = .next t) :
    execAll (i :: rest) s = execAll rest t := by
  simp only [execAll, h]

theorem execAll_append {front back : List Instr} {s t : State} (h : execAll front s = .next t) :
    execAll (front ++ back) s = execAll back t := by
  induction front generalizing s with
  | nil =>
    simp only [execAll, Host.Outcome.next.injEq] at h
    rw [h, List.nil_append]
  | cons i rest ih =>
    obtain ⟨u, hu⟩ := exec_total i s
    rw [execAll_cons hu] at h
    rw [List.cons_append, execAll_cons hu, ih h]

/-- Every run answers a next state. -/
theorem execAll_total (l : List Instr) (s : State) : ∃ t, execAll l s = .next t := by
  induction l generalizing s with
  | nil => exact ⟨s, rfl⟩
  | cons i rest ih =>
    obtain ⟨u, hu⟩ := exec_total i s
    rw [execAll_cons hu]
    exact ih u

end Sys2Proof.Machine
end

