-- ==== Sys2Proof/Laws/Tree.lean ====
section
/-! SUPPORT. The merge loop of BUILD (spec/41_tree_builder.md R112 to R116): the order of the priority structure, one merge, the
invariant of the loop, and the finished tree. -/

namespace Sys2Proof.Machine

/-! ## The order of the priority structure (R113) -/

theorem comesBefore_iff (nodes : List Node) (i j : Nat) :
    comesBefore nodes i j = true ↔ LighterThan nodes i j := by
  simp only [comesBefore, LighterThan, Bool.or_eq_true, Bool.and_eq_true, decide_eq_true_eq, beq_iff_eq,
    ← BitVec.toNat_inj]

theorem LighterThan.trans {nodes : List Node} {i j k : Nat} (h : LighterThan nodes i j) (h' : LighterThan nodes j k) :
    LighterThan nodes i k := by
  unfold LighterThan at *; omega

theorem lighter_total (nodes : List Node) {i j : Nat} (h : i ≠ j) : LighterThan nodes i j ∨ LighterThan nodes j i := by
  unfold LighterThan; omega

theorem firstOf_mem (nodes : List Node) (m : Nat) (l : List Nat) : firstOf nodes m l ∈ m :: l := by
  induction l generalizing m with
  | nil => simp [firstOf]
  | cons i rest ih =>
    simp only [firstOf]
    by_cases hb : comesBefore nodes i m = true
    · simp only [hb, if_true]
      exact List.mem_cons_of_mem _ (ih i)
    · simp only [hb, if_false, Bool.false_eq_true]
      rcases List.mem_cons.mp (ih m) with h | h
      · rw [h]; simp
      · simp [h]

theorem firstOf_least (nodes : List Node) (m : Nat) (l : List Nat) :
    ∀ j ∈ m :: l, j ≠ firstOf nodes m l → LighterThan nodes (firstOf nodes m l) j := by
  induction l generalizing m with
  | nil => intro j hj hne; simp [firstOf] at hj hne; exact absurd hj hne
  | cons i rest ih =>
    intro j hj hne
    simp only [firstOf] at hne ⊢
    by_cases hb : comesBefore nodes i m = true
    · simp only [hb, if_true] at hne ⊢
      rcases List.mem_cons.mp hj with rfl | hj
      · have h1 := (comesBefore_iff nodes i j).mp hb
        by_cases he : i = firstOf nodes i rest
        · rw [← he]; exact h1
        · exact (ih i i (by simp) he).trans h1
      · exact ih i j hj hne
    · simp only [hb, if_false, Bool.false_eq_true] at hne ⊢
      rcases List.mem_cons.mp hj with rfl | hj
      · exact ih j j (by simp) hne
      · rcases List.mem_cons.mp hj with rfl | hj
        · by_cases hjm : j = m
          · subst hjm; exact ih j j (by simp) hne
          · have h1 : LighterThan nodes m j := by
              rcases lighter_total nodes hjm with h | h
              · exact absurd ((comesBefore_iff nodes j m).mpr h) hb
              · exact h
            by_cases he : m = firstOf nodes m rest
            · rw [← he]; exact h1
            · exact (ih m m (by simp) he).trans h1
        · exact ih m j (List.mem_cons_of_mem _ hj) hne

/-- What `extract_min` gives: a member that comes before every other, and the others. -/
theorem extractMin_some {nodes : List Node} {active rest : List Nat} {a : Nat}
    (h : extractMin nodes active = some (a, rest)) :
    a ∈ active ∧ rest = active.erase a ∧ ∀ j ∈ active, j ≠ a → LighterThan nodes a j := by
  cases active with
  | nil => simp [extractMin] at h
  | cons i l =>
    simp only [extractMin, Option.some.injEq, Prod.mk.injEq] at h
    obtain ⟨rfl, rfl⟩ := h
    exact ⟨firstOf_mem nodes i l, rfl, firstOf_least nodes i l⟩

/-- With two members or more a merge takes the first two (R114). -/
theorem mergeOnce_spec (nodes : List Node) (active : List Nat) (hn : active.Nodup) (h2 : 2 ≤ active.length) :
    ∃ a b, a ∈ active ∧ b ∈ active ∧ a ≠ b ∧ (∀ j ∈ active, j ≠ a → LighterThan nodes a j) ∧
      (∀ j ∈ active, j ≠ a → j ≠ b → LighterThan nodes b j) ∧
      mergeOnce nodes active =
        (nodes ++ [internalNode nodes a b], (active.erase a).erase b ++ [nodes.length]) := by
  match active, hn, h2 with
  | i :: i' :: l, hn, _ =>
    obtain ⟨a, rest, hx⟩ : ∃ a rest, extractMin nodes (i :: i' :: l) = some (a, rest) := ⟨_, _, rfl⟩
    obtain ⟨ha, hrest, hla⟩ := extractMin_some hx
    have hlen : rest.length = l.length + 1 := by
      rw [hrest, List.length_erase_of_mem ha]; simp
    obtain ⟨b, rest', hx'⟩ : ∃ b rest', extractMin nodes rest = some (b, rest') := by
      cases rest with
      | nil => simp at hlen
      | cons r rs => exact ⟨_, _, rfl⟩
    obtain ⟨hb, hrest', hlb⟩ := extractMin_some hx'
    rw [hrest] at hb hlb hrest'
    have hmem := fun j => (hn.mem_erase_iff (a := j) (b := a))
    have hb' := (hmem b).mp hb
    refine ⟨a, b, ha, hb'.2, Ne.symm hb'.1, hla, fun j hj hja hjb => hlb j ((hmem j).mpr ⟨hja, hj⟩) hjb, ?_⟩
    simp only [mergeOnce, hx, hx', hrest']

/-! ## Nodes are only appended -/

theorem getElem?_append_old {nodes : List Node} {x : Node} {i : Nat} (h : i < nodes.length) :
    (nodes ++ [x])[i]? = nodes[i]? := List.getElem?_append_left h

theorem weightAt_append_old {nodes : List Node} {x : Node} {i : Nat} (h : i < nodes.length) :
    weightAt (nodes ++ [x]) i = weightAt nodes i := by
  simp only [weightAt, getElem?_append_old h]

theorem isParent_append_old {nodes : List Node} {x : Node} {i j : Nat} (h : i < nodes.length) :
    IsParent (nodes ++ [x]) i j ↔ IsParent nodes i j := by
  simp only [IsParent, getElem?_append_old h]

theorem isParent_lt {nodes : List Node} {i j : Nat} (h : IsParent nodes i j) : i < nodes.length := by
  obtain ⟨nd, hnd, _⟩ := h
  exact (List.getElem?_eq_some_iff.mp hnd).1

theorem isParent_append_new {nodes : List Node} {x : Node} {j : Nat} :
    IsParent (nodes ++ [x]) nodes.length j ↔ x.kind = .internal ∧ (x.left.toNat = j ∨ x.right.toNat = j) := by
  simp [IsParent]

theorem unmerged_append_old {nodes : List Node} {x : Node} {k j : Nat} (h : k ≤ nodes.length) :
    Unmerged (nodes ++ [x]) k j ↔ Unmerged nodes k j := by
  unfold Unmerged
  refine and_congr_right fun _ => forall_congr' fun i => ?_
  refine forall_congr' fun hi => not_congr (isParent_append_old (by omega))

theorem lighterThan_append_old {nodes : List Node} {x : Node} {i j : Nat} (hi : i < nodes.length) (hj : j < nodes.length) :
    LighterThan (nodes ++ [x]) i j ↔ LighterThan nodes i j := by
  unfold LighterThan
  rw [weightAt_append_old hi, weightAt_append_old hj]

/-! ## The invariant of the loop -/

/-- The sum of the weights of the listed nodes. -/
def weightSum (nodes : List Node) (l : List Nat) : Nat := (l.map fun j => (weightAt nodes j).toNat).sum

/-- NODE and ACTIVE between two merges of a BUILD with the given leaves. -/
structure LoopInvariant (leaves nodes : List Node) (active : List Nat) : Prop where
  nodup : active.Nodup
  inRange : ∀ j ∈ active, j < nodes.length
  count : nodes.length + active.length = 2 * leaves.length
  nonempty : active ≠ []
  leavesFirst : nodes.take leaves.length = leaves
  enough : leaves.length ≤ nodes.length
  internals : ∀ (i : Nat) (nd : Node), leaves.length ≤ i → nodes[i]? = some nd →
    nd.kind = .internal ∧ nd.left.toNat < i ∧ nd.right.toNat < i ∧ nd.left ≠ nd.right ∧ nd.sym = 0#8 ∧
      nd.wt.toNat = (weightAt nodes nd.left.toNat).toNat + (weightAt nodes nd.right.toNat).toNat
  free : ∀ j ∈ active, ∀ i, ¬ IsParent nodes i j
  taken : ∀ j, j < nodes.length → j ∉ active → ∃ i, IsParent nodes i j ∧ ∀ i', IsParent nodes i' j → i' = i
  total : weightSum nodes active = (leaves.map fun x => x.wt.toNat).sum
  firstTwo : ∀ k, leaves.length ≤ k → k < nodes.length → MergesFirstTwo nodes k

theorem weightSum_append_old {nodes : List Node} {x : Node} {l : List Nat} (h : ∀ j ∈ l, j < nodes.length) :
    weightSum (nodes ++ [x]) l = weightSum nodes l := by
  unfold weightSum
  congr 1
  exact List.map_congr_left fun j hj => by rw [weightAt_append_old (h j hj)]

theorem weightSum_erase {nodes : List Node} {l : List Nat} {a : Nat} (h : a ∈ l) :
    (weightAt nodes a).toNat + weightSum nodes (l.erase a) = weightSum nodes l := by
  unfold weightSum
  have := ((List.perm_cons_erase h).map fun j => (weightAt nodes j).toNat).sum_eq
  simpa using this.symm

theorem unmerged_last_iff {leaves nodes : List Node} {active : List Nat} (h : LoopInvariant leaves nodes active) (j : Nat) :
    Unmerged nodes nodes.length j ↔ j ∈ active := by
  constructor
  · rintro ⟨hj, hp⟩
    by_contra hn
    obtain ⟨i, hi, _⟩ := h.taken j hj hn
    exact hp i (isParent_lt hi) hi
  · intro hj
    exact ⟨h.inRange j hj, fun i _ => h.free j hj i⟩

theorem mergesFirstTwo_append_old {nodes : List Node} {x : Node} {k : Nat} (hk : k < nodes.length)
    (h : MergesFirstTwo nodes k) : MergesFirstTwo (nodes ++ [x]) k := by
  obtain ⟨nd, h1, h2, hs, hw, h3, h4, h5, h6, h7⟩ := h
  have hle : k ≤ nodes.length := by omega
  have hl := h3.1
  have hr := h4.1
  refine ⟨nd, by rw [getElem?_append_old hk]; exact h1, h2, hs,
    by rw [weightAt_append_old (by omega), weightAt_append_old (by omega)]; exact hw, (unmerged_append_old hle).mpr h3,
    (unmerged_append_old hle).mpr h4, h5, fun j hj hne => ?_, fun j hj hne hne' => ?_⟩
  · have hj' := (unmerged_append_old hle).mp hj
    exact (lighterThan_append_old (by have := h3.1; omega) (by have := hj'.1; omega)).mpr (h6 j hj' hne)
  · have hj' := (unmerged_append_old hle).mp hj
    exact (lighterThan_append_old (by have := h4.1; omega) (by have := hj'.1; omega)).mpr (h7 j hj' hne hne')

theorem parent_not_leaf {leaves nodes : List Node} {active : List Nat} (h : LoopInvariant leaves nodes active)
    (hleaf : ∀ x ∈ leaves, x.kind = .leaf) {i : Nat} {nd : Node} (hnd : nodes[i]? = some nd) (hk : nd.kind = .internal) :
    leaves.length ≤ i := by
  by_contra hlt
  have hx : leaves[i]? = some nd := by
    rw [← hnd, ← h.leavesFirst, List.getElem?_take_of_lt (by simpa using hlt)]
  rw [hleaf nd (List.mem_of_getElem? hx)] at hk
  cases hk

/-- One merge keeps the loop's invariant (R114, R116). -/
theorem mergeOnce_invariant {leaves nodes : List Node} {active : List Nat} (h : LoopInvariant leaves nodes active)
    (hleaf : ∀ x ∈ leaves, x.kind = .leaf) (hsize : leaves.length ≤ 256)
    (hsum : (leaves.map fun x => x.wt.toNat).sum < 2 ^ 40) (h2 : 2 ≤ active.length) :
    LoopInvariant leaves (mergeOnce nodes active).1 (mergeOnce nodes active).2 ∧
      (mergeOnce nodes active).2.length + 1 = active.length := by
  obtain ⟨a, b, ha, hb, hab, hla, hlb, hm⟩ := mergeOnce_spec nodes active h.nodup h2
  rw [hm]
  have hca := h.inRange a ha
  have hcb := h.inRange b hb
  have hcount := h.count
  have hlt : nodes.length < 511 := by omega
  have hA : (internalNode nodes a b).left.toNat = a := by simp [internalNode]; omega
  have hB : (internalNode nodes a b).right.toNat = b := by simp [internalNode]; omega
  have hAB : (internalNode nodes a b).left ≠ (internalNode nodes a b).right := fun he => by
    rw [← BitVec.toNat_inj, hA, hB] at he; exact hab he
  have hbe : b ∈ active.erase a := h.nodup.mem_erase_iff.mpr ⟨Ne.symm hab, hb⟩
  have hse := weightSum_erase (nodes := nodes) ha
  have hse' := weightSum_erase (nodes := nodes) hbe
  have htot := h.total
  have hwt : (internalNode nodes a b).wt.toNat = (weightAt nodes a).toNat + (weightAt nodes b).toNat := by
    simp only [internalNode, BitVec.toNat_add]
    omega
  have hmem : ∀ j, j ∈ (active.erase a).erase b ↔ j ≠ b ∧ j ≠ a ∧ j ∈ active := fun j => by
    rw [(h.nodup.erase a).mem_erase_iff, h.nodup.mem_erase_iff]
  have hin : ∀ j ∈ (active.erase a).erase b, j < nodes.length := fun j hj => h.inRange j ((hmem j).mp hj).2.2
  have hlen : ((active.erase a).erase b).length + 2 = active.length := by
    rw [List.length_erase_of_mem hbe, List.length_erase_of_mem ha]; omega
  have hnew : ∀ i, ¬ IsParent nodes i nodes.length := by
    rintro i ⟨nd, hnd, hk, hlr⟩
    have hi := (List.getElem?_eq_some_iff.mp hnd).1
    have := h.internals i nd (parent_not_leaf h hleaf hnd hk) hnd
    omega
  have hlast : (nodes ++ [internalNode nodes a b])[nodes.length]? = some (internalNode nodes a b) := by simp
  have hpar : ∀ j, IsParent (nodes ++ [internalNode nodes a b]) nodes.length j ↔ a = j ∨ b = j := fun j => by
    rw [isParent_append_new, hA, hB]; exact and_iff_right rfl
  have hnot : ∀ i, IsParent (nodes ++ [internalNode nodes a b]) i nodes.length → False := by
    intro i hi
    have hil := isParent_lt hi
    rw [List.length_append, List.length_singleton] at hil
    rcases Nat.lt_or_ge i nodes.length with hi' | hi'
    · exact hnew i ((isParent_append_old hi').mp hi)
    · obtain rfl : i = nodes.length := by omega
      have := (hpar _).mp hi
      omega
  refine ⟨{ nodup := ?_, inRange := ?_, count := ?_, nonempty := by simp, leavesFirst := ?_, enough := ?_,
            internals := ?_, free := ?_, taken := ?_, total := ?_, firstTwo := ?_ }, ?_⟩
  · refine List.Nodup.append ((h.nodup.erase a).erase b) (List.nodup_singleton _) ?_
    intro j hj hj'
    have := hin j hj
    simp only [List.mem_singleton] at hj'
    omega
  · intro j hj
    simp only [List.mem_append, List.mem_singleton, List.length_append, List.length_singleton] at hj ⊢
    rcases hj with hj | rfl
    · have := hin j hj; omega
    · omega
  · simp only [List.length_append, List.length_singleton]; omega
  · rw [List.take_append_of_le_length h.enough]; exact h.leavesFirst
  · have := h.enough; simp only [List.length_append, List.length_singleton]; omega
  · intro i nd hi hnd
    rcases Nat.lt_or_ge i nodes.length with hi' | hi'
    · rw [getElem?_append_old hi'] at hnd
      obtain ⟨h1, h2, h3, h4, h5, h6⟩ := h.internals i nd hi hnd
      refine ⟨h1, h2, h3, h4, h5, ?_⟩
      rw [weightAt_append_old (by omega), weightAt_append_old (by omega)]; exact h6
    · have := (List.getElem?_eq_some_iff.mp hnd).1
      rw [List.length_append, List.length_singleton] at this
      obtain rfl : i = nodes.length := by omega
      rw [hlast] at hnd
      obtain rfl := Option.some.inj hnd
      refine ⟨rfl, by rw [hA]; exact hca, by rw [hB]; exact hcb, hAB, rfl, ?_⟩
      rw [hA, hB, weightAt_append_old hca, weightAt_append_old hcb]; exact hwt
  · intro j hj i hi
    simp only [List.mem_append, List.mem_singleton] at hj
    rcases hj with hj | rfl
    · have hil := isParent_lt hi
      rw [List.length_append, List.length_singleton] at hil
      obtain ⟨hjb, hja, hj⟩ := (hmem j).mp hj
      rcases Nat.lt_or_ge i nodes.length with hi' | hi'
      · exact h.free j hj i ((isParent_append_old hi').mp hi)
      · obtain rfl : i = nodes.length := by omega
        rcases (hpar j).mp hi with h | h
        · exact hja h.symm
        · exact hjb h.symm
    · exact hnot i hi
  · intro j hj hj'
    simp only [List.mem_append, List.mem_singleton, not_or, hmem, List.length_append, List.length_singleton] at hj hj'
    by_cases hjab : a = j ∨ b = j
    · refine ⟨nodes.length, (hpar j).mpr hjab, fun i' hi' => ?_⟩
      have hil := isParent_lt hi'
      rw [List.length_append, List.length_singleton] at hil
      by_contra hne
      refine h.free j ?_ i' ((isParent_append_old (by omega)).mp hi')
      rcases hjab with rfl | rfl <;> assumption
    · have hja : j ∉ active := fun hc => hj'.1 ⟨fun e => hjab (.inr e.symm), fun e => hjab (.inl e.symm), hc⟩
      obtain ⟨i, hi, hu⟩ := h.taken j (by omega) hja
      refine ⟨i, (isParent_append_old (isParent_lt hi)).mpr hi, fun i' hi' => ?_⟩
      have hil := isParent_lt hi'
      rw [List.length_append, List.length_singleton] at hil
      rcases Nat.lt_or_ge i' nodes.length with hlt' | hge
      · exact hu i' ((isParent_append_old hlt').mp hi')
      · obtain rfl : i' = nodes.length := by omega
        exact absurd ((hpar j).mp hi') hjab
  · have h1 : weightSum (nodes ++ [internalNode nodes a b]) ((active.erase a).erase b) =
        weightSum nodes ((active.erase a).erase b) := weightSum_append_old hin
    have h2 : (weightAt (nodes ++ [internalNode nodes a b]) nodes.length).toNat =
        (internalNode nodes a b).wt.toNat := by simp only [weightAt, hlast]
    have h3 : weightSum (nodes ++ [internalNode nodes a b]) ((active.erase a).erase b ++ [nodes.length]) =
        weightSum (nodes ++ [internalNode nodes a b]) ((active.erase a).erase b) +
          (weightAt (nodes ++ [internalNode nodes a b]) nodes.length).toNat := by simp [weightSum]
    rw [h3, h1, h2, hwt]
    omega
  · intro k hk hk'
    rw [List.length_append, List.length_singleton] at hk'
    rcases Nat.lt_or_ge k nodes.length with hlt' | hge
    · exact mergesFirstTwo_append_old hlt' (h.firstTwo k hk hlt')
    · obtain rfl : k = nodes.length := by omega
      have hu : ∀ j, Unmerged (nodes ++ [internalNode nodes a b]) nodes.length j ↔ j ∈ active := fun j =>
        (unmerged_append_old (Nat.le_refl _)).trans (unmerged_last_iff h j)
      refine ⟨_, hlast, rfl, rfl, ?_, ?_, ?_, hAB, ?_, ?_⟩
      · rw [hA, hB, weightAt_append_old hca, weightAt_append_old hcb]; exact hwt
      · rw [hA]; exact (hu a).mpr ha
      · rw [hB]; exact (hu b).mpr hb
      · intro j hj hne
        rw [hA] at hne ⊢
        have hj := (hu j).mp hj
        exact (lighterThan_append_old hca (h.inRange j hj)).mpr (hla j hj hne)
      · intro j hj hne hne'
        rw [hA] at hne
        rw [hB] at hne' ⊢
        have hj := (hu j).mp hj
        exact (lighterThan_append_old hcb (h.inRange j hj)).mpr (hlb j hj hne hne')
  · simp only [List.length_append, List.length_singleton]; omega

/-! ## The loop -/

theorem mergeLoop_invariant {leaves : List Node} (hleaf : ∀ x ∈ leaves, x.kind = .leaf) (hsize : leaves.length ≤ 256)
    (hsum : (leaves.map fun x => x.wt.toNat).sum < 2 ^ 40) (fuel : Nat) (nodes : List Node) (active : List Nat)
    (h : LoopInvariant leaves nodes active) (hf : active.length = fuel + 1) :
    LoopInvariant leaves (mergeLoop fuel nodes active).1 (mergeLoop fuel nodes active).2 ∧
      (mergeLoop fuel nodes active).2.length = 1 := by
  induction fuel generalizing nodes active with
  | zero => exact ⟨h, hf⟩
  | succ n ih =>
    obtain ⟨h', hl⟩ := mergeOnce_invariant h hleaf hsize hsum (by omega)
    simp only [mergeLoop, hf, show n + 1 + 1 ≥ 2 by omega, if_true]
    exact ih _ _ h' (by omega)

theorem range_invariant {leaves : List Node} (hleaf : ∀ x ∈ leaves, x.kind = .leaf) (hne : leaves ≠ []) :
    LoopInvariant leaves leaves (List.range leaves.length) where
  nodup := List.nodup_range
  inRange := fun j hj => List.mem_range.mp hj
  count := by rw [List.length_range]; omega
  nonempty := fun h => hne (List.length_eq_zero_iff.mp (List.range_eq_nil.mp h))
  leavesFirst := by simp
  enough := Nat.le_refl _
  internals := fun i nd hi hnd => by
    have := (List.getElem?_eq_some_iff.mp hnd).1
    omega
  free := by
    rintro j - i ⟨nd, hnd, hk, -⟩
    rw [hleaf nd (List.mem_of_getElem? hnd)] at hk
    cases hk
  taken := fun j hj hj' => absurd (List.mem_range.mpr hj) hj'
  total := by
    unfold weightSum
    congr 1
    refine List.ext_getElem (by simp) fun i h1 h2 => ?_
    simp only [List.length_map] at h2
    simp [weightAt, h2]
  firstTwo := fun k hk hk' => by omega

/-- The leaves BUILD may start from: 1 to 256, of kind leaf, each of weight at least 1 and without a child, in ascending
order of their symbols (R112). -/
structure LeafRow (leaves : List Node) : Prop where
  nonempty : leaves ≠ []
  size : leaves.length ≤ Config.nsym
  leaf : ∀ x ∈ leaves, x.kind = .leaf ∧ 1 ≤ x.wt.toNat ∧ x.left = 0#9 ∧ x.right = 0#9
  ascending : leaves.Pairwise fun x y => x.sym.toNat < y.sym.toNat
  fits : (leaves.map fun x => x.wt.toNat).sum < 2 ^ 40

/-- What BUILD's loop leaves (R111 to R116): one member in ACTIVE, the root, with the finished tree below it; the leaves
first; the root's weight the sum of theirs; and every internal node the merge of the two that came first. -/
theorem mergeAll_spec {leaves : List Node} (h : LeafRow leaves) :
    ∃ root, (mergeAll leaves).2 = [root] ∧
      TreeShape (mergeAll leaves).1 root leaves.length ∧
      (mergeAll leaves).1.take leaves.length = leaves ∧
      (weightAt (mergeAll leaves).1 root).toNat = (leaves.map fun x => x.wt.toNat).sum ∧
      ∀ k, leaves.length ≤ k → k < (mergeAll leaves).1.length → MergesFirstTwo (mergeAll leaves).1 k := by
  have hleaf : ∀ x ∈ leaves, x.kind = .leaf := fun x hx => (h.leaf x hx).1
  have hpos : 0 < leaves.length := List.length_pos_iff.mpr h.nonempty
  have hsize : leaves.length ≤ 256 := h.size
  obtain ⟨hi, hl⟩ := mergeLoop_invariant hleaf hsize h.fits (leaves.length - 1) leaves (List.range leaves.length)
    (range_invariant hleaf h.nonempty) (by rw [List.length_range]; omega)
  change LoopInvariant leaves (mergeAll leaves).1 (mergeAll leaves).2 at hi
  change (mergeAll leaves).2.length = 1 at hl
  generalize (mergeAll leaves).1 = nodes at *
  generalize (mergeAll leaves).2 = active at *
  obtain ⟨root, rfl⟩ := List.length_eq_one_iff.mp hl
  have hcount := hi.count
  rw [List.length_singleton] at hcount
  have hr := hi.inRange root (by simp)
  have hfree := hi.free root (by simp)
  have hold : ∀ i, i < leaves.length → nodes[i]? = leaves[i]? := fun i hlt => by
    conv_rhs => rw [← hi.leavesFirst]
    rw [List.getElem?_take_of_lt hlt]
  have hroot : root + 1 = nodes.length := by
    by_contra hne
    obtain ⟨i, ⟨nd, hnd, hk, hlr⟩, -⟩ := hi.taken (nodes.length - 1) (by omega) (by simp; omega)
    have hin := (List.getElem?_eq_some_iff.mp hnd).1
    have := hi.internals i nd (parent_not_leaf hi hleaf hnd hk) hnd
    omega
  have hkind : ∀ (i : Nat) (nd : Node), nodes[i]? = some nd → (nd.kind = .leaf ↔ i < leaves.length) := by
    intro i nd hnd
    constructor
    · intro hk
      by_contra hlt
      rw [(hi.internals i nd (by omega) hnd).1] at hk
      cases hk
    · intro hlt
      exact hleaf nd (List.mem_of_getElem? ((hold i hlt).symm.trans hnd))
  have hinternal : ∀ (i : Nat) (nd : Node), nodes[i]? = some nd → nd.kind = .internal → leaves.length ≤ i :=
    fun i nd hnd hk => parent_not_leaf hi hleaf hnd hk
  refine ⟨root, rfl, ?_, hi.leavesFirst, ?_, hi.firstTwo⟩
  · refine { leafCount := ⟨hpos, h.size⟩, size := by omega, rootLast := hroot, leavesFirst := hkind,
             leavesAscend := ?_, leafFields := ?_, children := ?_, weights := ?_, oneParent := ?_,
             rootFree := hfree }
    · intro i j x y hij hj hx hy
      rw [hold i (by omega)] at hx
      rw [hold j hj] at hy
      obtain ⟨h1, rfl⟩ := List.getElem?_eq_some_iff.mp hx
      obtain ⟨h2, rfl⟩ := List.getElem?_eq_some_iff.mp hy
      exact List.pairwise_iff_getElem.mp h.ascending i j h1 h2 hij
    · intro i nd hnd hk
      have hlt := (hkind i nd hnd).mp hk
      exact (h.leaf nd (List.mem_of_getElem? ((hold i hlt).symm.trans hnd))).2
    · intro i nd hnd hk
      obtain ⟨-, h2, h3, h4, h5, -⟩ := hi.internals i nd (hinternal i nd hnd hk) hnd
      exact ⟨h2, h3, h4, h5⟩
    · intro i nd hnd hk
      exact (hi.internals i nd (hinternal i nd hnd hk) hnd).2.2.2.2.2
    · intro j hj hne
      exact hi.taken j hj (by simpa using hne)
  · simpa [weightSum] using hi.total

/-! ## The leaves of BUILD (R112) -/

theorem leafNodes_eq (b : Block) :
    leafNodes b = (symbols.filter fun x => freqAt b x != 0#32).map fun x => leafNode x (freqAt b x) := by
  unfold leafNodes
  induction symbols with
  | nil => rfl
  | cons x rest ih =>
    by_cases h : freqAt b x = 0#32
    · simp [h, ih]
    · simp [h, ih]

theorem leafNodes_isEmpty (b : Block) : leafNodes b = [] ↔ ∀ x, freqAt b x = 0#32 := by
  rw [leafNodes_eq]
  simp [List.filter_eq_nil_iff, mem_symbols]

theorem leafNode_weight (x : Sym) (count : Freq) : (leafNode x count).wt.toNat = count.toNat := by
  have := count.isLt
  simp only [leafNode, BitVec.toNat_setWidth]
  omega

theorem leafNodes_weights (b : Block) :
    ((leafNodes b).map fun x => x.wt.toNat).sum = (symbols.map fun x => (freqAt b x).toNat).sum := by
  rw [leafNodes_eq, List.map_map]
  induction symbols with
  | nil => rfl
  | cons x rest ih =>
    by_cases h : freqAt b x = 0#32
    · simpa [h] using ih
    · simpa [h, leafNode_weight] using ih

theorem frequencies_fit (b : Block) : (symbols.map fun x => (freqAt b x).toNat).sum < 2 ^ 40 := by
  have h : (symbols.map fun x => (freqAt b x).toNat).sum ≤ (symbols.map fun x => (freqAt b x).toNat).length • (2 ^ 32 - 1) :=
    List.sum_le_card_nsmul _ _ (by
      intro n hn
      obtain ⟨x, -, rfl⟩ := List.mem_map.mp hn
      have := (freqAt b x).isLt
      omega)
  rw [List.length_map, symbols_length] at h
  simp only [smul_eq_mul] at h
  omega

/-- The leaves of a FREQ with a non-zero entry are ones BUILD may start from. -/
theorem leafNodes_row (b : Block) (h : ∃ x, freqAt b x ≠ 0#32) : LeafRow (leafNodes b) where
  nonempty := fun he => by
    obtain ⟨x, hx⟩ := h
    exact hx ((leafNodes_isEmpty b).mp he x)
  size := by
    rw [leafNodes_eq, List.length_map]
    exact (List.length_filter_le _ _).trans_eq symbols_length
  leaf := fun nd hnd => by
    rw [leafNodes_eq] at hnd
    obtain ⟨x, hx, rfl⟩ := List.mem_map.mp hnd
    have hx : freqAt b x ≠ 0#32 := by simpa using (List.mem_filter.mp hx).2
    refine ⟨rfl, ?_, rfl, rfl⟩
    rw [leafNode_weight]
    by_contra hc
    exact hx (BitVec.eq_of_toNat_eq (by simp; omega))
  ascending := by
    rw [leafNodes_eq, List.pairwise_map]
    exact symbols_rising.filter _
  fits := by rw [leafNodes_weights]; exact frequencies_fit b

/-- What BUILD can do. -/
theorem buildTree_cases (s : State) :
    ((∀ x, freqAt s.block x = 0#32) ∧ buildTree s = raise .treeError (encode .build) s) ∨
      ((∃ x, freqAt s.block x ≠ 0#32) ∧ buildTree s = plantTree (leafNodes s.block) s) := by
  by_cases h : ∀ x, freqAt s.block x = 0#32
  · exact .inl ⟨h, by simp only [buildTree, (leafNodes_isEmpty s.block).mpr h, List.isEmpty_nil, if_true]⟩
  · have hne : (leafNodes s.block).isEmpty = false := by
      rw [List.isEmpty_eq_false_iff]
      exact fun he => h ((leafNodes_isEmpty s.block).mp he)
    exact .inr ⟨not_forall.mp h, by simp only [buildTree, hne]; rfl⟩

end Sys2Proof.Machine
end

