-- ==== Sys2Proof/Laws/Unpacker.lean ====
section
/-! SUPPORT. The document's matching loop and the loop of UBYTE against it (spec/44_bit_unpacker.md R162, R163, R167). -/

namespace Sys2Proof.Machine

/-! ## The document's loop -/

theorem matchLoop_nil (code : Sym → Bits) (fuel : Nat) (h : ∀ x, code x ≠ [] → ¬ code x <+: []) :
    matchLoop code fuel [] = ([], []) := by
  cases fuel with
  | zero => rfl
  | succ n => simp only [matchLoop, matchIn_none.mpr h]

theorem nothing_matches_nil (code : Sym → Bits) : ∀ x, code x ≠ [] → ¬ code x <+: [] :=
  fun _ hx hp => hx (List.prefix_nil.mp hp)

/-- The loop cuts codes off the front: what it read is the codes of what it emits, and what is left. -/
theorem matchLoop_splits (code : Sym → Bits) (fuel : Nat) (pend : Bits) :
    bitsOfSeq code (matchLoop code fuel pend).1 ++ (matchLoop code fuel pend).2 = pend := by
  induction fuel generalizing pend with
  | zero => rfl
  | succ n ih =>
    simp only [matchLoop]
    split
    · rfl
    · rename_i sym hm
      obtain ⟨-, r, hr⟩ := matchIn_some hm
      have := ih (pend.drop (code sym).length)
      simp only [bitsOfSeq] at this ⊢
      rw [List.map_cons, List.flatten_cons, List.append_assoc, this, ← hr, List.drop_left]

/-- With the length of the buffer as fuel the loop goes on until nothing matches. -/
theorem matchLoop_ends (code : Sym → Bits) (fuel : Nat) (pend : Bits) (hf : pend.length ≤ fuel) :
    matchIn code (matchLoop code fuel pend).2 = none := by
  induction fuel generalizing pend with
  | zero =>
    obtain rfl := List.length_eq_zero_iff.mp (Nat.le_zero.mp hf)
    exact matchIn_none.mpr (nothing_matches_nil code)
  | succ n ih =>
    simp only [matchLoop]
    split
    · assumption
    · rename_i sym hm
      obtain ⟨hne, hp⟩ := matchIn_some hm
      have := List.length_pos_iff.mpr hne
      exact ih _ (by rw [List.length_drop]; omega)

/-- More fuel than the length of the buffer changes nothing. -/
theorem matchLoop_fuel (code : Sym → Bits) (fuel fuel' : Nat) (pend : Bits) (hf : pend.length ≤ fuel)
    (hf' : pend.length ≤ fuel') : matchLoop code fuel pend = matchLoop code fuel' pend := by
  induction fuel generalizing fuel' pend with
  | zero =>
    obtain rfl := List.length_eq_zero_iff.mp (Nat.le_zero.mp hf)
    rw [matchLoop_nil code _ (nothing_matches_nil code), matchLoop_nil code _ (nothing_matches_nil code)]
  | succ n ih =>
    cases fuel' with
    | zero =>
      obtain rfl := List.length_eq_zero_iff.mp (Nat.le_zero.mp hf')
      rw [matchLoop_nil code _ (nothing_matches_nil code), matchLoop_nil code _ (nothing_matches_nil code)]
    | succ m =>
      simp only [matchLoop]
      split
      · rfl
      · rename_i sym hm
        obtain ⟨hne, hp⟩ := matchIn_some hm
        have := List.length_pos_iff.mpr hne
        rw [ih m _ (by rw [List.length_drop]; omega) (by rw [List.length_drop]; omega)]

/-- The loop on a whole buffer. -/
def decodeBits (code : Sym → Bits) (pend : Bits) : List Sym × Bits := matchLoop code pend.length pend

theorem decodeBits_none {code : Sym → Bits} {pend : Bits} (h : matchIn code pend = none) :
    decodeBits code pend = ([], pend) := by
  unfold decodeBits
  cases pend with
  | nil => rfl
  | cons bit rest => simp only [List.length_cons, matchLoop, h]

theorem decodeBits_some {code : Sym → Bits} {pend : Bits} {x : Sym} (h : matchIn code pend = some x) :
    decodeBits code pend =
      (x :: (decodeBits code (pend.drop (code x).length)).1, (decodeBits code (pend.drop (code x).length)).2) := by
  obtain ⟨hne, hp⟩ := matchIn_some h
  have := List.length_pos_iff.mpr hne
  have := hp.length_le
  obtain ⟨n, hn⟩ : ∃ n, pend.length = n + 1 := ⟨pend.length - 1, by omega⟩
  unfold decodeBits
  rw [hn]
  simp only [matchLoop, h]
  rw [matchLoop_fuel code n (pend.drop (code x).length).length _ (by rw [List.length_drop]; omega) (Nat.le_refl _)]

theorem decodeBits_splits (code : Sym → Bits) (pend : Bits) :
    bitsOfSeq code (decodeBits code pend).1 ++ (decodeBits code pend).2 = pend := matchLoop_splits _ _ _

theorem decodeBits_ends (code : Sym → Bits) (pend : Bits) : matchIn code (decodeBits code pend).2 = none :=
  matchLoop_ends _ _ _ (Nat.le_refl _)

/-- With a prefix-free table a sequence in front of the buffer comes out as it went in. -/
theorem decodeBits_seq {code : Sym → Bits} (hp : PrefixFree code) (seq : List Sym) (hs : ∀ x ∈ seq, code x ≠ [])
    (tail : Bits) :
    decodeBits code (bitsOfSeq code seq ++ tail) = (seq ++ (decodeBits code tail).1, (decodeBits code tail).2) := by
  induction seq with
  | nil => rfl
  | cons x seq ih =>
    have hx := hs x (by simp)
    have he : bitsOfSeq code (x :: seq) ++ tail = code x ++ (bitsOfSeq code seq ++ tail) := by simp [bitsOfSeq]
    rw [he, decodeBits_some (matchIn_of_prefix hp hx (List.prefix_append _ _)), List.drop_left,
      ih fun y hy => hs y (List.mem_cons_of_mem _ hy)]
    rfl

/-- Every symbol the loop emits has a code. -/
theorem decodeBits_present (code : Sym → Bits) (pend : Bits) : ∀ x ∈ (decodeBits code pend).1, code x ≠ [] := by
  unfold decodeBits
  generalize pend.length = fuel
  induction fuel generalizing pend with
  | zero => simp [matchLoop]
  | succ n ih =>
    simp only [matchLoop]
    split
    · simp
    · rename_i sym hm
      simp only [List.mem_cons, forall_eq_or_imp]
      exact ⟨(matchIn_some hm).1, ih _⟩

/-- With a prefix-free table bits that come later change nothing that the earlier ones completed. -/
theorem decodeBits_append {code : Sym → Bits} (hp : PrefixFree code) (pend more : Bits) :
    decodeBits code (pend ++ more) =
      ((decodeBits code pend).1 ++ (decodeBits code ((decodeBits code pend).2 ++ more)).1,
        (decodeBits code ((decodeBits code pend).2 ++ more)).2) := by
  conv_lhs => rw [← decodeBits_splits code pend, List.append_assoc]
  exact decodeBits_seq hp _ (decodeBits_present code pend) _

/-- The document's decoder reads the bytes' bits as one stream (R167). -/
theorem unpackFrom_eq {code : Sym → Bits} (hp : PrefixFree code) (bytes : List Byte) (pend : Bits)
    (hn : matchIn code pend = none) :
    unpackFrom code pend bytes = (decodeBits code (pend ++ bytes.flatMap byteBits)).1 := by
  induction bytes generalizing pend with
  | nil => simp [unpackFrom, decodeBits_none hn]
  | cons byte rest ih =>
    have hstep : unpackFrom code pend (byte :: rest) = (decodeBits code (pend ++ byteBits byte)).1 ++
        unpackFrom code (decodeBits code (pend ++ byteBits byte)).2 rest := rfl
    rw [hstep, ih _ (decodeBits_ends code _), List.flatMap_cons, ← List.append_assoc,
      decodeBits_append hp (pend ++ byteBits byte)]

/-! ## The loop of UBYTE -/

theorem takeSymbol_code (x : Sym) (s : State) : codeAt (takeSymbol x s).block = codeAt s.block := rfl

theorem drain_succ_none {s : State} (n : Nat) (h : matchCode s.block s.block.pend = none) :
    drain (n + 1) s = (s, false) := by
  rw [drain, h]

theorem drain_succ_some {s : State} (n : Nat) {x : Sym} (h : matchCode s.block s.block.pend = some x) :
    drain (n + 1) s =
      if limitReached (takeSymbol x s).block then
        ({ takeSymbol x s with block.pend := [] }, true)
      else drain n (takeSymbol x s) := by
  rw [drain, h]

/-- Where the limit does not come into it, the loop emits what the document's loop emits and keeps what that keeps. -/
theorem drain_free (fuel : Nat) (s : State)
    (h : s.block.limitEn = false ∨
      s.block.symcnt.toNat + (matchLoop (codeAt s.block) fuel s.block.pend).1.length < s.block.explen.toNat) :
    drain fuel s =
      ({ s with
          block.pend := (matchLoop (codeAt s.block) fuel s.block.pend).2
          block.symcnt := satInc^[(matchLoop (codeAt s.block) fuel s.block.pend).1.length] s.block.symcnt
          host.outs := s.host.outs ++ (matchLoop (codeAt s.block) fuel s.block.pend).1 }, false) := by
  induction fuel generalizing s with
  | zero => simp [drain, matchLoop]
  | succ n ih =>
    cases hm : matchCode s.block s.block.pend with
    | none =>
      have hm' : matchIn (codeAt s.block) s.block.pend = none := hm
      rw [drain_succ_none n hm]
      simp [matchLoop, hm']
    | some x =>
      have hm' : matchIn (codeAt s.block) s.block.pend = some x := hm
      simp only [matchLoop, hm', List.length_cons] at h ⊢
      have hnl : limitReached (takeSymbol x s).block = false := by
        simp only [limitReached, takeSymbol_block, Bool.and_eq_false_imp, beq_eq_false_iff_ne]
        intro hl he
        have he := congrArg BitVec.toNat he
        rw [satInc_toNat] at he
        have := s.block.explen.isLt
        rcases h with h | h
        · rw [h] at hl; cases hl
        · omega
      rw [drain_succ_some n hm, hnl, ih (takeSymbol x s)]
      · simp only [Bool.false_eq_true, if_false]
        rw [takeSymbol_code, Function.iterate_succ_apply]
        simp [takeSymbol, emitS]
      · rcases h with h | h
        · exact .inl h
        · right
          rw [takeSymbol_code]
          simp only [takeSymbol_block, satInc_toNat]
          omega

/-- Where the bits complete all the symbols still expected, the loop emits those and drops the rest. -/
theorem drain_limited (fuel : Nat) (s : State) (hl : s.block.limitEn = true)
    (h0 : s.block.symcnt.toNat < s.block.explen.toNat)
    (h : s.block.explen.toNat ≤
      s.block.symcnt.toNat + (matchLoop (codeAt s.block) fuel s.block.pend).1.length) :
    drain fuel s =
      ({ s with
          block.pend := []
          block.symcnt := s.block.explen
          host.outs := s.host.outs ++ (matchLoop (codeAt s.block) fuel s.block.pend).1.take
            (s.block.explen.toNat - s.block.symcnt.toNat) }, true) := by
  induction fuel generalizing s with
  | zero => simp [matchLoop] at h; omega
  | succ n ih =>
    cases hm : matchCode s.block s.block.pend with
    | none =>
      have hm' : matchIn (codeAt s.block) s.block.pend = none := hm
      simp only [matchLoop, hm', List.length_nil] at h
      omega
    | some x =>
      have hm' : matchIn (codeAt s.block) s.block.pend = some x := hm
      simp only [matchLoop, hm', List.length_cons] at h ⊢
      have hs := satInc_toNat s.block.symcnt
      have := s.block.explen.isLt
      rw [drain_succ_some n hm]
      by_cases hr : s.block.symcnt.toNat + 1 = s.block.explen.toNat
      · have he : satInc s.block.symcnt = s.block.explen := BitVec.eq_of_toNat_eq (by omega)
        have hlr : limitReached (takeSymbol x s).block = true := by
          simp [limitReached, hl, he]
        rw [hlr, if_pos rfl, show s.block.explen.toNat - s.block.symcnt.toNat = 1 by omega]
        simp [takeSymbol, emitS, he]
      · have hlr : limitReached (takeSymbol x s).block = false := by
          simp only [limitReached, takeSymbol_block, Bool.and_eq_false_imp, beq_eq_false_iff_ne]
          intro _ he
          have he := congrArg BitVec.toNat he
          omega
        have hsub : s.block.explen.toNat - s.block.symcnt.toNat =
            (s.block.explen.toNat - (satInc s.block.symcnt).toNat) + 1 := by omega
        rw [hlr, ih (takeSymbol x s) hl]
        · simp only [Bool.false_eq_true, if_false]
          rw [takeSymbol_code, hsub, List.take_succ_cons]
          simp [takeSymbol, emitS]
        · simp only [takeSymbol_block]; omega
        · rw [takeSymbol_code]; simp only [takeSymbol_block]; omega

/-- The loop touches PEND, SYMCNT and OUTS, whatever the table is. -/
theorem drain_frame (fuel : Nat) (s : State) : ∃ pend symcnt out,
    (drain fuel s).1 = { s with
      block.pend := pend, block.symcnt := symcnt, host.outs := s.host.outs ++ out } := by
  induction fuel generalizing s with
  | zero => exact ⟨_, _, [], by rw [List.append_nil]; rfl⟩
  | succ n ih =>
    cases hm : matchCode s.block s.block.pend with
    | none => exact ⟨_, _, [], by rw [drain_succ_none n hm, List.append_nil]⟩
    | some x =>
      rw [drain_succ_some n hm]
      split
      · exact ⟨_, _, [x], rfl⟩
      · obtain ⟨pend, symcnt, out, h⟩ := ih (takeSymbol x s)
        exact ⟨pend, symcnt, x :: out, by rw [h]; simp [takeSymbol, emitS]⟩

/-! ## What UBYTE does (R163), in its three cases -/

/-- The byte's bits behind those pending, and the byte counted. -/
def feed (byte : Byte) (s : State) : State :=
  { s with block.bytecnt := satInc s.block.bytecnt, block.pend := s.block.pend ++ byteBits byte }

theorem unpackByte_at_limit (byte : Byte) (s : State) (h : limitReached s.block = true) :
    unpackByte byte s = { s with block.bytecnt := satInc s.block.bytecnt } := by
  have h' : limitReached { s.block with bytecnt := satInc s.block.bytecnt } = true := h
  simp only [unpackByte, h', if_true]

theorem unpackByte_below_limit (byte : Byte) (s : State) (h : limitReached s.block = false) :
    unpackByte byte s =
      let drained := drain (s.block.pend ++ byteBits byte).length (feed byte s)
      if drained.2 then drained.1
      else if drained.1.block.pend.length ≥ drained.1.block.lmax.toNat then
        raise .streamError (encode (.ubyte byte)) drained.1
      else drained.1 := by
  have h' : limitReached { s.block with bytecnt := satInc s.block.bytecnt } = false := h
  simp only [unpackByte, h']
  rfl

/-- The last of the expected symbols comes: what is left is dropped. -/
theorem unpackByte_reaches_limit (byte : Byte) (s : State) (hl : s.block.limitEn = true)
    (h0 : s.block.symcnt.toNat < s.block.explen.toNat)
    (h : s.block.explen.toNat ≤
      s.block.symcnt.toNat + (decodeBits (codeAt s.block) (s.block.pend ++ byteBits byte)).1.length) :
    unpackByte byte s =
      { s with
        block.bytecnt := satInc s.block.bytecnt
        block.pend := []
        block.symcnt := s.block.explen
        host.outs := s.host.outs ++ (decodeBits (codeAt s.block) (s.block.pend ++ byteBits byte)).1.take
          (s.block.explen.toNat - s.block.symcnt.toNat) } := by
  have hne : s.block.symcnt ≠ s.block.explen := fun he => by rw [he] at h0; omega
  have hd := drain_limited (s.block.pend ++ byteBits byte).length (feed byte s) hl h0 h
  rw [unpackByte_below_limit byte s (by simp [limitReached, hne]), hd]
  rfl

/-- The limit does not come into it: every symbol the bits complete is emitted, and LMAX bits or more left over are a
StreamError (R165). -/
theorem unpackByte_free (byte : Byte) (s : State)
    (h : s.block.limitEn = false ∨
      s.block.symcnt.toNat + (decodeBits (codeAt s.block) (s.block.pend ++ byteBits byte)).1.length <
        s.block.explen.toNat) :
    unpackByte byte s =
      let found := decodeBits (codeAt s.block) (s.block.pend ++ byteBits byte)
      let kept : State := { s with
        block.bytecnt := satInc s.block.bytecnt
        block.pend := found.2
        block.symcnt := satInc^[found.1.length] s.block.symcnt
        host.outs := s.host.outs ++ found.1 }
      if s.block.lmax.toNat ≤ found.2.length then raise .streamError (encode (.ubyte byte)) kept else kept := by
  have hn : limitReached s.block = false := by
    rcases h with h | h
    · simp [limitReached, h]
    · have hne : s.block.symcnt ≠ s.block.explen := fun he => by rw [he] at h; omega
      simp [limitReached, hne]
  have hd := drain_free (s.block.pend ++ byteBits byte).length (feed byte s) h
  rw [unpackByte_below_limit byte s hn, hd]
  rfl

/-- What UBYTE can do, whatever the table and the counts are. -/
theorem unpackByte_frame (byte : Byte) (s : State) : ∃ pend symcnt out,
    let done : State := { s with
      block.bytecnt := satInc s.block.bytecnt, block.pend := pend, block.symcnt := symcnt
      host.outs := s.host.outs ++ out }
    unpackByte byte s = done ∨ unpackByte byte s = raise .streamError (encode (.ubyte byte)) done := by
  cases hl : limitReached s.block with
  | true => exact ⟨s.block.pend, s.block.symcnt, [], .inl (by rw [unpackByte_at_limit byte s hl, List.append_nil])⟩
  | false =>
    obtain ⟨pend, symcnt, out, h⟩ := drain_frame (s.block.pend ++ byteBits byte).length (feed byte s)
    refine ⟨pend, symcnt, out, ?_⟩
    rw [unpackByte_below_limit byte s hl]
    dsimp only
    rw [h]
    split
    · exact .inl rfl
    · split
      · exact .inr rfl
      · exact .inl rfl

/-- What UFIN can do. -/
theorem finishUnpacking_cases (s : State) :
    finishUnpacking s = raise .shortError (encode .ufin) s ∨
      finishUnpacking s = { s with block.pend := [], block.mode := .idle } := by
  unfold finishUnpacking
  split
  · exact .inl rfl
  · exact .inr rfl

end Sys2Proof.Machine
end

