-- ==== Sys2Proof/Laws/Walk.lean ====
section
/-! SUPPORT. Paths in a finished tree, and the table GEN's walk records (spec/42_code_table.md R132, R133; 10_state.md R42). -/

namespace Sys2Proof.Machine

/-! ## Paths -/

theorem descend_append (nodes : List Node) (i : Nat) (p q : Bits) :
    descend nodes i (p ++ q) = (descend nodes i p).bind fun j => descend nodes j q := by
  induction p generalizing i with
  | nil => rfl
  | cons bit p ih =>
    simp only [List.cons_append, descend]
    cases hnd : nodes[i]? with
    | none => rfl
    | some nd =>
      cases hk : nd.kind with
      | leaf => simp [hk]
      | internal => simp [hk, ih]

/-- The child of an internal node. -/
theorem descend_single {nodes : List Node} {i j : Nat} {bit : Bool} (h : descend nodes i [bit] = some j) :
    IsParent nodes i j := by
  simp only [descend] at h
  cases hnd : nodes[i]? with
  | none => simp [hnd] at h
  | some nd =>
    cases hk : nd.kind with
    | leaf => simp [hnd, hk] at h
    | internal =>
      simp only [hnd, hk, Option.some.injEq] at h
      refine ⟨nd, hnd, hk, ?_⟩
      cases bit
      · exact .inl (by simpa using h)
      · exact .inr (by simpa using h)

/-- A path of at least one edge ends in a child of the node before its last edge. -/
theorem descend_concat {nodes : List Node} {i j : Nat} {p : Bits} {bit : Bool}
    (h : descend nodes i (p ++ [bit]) = some j) : ∃ u, descend nodes i p = some u ∧ IsParent nodes u j := by
  rw [descend_append] at h
  cases hu : descend nodes i p with
  | none => simp [hu] at h
  | some u => exact ⟨u, rfl, descend_single (by simpa [hu] using h)⟩

/-- No path goes on from a leaf. -/
theorem descend_leaf {nodes : List Node} {i : Nat} {nd : Node} (hnd : nodes[i]? = some nd) (hk : nd.kind = .leaf)
    {p : Bits} {j : Nat} (h : descend nodes i p = some j) : p = [] ∧ j = i := by
  cases p with
  | nil => exact ⟨rfl, by simpa [descend, eq_comm] using h⟩
  | cons bit p => simp [descend, hnd, hk] at h

variable {nodes : List Node} {root nleaf : Nat}

theorem isParent_lt_parent (h : TreeShape nodes root nleaf) {i j : Nat} (hp : IsParent nodes i j) : j < i := by
  obtain ⟨nd, hnd, hk, hlr⟩ := hp
  have := h.children i nd hnd hk
  omega

/-- Two nodes with a common child are one. -/
theorem parent_unique (h : TreeShape nodes root nleaf) {i i' j : Nat} (hp : IsParent nodes i j)
    (hp' : IsParent nodes i' j) : i = i' := by
  have hlt := isParent_lt_parent h hp
  have hi := isParent_lt hp
  obtain ⟨k, -, hk⟩ := h.oneParent j (by omega) (fun hr => h.rootFree i (hr ▸ hp))
  rw [hk i hp, hk i' hp']

/-- A path leads down: the number of its edges is at most the difference of the indices. -/
theorem descend_le (h : TreeShape nodes root nleaf) {i j : Nat} {p : Bits} (hd : descend nodes i p = some j) :
    j + p.length ≤ i := by
  induction p using List.reverseRecOn generalizing j with
  | nil => simp only [descend, Option.some.injEq] at hd; simp [hd]
  | append_singleton p bit ih =>
    obtain ⟨u, hu, hp⟩ := descend_concat hd
    have := ih hu
    have := isParent_lt_parent h hp
    rw [List.length_append, List.length_singleton]
    omega

/-- Of two paths that end in one node, one starts on the other. -/
theorem descend_meet (h : TreeShape nodes root nleaf) {a b j : Nat} {p q : Bits} (hp : descend nodes a p = some j)
    (hq : descend nodes b q = some j) :
    (∃ r, descend nodes a r = some b) ∨ ∃ r, descend nodes b r = some a := by
  induction p using List.reverseRecOn generalizing j q with
  | nil =>
    simp only [descend, Option.some.injEq] at hp
    exact .inr ⟨q, hp ▸ hq⟩
  | append_singleton p bit ih =>
    rcases List.eq_nil_or_concat' q with rfl | ⟨q, bit', rfl⟩
    · simp only [descend, Option.some.injEq] at hq
      exact .inl ⟨_, hq ▸ hp⟩
    · obtain ⟨u, hu, hpu⟩ := descend_concat hp
      obtain ⟨v, hv, hpv⟩ := descend_concat hq
      rw [parent_unique h hpu hpv] at hu
      exact ih hu hv

/-- Below the two children of a node there is no node in common. -/
theorem descend_siblings (h : TreeShape nodes root nleaf) {i : Nat} {nd : Node} (hnd : nodes[i]? = some nd)
    (hk : nd.kind = .internal) {j : Nat} {p q : Bits} (hp : descend nodes nd.left.toNat p = some j)
    (hq : descend nodes nd.right.toNat q = some j) : False := by
  obtain ⟨hl, hr, hne, -⟩ := h.children i nd hnd hk
  have hlp : IsParent nodes i nd.left.toNat := ⟨nd, hnd, hk, .inl rfl⟩
  have hrp : IsParent nodes i nd.right.toNat := ⟨nd, hnd, hk, .inr rfl⟩
  have key : ∀ a b : Nat, IsParent nodes i b → a < i → a ≠ b → ∀ r, descend nodes a r ≠ some b := by
    intro a b hb ha hab r hr
    rcases List.eq_nil_or_concat' r with rfl | ⟨r, bit, rfl⟩
    · simp only [descend, Option.some.injEq] at hr
      exact hab hr
    · obtain ⟨u, hu, hpu⟩ := descend_concat hr
      obtain rfl := parent_unique h hpu hb
      have := descend_le h hu
      omega
  have hne' : nd.left.toNat ≠ nd.right.toNat := fun e => hne (BitVec.eq_of_toNat_eq e)
  rcases descend_meet h hp hq with ⟨r, hr'⟩ | ⟨r, hr'⟩
  · exact key _ _ hrp hl hne' r hr'
  · exact key _ _ hlp hr (Ne.symm hne') r hr'

/-- Two leaves with one symbol are one leaf. -/
theorem leaf_unique (h : TreeShape nodes root nleaf) {i j : Nat} {x y : Node} (hx : nodes[i]? = some x)
    (hy : nodes[j]? = some y) (hkx : x.kind = .leaf) (hky : y.kind = .leaf) (hs : x.sym = y.sym) : i = j := by
  have hi := (h.leavesFirst i x hx).mp hkx
  have hj := (h.leavesFirst j y hy).mp hky
  rcases Nat.lt_trichotomy i j with hlt | heq | hgt
  · have := h.leavesAscend i j x y hlt hj hx hy
    rw [hs] at this
    omega
  · exact heq
  · have := h.leavesAscend j i y x hgt hi hy hx
    rw [hs] at this
    omega

/-- The symbols below one child are not below the other. -/
theorem leadsTo_siblings (h : TreeShape nodes root nleaf) {i : Nat} {nd : Node} (hnd : nodes[i]? = some nd)
    (hk : nd.kind = .internal) {x : Sym} {p q : Bits} (hp : LeadsTo nodes nd.left.toNat p x)
    (hq : LeadsTo nodes nd.right.toNat q x) : False := by
  obtain ⟨j, a, hd, ha, hka, hsa⟩ := hp
  obtain ⟨j', a', hd', ha', hka', hsa'⟩ := hq
  obtain rfl := leaf_unique h ha ha' hka hka' (hsa.trans hsa'.symm)
  exact descend_siblings h hnd hk hd hd'

theorem leadsTo_leaf {i : Nat} {nd : Node} (hnd : nodes[i]? = some nd) (hk : nd.kind = .leaf) {p : Bits} {x : Sym} :
    LeadsTo nodes i p x ↔ p = [] ∧ x = nd.sym := by
  constructor
  · rintro ⟨j, a, hd, ha, -, rfl⟩
    obtain ⟨rfl, rfl⟩ := descend_leaf hnd hk hd
    rw [hnd] at ha
    exact ⟨rfl, by rw [Option.some.inj ha]⟩
  · rintro ⟨rfl, rfl⟩
    exact ⟨i, nd, rfl, hnd, hk, rfl⟩

theorem leadsTo_internal {i : Nat} {nd : Node} (hnd : nodes[i]? = some nd) (hk : nd.kind = .internal) {p : Bits}
    {x : Sym} :
    LeadsTo nodes i p x ↔
      (∃ q, p = false :: q ∧ LeadsTo nodes nd.left.toNat q x) ∨ ∃ q, p = true :: q ∧ LeadsTo nodes nd.right.toNat q x := by
  cases p with
  | nil =>
    simp only [LeadsTo, descend, reduceCtorEq, false_and, exists_false, or_false, iff_false]
    rintro ⟨j, a, hj, ha, hka, -⟩
    rw [← Option.some.inj hj, hnd] at ha
    rw [← Option.some.inj ha, hk] at hka
    cases hka
  | cons bit q =>
    cases bit <;> simp [LeadsTo, descend, hnd, hk]

/-! ## The walk (R132) -/

/-- What `walk(i, p)` records: `p ++ q` for a symbol whose leaf is reached from `i` along `q`; no other entry changes. -/
theorem walk_spec (h : TreeShape nodes root nleaf) (fuel i : Nat) (p : Bits) (t : Table Bits) (hi : i < nodes.length)
    (hf : i < fuel) (x : Sym) :
    (∀ q, LeadsTo nodes i q x → codeIn (walk nodes fuel i p t) x = p ++ q) ∧
    ((∀ q, ¬ LeadsTo nodes i q x) → codeIn (walk nodes fuel i p t) x = codeIn t x) := by
  induction fuel generalizing i p t with
  | zero => omega
  | succ n ih =>
    obtain ⟨nd, hnd⟩ : ∃ nd, nodes[i]? = some nd := ⟨_, List.getElem?_eq_getElem hi⟩
    cases hk : nd.kind with
    | leaf =>
      simp only [walk, hnd, hk, leadsTo_leaf hnd hk, codeIn_codeWith]
      constructor
      · rintro q ⟨rfl, rfl⟩; simp
      · intro hq
        rw [if_neg fun hx => hq [] ⟨rfl, hx⟩]
    | internal =>
      obtain ⟨hl, hr, -⟩ := h.children i nd hnd hk
      have hL := ih nd.left.toNat (p ++ [false]) t (by omega) (by omega)
      have hR := ih nd.right.toNat (p ++ [true]) (walk nodes n nd.left.toNat (p ++ [false]) t) (by omega) (by omega)
      simp only [walk, hnd, hk, leadsTo_internal hnd hk]
      constructor
      · rintro q (⟨q, rfl, hq⟩ | ⟨q, rfl, hq⟩)
        · rw [hR.2 fun q' hq' => leadsTo_siblings h hnd hk hq hq', hL.1 q hq]
          simp
        · rw [hR.1 q hq]
          simp
      · intro hq
        rw [hR.2 fun q' hq' => hq _ (.inr ⟨q', rfl, hq'⟩), hL.2 fun q' hq' => hq _ (.inl ⟨q', rfl, hq'⟩)]

theorem walk_wf (nodes : List Node) (fuel i : Nat) (p : Bits) (t : Table Bits)
    (h : Table.wf Config.nsym unlistedCode t = true) :
    Table.wf Config.nsym unlistedCode (walk nodes fuel i p t) = true := by
  induction fuel generalizing i p t with
  | zero => exact h
  | succ n ih =>
    unfold walk
    split
    · exact h
    · split
      · exact codeWith_wf _ _ _ h
      · exact ih _ _ _ (ih _ _ _ h)

/-- GEN's table is in canonical form whatever the tree. -/
theorem treeCodes_wf (nodes : List Node) (root : Nat) :
    Table.wf Config.nsym unlistedCode (treeCodes nodes root) = true := by
  unfold treeCodes
  split
  · rfl
  · split
    · exact codeWith_wf _ _ _ rfl
    · exact walk_wf _ _ _ _ _ rfl

/-! ## The table of a finished tree -/

theorem root_node (h : TreeShape nodes root nleaf) : ∃ nd, nodes[root]? = some nd := by
  have := h.rootLast
  exact ⟨_, List.getElem?_eq_getElem (by omega)⟩

/-- The root of a tree with two leaves or more is internal. -/
theorem root_internal (h : TreeShape nodes root nleaf) (hn : nleaf ≠ 1) {nd : Node} (hnd : nodes[root]? = some nd) :
    nd.kind = .internal := by
  cases hk : nd.kind with
  | internal => rfl
  | leaf =>
    have h1 := (h.leavesFirst root nd hnd).mp hk
    have h2 := h.rootLast
    have h3 := h.size
    have h4 := h.leafCount
    omega

/-- With two leaves or more a symbol's code is the path from the root to its leaf (R132). -/
theorem treeCodes_paths (h : TreeShape nodes root nleaf) (hn : nleaf ≠ 1) (x : Sym) (c : Bits) :
    (codeIn (treeCodes nodes root) x = c ∧ c ≠ []) ↔ LeadsTo nodes root c x := by
  obtain ⟨nd, hnd⟩ := root_node h
  have hk := root_internal h hn hnd
  have hr := h.rootLast
  have hw := walk_spec h nodes.length root [] [] (by omega) (by omega) x
  have he : treeCodes nodes root = walk nodes nodes.length root [] [] := by simp only [treeCodes, hnd, hk]
  rw [he]
  constructor
  · rintro ⟨rfl, hc⟩
    by_cases hq : ∃ q, LeadsTo nodes root q x
    · obtain ⟨q, hq⟩ := hq
      rw [hw.1 q hq]
      exact hq
    · rw [hw.2 fun q hq' => hq ⟨q, hq'⟩] at hc
      exact absurd rfl hc
  · intro hq
    refine ⟨hw.1 c hq, ?_⟩
    rintro rfl
    rw [leadsTo_internal hnd hk] at hq
    rcases hq with ⟨q, hq, -⟩ | ⟨q, hq, -⟩ <;> cases hq

/-- The one-symbol code (R133). -/
theorem treeCodes_single (h : TreeShape nodes root 1) {nd : Node} (hnd : nodes[0]? = some nd) (x : Sym) :
    codeIn (treeCodes nodes root) x = if x = nd.sym then [false] else [] := by
  have h1 := h.rootLast
  have h2 := h.size
  obtain rfl : root = 0 := by omega
  have hk : nd.kind = .leaf := (h.leavesFirst 0 nd hnd).mpr (by omega)
  simp only [treeCodes, hnd, hk, codeIn_codeWith, codeIn_nil]

/-- A path to a leaf has at most NLEAF - 1 edges (R143 (b)). -/
theorem leadsTo_length (h : TreeShape nodes root nleaf) {c : Bits} {x : Sym}
    (hc : LeadsTo nodes root c x) : c.length ≤ nleaf - 1 := by
  obtain ⟨j, nd, hd, hnd, hk, -⟩ := hc
  have h2 := h.rootLast
  have h3 := h.size
  have h4 := h.leafCount
  rcases List.eq_nil_or_concat' c with rfl | ⟨p, bit, rfl⟩
  · simp
  · obtain ⟨u, hu, a, ha, hka, -⟩ := descend_concat hd
    have := descend_le h hu
    have hnl : ¬ u < nleaf := fun hlt => by
      rw [(h.leavesFirst u a ha).mpr hlt] at hka
      cases hka
    rw [List.length_append, List.length_singleton]
    omega

/-- Every node of a finished tree is reached from its root. -/
theorem reached_from_root (h : TreeShape nodes root nleaf) (j : Nat) (hj : j < nodes.length) :
    ∃ p, descend nodes root p = some j := by
  induction hm : nodes.length - j using Nat.strongRecOn generalizing j with
  | ind m ih =>
    by_cases hr : j = root
    · exact ⟨[], by rw [hr]; rfl⟩
    · obtain ⟨i, hp, -⟩ := h.oneParent j hj hr
      have h1 := isParent_lt hp
      have h2 := isParent_lt_parent h hp
      obtain ⟨p, hd⟩ := ih (nodes.length - i) (by omega) i h1 rfl
      obtain ⟨nd, hnd, hk, hlr⟩ := hp
      rcases hlr with hl | hl
      · exact ⟨p ++ [false], by simp [descend_append, hd, descend, hnd, hk, hl]⟩
      · exact ⟨p ++ [true], by simp [descend_append, hd, descend, hnd, hk, hl]⟩

/-- A symbol has a code exactly when a leaf carries it (R134). -/
theorem treeCodes_present (h : TreeShape nodes root nleaf) (x : Sym) :
    codeIn (treeCodes nodes root) x ≠ [] ↔ ∃ (i : Nat) (nd : Node), nodes[i]? = some nd ∧ nd.kind = .leaf ∧ nd.sym = x := by
  by_cases hn : nleaf = 1
  · subst hn
    obtain ⟨nd, hnd⟩ := root_node h
    have h1 := h.rootLast
    have h2 := h.size
    obtain rfl : root = 0 := by omega
    rw [treeCodes_single h hnd]
    constructor
    · intro hx
      by_cases he : x = nd.sym
      · exact ⟨0, nd, hnd, (h.leavesFirst 0 nd hnd).mpr (by omega), he.symm⟩
      · simp [he] at hx
    · rintro ⟨i, a, ha, hk, rfl⟩
      have := (h.leavesFirst i a ha).mp hk
      obtain rfl : i = 0 := by omega
      rw [hnd] at ha
      rw [Option.some.inj ha]
      simp
  · constructor
    · intro hx
      obtain ⟨j, nd, -, hnd, hk, hs⟩ := (treeCodes_paths h hn x _).mp ⟨rfl, hx⟩
      exact ⟨j, nd, hnd, hk, hs⟩
    · rintro ⟨i, nd, hnd, hk, hs⟩
      obtain ⟨p, hp⟩ := reached_from_root h i (List.getElem?_eq_some_iff.mp hnd).1
      obtain ⟨he, hne⟩ := (treeCodes_paths h hn x p).mpr ⟨i, nd, hp, hnd, hk, hs⟩
      rw [he]
      exact hne

/-- A finished tree's table is prefix-free (R143 (c)): no path goes on from a leaf. -/
theorem treeCodes_prefixFree (h : TreeShape nodes root nleaf) : PrefixFree (codeIn (treeCodes nodes root)) := by
  intro x y hxy hx hy hpre
  by_cases hn : nleaf = 1
  · subst hn
    obtain ⟨nd, hnd⟩ := root_node h
    have h1 := h.rootLast
    have h2 := h.size
    obtain rfl : root = 0 := by omega
    rw [treeCodes_single h hnd] at hx hy
    by_cases hx' : x = nd.sym
    · by_cases hy' : y = nd.sym
      · exact hxy (hx'.trans hy'.symm)
      · simp [hy'] at hy
    · simp [hx'] at hx
  · obtain ⟨j, a, hd, ha, hka, hsa⟩ := (treeCodes_paths h hn x _).mp ⟨rfl, hx⟩
    obtain ⟨j', b, hd', hb, hkb, hsb⟩ := (treeCodes_paths h hn y _).mp ⟨rfl, hy⟩
    obtain ⟨r, hr⟩ := hpre
    rw [← hr, descend_append, hd] at hd'
    obtain ⟨-, rfl⟩ := descend_leaf ha hka (by simpa using hd')
    rw [ha] at hb
    exact hxy (by rw [← hsa, ← hsb, Option.some.inj hb])

/-- No code of a finished tree's table is longer than MAXLEN. -/
theorem treeCodes_fit (h : TreeShape nodes root nleaf) (x : Sym) :
    (codeIn (treeCodes nodes root) x).length ≤ Config.maxlen := by
  by_cases hx : codeIn (treeCodes nodes root) x = []
  · simp [hx]
  · by_cases hn : nleaf = 1
    · subst hn
      obtain ⟨nd, hnd⟩ := root_node h
      have h1 := h.rootLast
      have h2 := h.size
      obtain rfl : root = 0 := by omega
      rw [treeCodes_single h hnd]
      split <;> simp
    · have := leadsTo_length h ((treeCodes_paths h hn x _).mp ⟨rfl, hx⟩)
      have := h.leafCount
      simp only [Config.nsym, Config.maxlen] at *
      omega

/-- A finished tree's table has a code. -/
theorem treeCodes_nonempty (h : TreeShape nodes root nleaf) : ∃ x, codeIn (treeCodes nodes root) x ≠ [] := by
  have h1 := h.leafCount
  have h2 := h.size
  obtain ⟨nd, hnd⟩ : ∃ nd, nodes[0]? = some nd := ⟨_, List.getElem?_eq_getElem (by omega)⟩
  exact ⟨nd.sym, (treeCodes_present h nd.sym).mpr ⟨0, nd, hnd, (h.leavesFirst 0 nd hnd).mpr (by omega), rfl⟩⟩

end Sys2Proof.Machine
end

