-- ==== Sys2Proof/Tests/Slice0.lean ====
section
/-! SUPPORT. The author's own tests. Expected values come from spec/95_test_vectors.md (its section is named) or are written out
by hand from the encoding tables of spec/30_encoding.md. The last part shows, for every statement that has hypotheses, a state
and operands that meet them together. -/

namespace Sys2Proof.Tests

open Sys2Proof.Machine

/-! ## WellFormed refuses an ill-formed term of every check (30_encoding.md R88) -/

theorem test_wf_rdcnt_14 : (Instr.rdcnt 14#4).wf = false := by decide
theorem test_wf_rdcnt_13 : (Instr.rdcnt 13#4).wf = true := by decide
theorem test_wf_tapp_no_bits : (Instr.tapp 0x43#8 0#8 0#32).wf = false := by decide
theorem test_wf_tapp_33_bits : (Instr.tapp 0x43#8 33#8 0#32).wf = false := by decide
theorem test_wf_tapp_value_too_wide : (Instr.tapp 0x43#8 2#8 4#32).wf = false := by decide
theorem test_wf_tapp_32_bits : (Instr.tapp 0x43#8 32#8 0xFFFFFFFF#32).wf = true := by decide
theorem test_wf_ustart_greedy_with_count : (Instr.ustart false 1#32).wf = false := by decide
theorem test_wf_ustart_greedy : (Instr.ustart false 0#32).wf = true := by decide

/-- 40_frequency_table.md R100: one symbol 2^32 times is outside what the block handles. -/
theorem test_wf_fload_count_too_great : (Pseudo.fload (List.replicate (2 ^ 32) 0x41#8)).wf = false := by
  refine List.all_eq_false.mpr ⟨0x41#8, mem_symbols _, ?_⟩
  rw [List.count_replicate_self]
  decide

/-- A text of 2^32 characters with two counts that fit, one of them at the bound. -/
theorem long_text_counts_fit (x : Sym) : freqOf (List.replicate (2 ^ 32 - 1) 0x41#8 ++ [0x42#8]) x < 2 ^ 32 := by
  rw [freqOf, List.count_append, List.count_replicate, List.count_singleton]
  by_cases h : (0x41#8 == x) = true
  · rw [if_pos h, ← eq_of_beq h]; decide
  · rw [if_neg h]; split <;> omega

theorem test_wf_fload_long_text : (Pseudo.fload (List.replicate (2 ^ 32 - 1) 0x41#8 ++ [0x42#8])).wf = true :=
  List.all_eq_true.mpr fun x _ => decide_eq_true (long_text_counts_fit x)

/-! ## Decoding (95_test_vectors.md section 2.1; the others written out from 30_encoding.md R81 to R84) -/

theorem test_decode_nop : decode 0x0000000000000000#64 = .ok .nop := by decide
theorem test_decode_srst : decode 0x0100000000000000#64 = .ok .srst := by decide
theorem test_decode_rdstat : decode 0x0200000000000000#64 = .ok .rdstat := by decide
theorem test_decode_rdcnt : decode 0x03000D0000000000#64 = .ok (.rdcnt 13#4) := by decide
theorem test_decode_fclr : decode 0x1000000000000000#64 = .ok .fclr := by decide
theorem test_decode_fset : decode 0x11FF0000FFFFFFFF#64 = .ok (.fset 0xFF#8 0xFFFFFFFF#32) := by decide
theorem test_decode_frd : decode 0x1241000000000000#64 = .ok (.frd 0x41#8) := by decide
theorem test_decode_build : decode 0x2000000000000000#64 = .ok .build := by decide
theorem test_decode_nrd : decode 0x21000300000001FF#64 = .ok (.nrd 3#2 511#9) := by decide
theorem test_decode_gen : decode 0x2800000000000000#64 = .ok .gen := by decide
theorem test_decode_tclr : decode 0x3000000000000000#64 = .ok .tclr := by decide
theorem test_decode_tdel : decode 0x3151000000000000#64 = .ok (.tdel 0x51#8) := by decide
theorem test_decode_tapp : decode 0x32432000FFFFFFFF#64 = .ok (.tapp 0x43#8 32#8 0xFFFFFFFF#32) := by decide
theorem test_decode_tchk : decode 0x3300000000000000#64 = .ok .tchk := by decide
theorem test_decode_tlen : decode 0x3443000000000000#64 = .ok (.tlen 0x43#8) := by decide
theorem test_decode_tbits : decode 0x3541070000000000#64 = .ok (.tbits 0x41#8 7#3) := by decide
theorem test_decode_pstart : decode 0x4000000000000000#64 = .ok .pstart := by decide
theorem test_decode_psym : decode 0x4141000000000000#64 = .ok (.psym 0x41#8) := by decide
theorem test_decode_pfin : decode 0x4200000000000000#64 = .ok .pfin := by decide
theorem test_decode_ustart : decode 0x50000100FFFFFFFF#64 = .ok (.ustart true 0xFFFFFFFF#32) := by decide
theorem test_decode_ubyte : decode 0x51FF000000000000#64 = .ok (.ubyte 0xFF#8) := by decide
theorem test_decode_ufin : decode 0x5200000000000000#64 = .ok .ufin := by decide

theorem test_decode_reserved : decode 0x0400000000000000#64 = .error .reservedOpcode := by decide
theorem test_decode_srst_with_imm : decode 0x0100000000000001#64 = .error .mustBeZero := by decide
theorem test_decode_z_not_zero : decode 0x1141000100000003#64 = .error .mustBeZero := by decide
theorem test_decode_rdcnt_14 : decode 0x03000E0000000000#64 = .error .operandRange := by decide
theorem test_decode_nrd_idx_512 : decode 0x2100030000000200#64 = .error .operandRange := by decide
theorem test_decode_tapp_wide : decode 0x3243010000000002#64 = .error .operandRange := by decide
theorem test_decode_greedy_with_count : decode 0x5000000000000001#64 = .error .operandRange := by decide
theorem test_decode_table_word : decodeTableWord 64 0x1141000000000003 = some (.fset 0x41#8 3#32) := by decide
theorem test_byte_transport :
    decodeBytes .opcodeFirst [0x11#8, 0x41#8, 0x00#8, 0x00#8, 0x00#8, 0x00#8, 0x00#8, 0x03#8] = .ok (.fset 0x41#8 3#32) := by
  decide
theorem test_byte_transport_seven : decodeBytes .opcodeFirst (List.replicate 7 0#8) = .error .wrongLength := by decide

/-! ## Small states -/

/-- The state an instruction leaves. -/
def after (i : Instr) (s : State) : State :=
  match exec i s with
  | .next t => t
  | .fault _ => s
  | .refused _ => s

/-- The state a step leaves. -/
def stepped (s : State) : State :=
  match step s with
  | .next t => t
  | .fault _ => s
  | .refused _ => s

/-- FREQ of "AAABBBBC". -/
def counted8 : State := { State.reset with block.freq := [(0x41, 3#32), (0x42, 4#32), (0x43, 1#32)] }

/-- The tree of "AAABBBBC". -/
def planted : State := plantTree (leafNodes counted8.block) counted8

/-- The table `B = "0", C = "10", A = "11"`, checked: T3 of 95_test_vectors.md section 2.8. -/
def loaded : State :=
  { State.reset with
    block.code := [(0x41, [true, true]), (0x42, [false]), (0x43, [true, false])]
    block.tabOk := true
    block.lmax := 2#8 }

/-- Packing, with six bits waiting: the state before the fourth symbol of "AAABBBBC". -/
def packing : State := { loaded with block.mode := .pack, block.acc := 0x3F#8, block.nacc := 6#3, block.symcnt := 3#32 }

/-- Unpacking in limited mode, with two symbols to come. -/
def unpacking : State :=
  { loaded with block.mode := .unpack, block.limitEn := true, block.explen := 8#32, block.symcnt := 6#32 }

/-- Unpacking in greedy mode. -/
def greedy : State := { loaded with block.mode := .unpack }

/-- Faulted. -/
def broken : State := faultState .treeError 0x2000000000000000#64 loaded

/-! ## What the commands do -/

theorem test_nop_counts : (after .nop State.reset).block.cmdcnt = 1#32 := by decide
theorem test_srst_not_counted : (after .srst broken).block = Block.reset := by decide
theorem test_rdstat_packing : (after .rdstat packing).host.rsp = [0x00001890#32] := by decide
theorem test_rdstat_unpacking_done :
    (after .rdstat { unpacking with block.symcnt := 8#32 }).host.rsp = [0x000003A0#32] := by decide
theorem test_rdcnt_not_counted_yet : (after (.rdcnt 11#4) (after .nop State.reset)).host.rsp = [1#32] := by decide
theorem test_rdcnt_codes : (after (.rdcnt 10#4) loaded).host.rsp = [3#32] := by decide
theorem test_fclr : (after .fclr counted8).block.freq = [] := by decide
theorem test_fset_replaces : freqAt (after (.fset 0x41#8 5#32) counted8).block 0x41#8 = 5#32 := by decide
theorem test_fset_zero_unlists : (after (.fset 0x42#8 0#32) counted8).block.freq = [(0x41, 3#32), (0x43, 1#32)] := by decide
theorem test_frd : (after (.frd 0x42#8) counted8).host.rsp = [4#32] := by decide
/-- Section 2.3, row "AAABBBBC": node 3 is 4(2,0), node 4 is 8(1,3). -/
theorem test_build_nodes : (after .build counted8).block.node.drop 3 =
    [{ kind := .internal, sym := 0#8, wt := 4#40, left := 2#9, right := 0#9 },
     { kind := .internal, sym := 0#8, wt := 8#40, left := 1#9, right := 3#9 }] := by decide
/-- Section 2.8, the first row. -/
theorem test_build_empty : (after .build State.reset).block.err = .treeError ∧
    (after .rdstat (after .build State.reset)).host.rsp = [0x00000001#32] := by decide
/-- The numbers of 60_exceptions.md R200 and 10_state.md R30, in the order of their tables. -/
theorem test_status_numbers :
    [Err.none, .treeError, .noCodeError, .tableError, .streamError, .shortError, .seqError, .illCmdError].map
      (fun e => statusWord { Block.reset with err := e }) = [0#32, 1#32, 2#32, 3#32, 4#32, 5#32, 6#32, 7#32] ∧
    [Mode.idle, .pack, .unpack].map (fun m => statusWord { Block.reset with mode := m }) = [0#32, 0x10#32, 0x20#32] := by
  decide
/-- P1, position 16. -/
theorem test_nrd_child : nodeWord
    { Block.reset with node := List.replicate 5 { kind := .internal, sym := 0#8, wt := 8#40, left := 1#9, right := 3#9 } }
    3#2 4#9 = 0x00030001#32 := by decide
theorem test_nrd_no_node : (after (.nrd 0#2 5#9) loaded).host.rsp = [0#32] := by decide
theorem test_tclr : (after .tclr loaded).block.code = [] := by decide
theorem test_tdel_absent_unmarks : (after (.tdel 0x51#8) loaded).block.tabOk = false := by decide
/-- Section 2.4: `"10"` and then `"1"` make `"101"`; `"001"` keeps its leading zeros. -/
theorem test_tapp_appends : codeAt (after (.tapp 0x43#8 1#8 1#32) loaded).block 0x43#8 = [true, false, true] := by decide
theorem test_tapp_leading_zeros : codeAt (after (.tapp 0x44#8 3#8 1#32) loaded).block 0x44#8 = [false, false, true] := by decide
theorem test_tchk_empty : (after .tchk State.reset).block.err = .tableError := by decide
theorem test_tlen_present : (after (.tlen 0x43#8) loaded).host.rsp = [0x80000002#32] := by decide
theorem test_tlen_absent : (after (.tlen 0x44#8) loaded).host.rsp = [0#32] := by decide
theorem test_tbits : (after (.tbits 0x41#8 0#3) loaded).host.rsp = [3#32] := by decide
/-- Section 2.4: the 40 bits with image 0xB38F0FAACC; chunk 1. -/
theorem test_tbits_second_chunk : chunkWord (lowBits 40 0xB38F0FAACC#40) 1#3 = 0x000000B3#32 := by decide
theorem test_pstart : (after .pstart loaded).block.mode = .pack := by decide
/-- P1, positions 34 and 35: FC goes out with the second bit. -/
theorem test_psym_waits : (after (.psym 0x42#8) packing).block.nacc = 7#3 := by decide
theorem test_psym_emits : (after (.psym 0x42#8) (after (.psym 0x42#8) packing)).host.outb = [0xFC#8] := by decide
/-- P1, position 39: four bits 0010 leave as 20. -/
theorem test_pfin_flushes :
    (after .pfin { packing with block.acc := 2#8, block.nacc := 4#3 }).host.outb = [0x20#8] := by decide
theorem test_pfin_counts_padding :
    (after .pfin { packing with block.acc := 2#8, block.nacc := 4#3 }).block.padcnt = 4#3 := by decide
theorem test_ustart : (after (.ustart true 8#32) loaded).block.explen = 8#32 := by decide
/-- Section 2.6: in limited mode the rest of the byte is dropped when the last symbol comes. -/
theorem test_ufin_short : (after .ufin unpacking).block.err = .shortError := by decide
theorem test_ufin_ends : (after .ufin greedy).block.mode = .idle := by decide
/-- Section 2.8: GEN without a tree. -/
theorem test_gen_without_tree : (after .gen State.reset).block.errinfo = 0x28000000#32 := by decide
theorem test_step_takes_the_word : stepped (State.reset.withFetchWord 64 0x1141000000000003) =
    { State.reset with block.freq := [(0x41, 3#32)], block.cmdcnt := 1#32 } := by decide
theorem test_step_illegal_word : stepped (State.reset.withFetchWord 64 0x0400000000000000) =
    { State.reset with
      block.err := .illCmdError, block.errinfo := 0x04000000#32, block.cmdcnt := 1#32 } := by decide

/-! ## The scans over all symbols -/

/-- Section 2.3, row "AAABBBBC". -/
theorem test_gen_codes : treeCodes planted.block.node 4 =
    [(0x41, [true, true]), (0x42, [false]), (0x43, [true, false])] := by decide
theorem test_tchk_passes : (after .tchk { loaded with block.tabOk := false, block.lmax := 0#8 }).block.lmax = 2#8 := by decide
theorem test_tchk_not_prefix_free :
    (after .tchk { State.reset with block.code := [(0x41, [false]), (0x42, [false, true])] }).block.err = .tableError := by
  decide
/-- Section 2.6: `UBYTE 0xFC` emits A A A B B. -/
theorem test_ubyte_greedy : (after (.ubyte 0xFC#8) greedy).host.outs = [0x41#8, 0x41#8, 0x41#8, 0x42#8, 0x42#8] := by decide
theorem test_ubyte_limit : (after (.ubyte 0x20#8) unpacking).block.pend = [] := by decide

/-! ## Listings and the reference functions -/

/-- Section 2.5, row "abracadabra" in part: the bits 0 110 111 0 100 are 6E 8 and two more. -/
theorem test_pack_reference :
    packSeq (codeIn [(0x61, [false]), (0x62, [true, true, false]), (0x63, [true, false, false]), (0x72, [true, true, true])])
      [0x61#8, 0x62#8, 0x72#8, 0x61#8, 0x63#8] = [0x6E#8, 0x80#8] := by decide
/-- Section 2.4: the expansion of TSET 's' with 40 bits. -/
theorem test_tset_expands : (Pseudo.tset 0x73#8 (lowBits 40 0xB38F0FAACC#40)).expand =
    [.tdel 0x73#8, .tapp 0x73#8 32#8 0xB38F0FAA#32, .tapp 0x73#8 8#8 0xCC#32] := by decide
theorem test_line : lineOf (.nrd 3#2 4#9) = { mnemonic := "NRD", operands := [3, 4] } := by decide

/-! ## States that meet the invariants -/

/-- The codes of `loaded`. -/
theorem loaded_codes (x : Sym) : codeAt loaded.block x =
    if x = 0x41#8 then [true, true] else if x = 0x42#8 then [false] else if x = 0x43#8 then [true, false] else [] := by
  have h (n : Nat) (hn : n < 256) : (n = x.toNat) ↔ x = BitVec.ofNat 8 n := by
    rw [← BitVec.toNat_inj, BitVec.toNat_ofNat, Nat.mod_eq_of_lt hn, eq_comm]
  simp only [codeAt, codeIn, loaded, Table.read, unlistedCode, h 0x41 (by decide), h 0x42 (by decide), h 0x43 (by decide)]

/-- The frequencies of `counted8` are those of the text of P1. -/
theorem counted8_freqs (x : Sym) : (freqAt counted8.block x).toNat =
    freqOf [0x41#8, 0x41#8, 0x41#8, 0x42#8, 0x42#8, 0x42#8, 0x42#8, 0x43#8] x := by
  have h (n : Nat) (hn : n < 256) : (n = x.toNat) ↔ BitVec.ofNat 8 n = x := by
    rw [← BitVec.toNat_inj, BitVec.toNat_ofNat, Nat.mod_eq_of_lt hn]
  simp only [freqAt, counted8, Table.read, unlistedFreq, freqOf, List.count_cons, List.count_nil, beq_iff_eq,
    h 0x41 (by decide), h 0x42 (by decide), h 0x43 (by decide)]
  by_cases ha : 0x41#8 = x
  · subst ha; rfl
  · by_cases hb : 0x42#8 = x
    · subst hb; rfl
    · by_cases hc : 0x43#8 = x
      · subst hc; rfl
      · simp only [if_neg ha, if_neg hb, if_neg hc]; rfl

theorem loaded_codes_fit (x : Sym) : (codeAt loaded.block x).length ≤ 2 := by
  rw [loaded_codes]
  split
  · decide
  · split
    · decide
    · split <;> decide

theorem loaded_prefixFree : PrefixFree (codeAt loaded.block) := (prefixFree_iff loaded.block.code).mp (by decide)

theorem loaded_usable :
    (∃ x, codeAt loaded.block x ≠ []) ∧ PrefixFree (codeAt loaded.block) ∧ IsGreatestLength (codeAt loaded.block) 2 :=
  ⟨⟨0x42#8, by decide⟩, loaded_prefixFree, ⟨0x41#8, by decide, by decide⟩, loaded_codes_fit⟩

theorem loaded_invariant : Invariant loaded.block where
  tables := by decide
  codesFit := fun x => (loaded_codes_fit x).trans (by decide)
  pendFits := by decide
  pendOutside := fun _ => rfl
  pendShort := fun h => by cases h
  pendUnmatched := fun h => by cases h
  accOutside := fun _ => ⟨rfl, rfl⟩
  accFits := by decide
  tableUsable := fun _ => loaded_usable
  tableUnmarked := fun h => by cases h
  treeStands := fun h => by cases h
  treeGone := fun _ => ⟨rfl, rfl⟩
  runHasTable := fun h => absurd rfl h
  noFault := fun _ => ⟨rfl, rfl⟩
  limitKept := fun h => by cases h

/-- Between two bytes of a greedy run, with one bit of a code pending. -/
def greedyMidway : State := { greedy with block.pend := [true] }

theorem greedyMidway_invariant : Invariant greedyMidway.block where
  tables := by decide
  codesFit := fun x => (loaded_codes_fit x).trans (by decide)
  pendFits := by decide
  pendOutside := fun h => absurd rfl h
  pendShort := fun _ _ => by decide
  pendUnmatched := fun _ => matchIn_none.mp (by decide : matchIn (codeAt greedyMidway.block) [true] = none)
  accOutside := fun _ => ⟨rfl, rfl⟩
  accFits := by decide
  tableUsable := fun _ => loaded_usable
  tableUnmarked := fun h => by cases h
  treeStands := fun h => by cases h
  treeGone := fun _ => ⟨rfl, rfl⟩
  runHasTable := fun _ => rfl
  noFault := fun _ => ⟨rfl, rfl⟩
  limitKept := fun _ h => by cases h

theorem packing_invariant : Invariant packing.block where
  tables := by decide
  codesFit := fun x => (loaded_codes_fit x).trans (by decide)
  pendFits := by decide
  pendOutside := fun _ => rfl
  pendShort := fun h => by cases h
  pendUnmatched := fun h => by cases h
  accOutside := fun h => absurd rfl h
  accFits := by decide
  tableUsable := fun _ => loaded_usable
  tableUnmarked := fun h => by cases h
  treeStands := fun h => by cases h
  treeGone := fun _ => ⟨rfl, rfl⟩
  runHasTable := fun _ => rfl
  noFault := fun _ => ⟨rfl, rfl⟩
  limitKept := fun h => by cases h

theorem counted8_occurs : ∃ x, freqAt counted8.block x ≠ 0#32 := ⟨0x41#8, by decide⟩

theorem planted_shape : TreeShape planted.block.node planted.block.root.toNat planted.block.nleaf.toNat ∧
    weightAt planted.block.node planted.block.root.toNat = planted.block.rootwt := by
  obtain ⟨root, hr, hs, -⟩ := mergeAll_spec (leafNodes_row counted8.block counted8_occurs)
  have hroot : root = 4 := by
    have h : (mergeAll (leafNodes counted8.block)).2 = [4] := by decide
    rw [h] at hr
    exact (List.head_eq_of_cons_eq hr).symm
  subst hroot
  have hn : (leafNodes counted8.block).length = 3 := by decide
  rw [hn] at hs
  have h1 : planted.block.root.toNat = 4 := by decide
  have h2 : planted.block.nleaf.toNat = 3 := by decide
  rw [h1, h2]
  exact ⟨hs, by decide⟩

theorem planted_invariant : Invariant planted.block where
  tables := by decide
  codesFit := fun x => Nat.zero_le _
  pendFits := by decide
  pendOutside := fun _ => rfl
  pendShort := fun h => by cases h
  pendUnmatched := fun h => by cases h
  accOutside := fun _ => ⟨rfl, rfl⟩
  accFits := by decide
  tableUsable := fun h => by cases h
  tableUnmarked := fun _ => rfl
  treeStands := fun _ => planted_shape
  treeGone := fun h => by cases h
  runHasTable := fun h => absurd rfl h
  noFault := fun _ => ⟨rfl, rfl⟩
  limitKept := fun h => by cases h

theorem counted8_invariant : Invariant counted8.block where
  tables := by decide
  codesFit := fun x => Nat.zero_le _
  pendFits := by decide
  pendOutside := fun _ => rfl
  pendShort := fun h => by cases h
  pendUnmatched := fun h => by cases h
  accOutside := fun _ => ⟨rfl, rfl⟩
  accFits := by decide
  tableUsable := fun h => by cases h
  tableUnmarked := fun _ => rfl
  treeStands := fun h => by cases h
  treeGone := fun _ => ⟨rfl, rfl⟩
  runHasTable := fun h => absurd rfl h
  noFault := fun _ => ⟨rfl, rfl⟩
  limitKept := fun h => by cases h

/-- The clauses on SeqError: GEN without a tree, GEN, TCLR, TDEL, TAPP, TCHK, PSTART and USTART outside IDLE, PSTART and USTART
without a table, PSYM and PFIN outside PACK, UBYTE and UFIN outside UNPACK. -/
theorem witness_SeqError :
    (loaded.block.err = .none ∧ loaded.block.treeValid = false ∧ loaded.block.mode ≠ .pack ∧ loaded.block.mode ≠ .unpack) ∧
    (packing.block.err = .none ∧ packing.block.mode ≠ .idle ∧ ∀ x, (codeAt packing.block x).length ≤ Config.maxlen) ∧
    (State.reset.block.err = .none ∧ State.reset.block.tabOk = false) :=
  ⟨by decide, ⟨rfl, by decide, packing_invariant.codesFit⟩, by decide⟩

/-! ## Witnesses: the hypotheses of every statement that has some, met together -/

theorem witness_EncodedCommandDecodesToItself :
    (Instr.tapp 0x43#8 32#8 0xFFFFFFFF#32).wf = true ∧ (Instr.rdcnt 13#4).wf = true ∧
      (Instr.ustart true 0xFFFFFFFF#32).wf = true := by decide

theorem witness_DecodedWordIsTheWordOfItsCommand : decode 0x2100030000000004#64 = .ok (.nrd 3#2 4#9) := by decide

theorem witness_DecoderAgreesWithTheOpcodeMap :
    decode 0x3243020000000002#64 = .ok (.tapp 0x43#8 2#8 2#32) ∧
    (⟨"TAPP", 0x3200000000000000#64, 0xFF0000FF00000000#64⟩ : OpcodeRow) ∈ opcodeTable ∧
    rowMatches 0x3243020000000002#64 ⟨"TAPP", 0x3200000000000000#64, 0xFF0000FF00000000#64⟩ = true := by decide

theorem witness_ReservedOpcodeIsIllegal : ∀ row ∈ opcodeTable, fieldOp 0x0400000000000000#64 ≠ fieldOp row.fixed := by
  decide

theorem witness_StepRunsThePresentedCommand :
    (presentNext 0x4141000000000000#64 packing).host.input = .command 0x4141000000000000#64 :: [] ∧
      decode 0x4141000000000000#64 = .ok (.psym 0x41#8) := by decide

theorem witness_IllegalWordFaults :
    (presentNext 0x0400000000000000#64 loaded).host.input = .command 0x0400000000000000#64 :: [] ∧
      decode 0x0400000000000000#64 = .error .reservedOpcode ∧
      (presentNext 0x0400000000000000#64 loaded).block.err = .none := by decide

theorem witness_WaitsWhenNothingIsPresented : loaded.host.input = [] := rfl

/-- Both clauses; the second with a command that emits, of which the host has taken nothing and one word. -/
theorem witness_ResetInputPutsTheResetState :
    ({ packing with host.input := [.reset] } : State).host.input = .reset :: [] ∧
    ({ packing with host.input := [.resetDuring 0x0200000000000000#64 0] } : State).host.input =
      .resetDuring 0x0200000000000000#64 0 :: [] ∧
    ({ packing with host.input := [.resetDuring 0x0200000000000000#64 1] } : State).host.input =
      .resetDuring 0x0200000000000000#64 1 :: [] := ⟨rfl, rfl, rfl⟩

/-- The pending clause at its bound, and every clause of ERR and of MODE. -/
theorem witness_RdstatRespondsStatus :
    ({ greedy with block.pend := List.replicate 262 true } : State).block.pend.length ≤ Config.pendmax ∧
    (∀ e : Err, ({ greedy with block.err := e } : State).block.err = e) ∧
    ∀ m : Mode, ({ greedy with block.mode := m } : State).block.mode = m :=
  ⟨(List.length_replicate ..).le, fun _ => rfl, fun _ => rfl⟩

/-- The selector clauses at both ends, and the node clause at its bound. -/
theorem witness_RdcntRespondsTheCounter :
    (0#4).toNat ≤ 13 ∧ (13#4).toNat ≤ 13 ∧ (5#4).toNat ≤ 13 ∧ planted.block.node.length ≤ Config.nnode := by decide

theorem witness_FclrClearsEveryFrequency : counted8.block.err = .none := rfl

theorem witness_FsetWritesOneFrequency : counted8.block.err = .none ∧ (0x42#8 : Sym) ≠ 0x41#8 := by decide

theorem witness_BuildOnEmptyFrequenciesFaults :
    loaded.block.err = .none ∧ ∀ x, freqAt loaded.block x = 0#32 := ⟨rfl, fun _ => rfl⟩

theorem witness_BuildLeavesAFinishedTree : counted8.block.err = .none ∧ ∃ x, freqAt counted8.block x ≠ 0#32 :=
  ⟨rfl, counted8_occurs⟩

/-- Nodes 3 and 4 are the merges: both ends of the range of `k`. -/
theorem witness_BuildMergesTheTwoLightest :
    counted8.block.err = .none ∧ (∃ x, freqAt counted8.block x ≠ 0#32) ∧
    exec .build counted8 = .next (after .build counted8) ∧
    (after .build counted8).block.nleaf.toNat ≤ 3 ∧ 4 < (after .build counted8).block.node.length :=
  ⟨rfl, counted8_occurs, rfl, by decide, by decide⟩

theorem witness_BuildDependsOnFrequenciesAlone :
    counted8.block.err = .none ∧ planted.block.err = .none ∧ (∃ x, freqAt counted8.block x ≠ 0#32) ∧
    (∀ x, freqAt counted8.block x = freqAt planted.block x) ∧
    exec .build counted8 = .next (after .build counted8) ∧ exec .build planted = .next (after .build planted) :=
  ⟨rfl, rfl, counted8_occurs, fun _ => rfl, rfl, rfl⟩

/-- A node, and the first index past the last node. -/
theorem witness_NrdRespondsPartOfANode :
    planted.block.node.length ≤ (5#9).toNat ∧
    planted.block.node[(4#9).toNat]? = some { kind := .internal, sym := 0#8, wt := 8#40, left := 1#9, right := 3#9 } := by
  decide

theorem witness_GenAssignsThePathsOfTheTree :
    Invariant planted.block ∧ planted.block.err = .none ∧ planted.block.mode = .idle ∧ planted.block.treeValid = true ∧
      planted.block.nleaf.toNat ≠ 1 := ⟨planted_invariant, rfl, rfl, rfl, by decide⟩

/-- FREQ of "AAA". -/
def counted3 : State := { State.reset with block.freq := [(0x41, 3#32)] }

/-- The tree of "AAA": a single leaf. -/
def leafOnly : State := plantTree (leafNodes counted3.block) counted3

theorem leafOnly_shape : TreeShape leafOnly.block.node leafOnly.block.root.toNat leafOnly.block.nleaf.toNat ∧
    weightAt leafOnly.block.node leafOnly.block.root.toNat = leafOnly.block.rootwt := by
  obtain ⟨root, hr, hs, -⟩ := mergeAll_spec (leafNodes_row counted3.block ⟨0x41#8, by decide⟩)
  have hroot : root = 0 := by
    have h : (mergeAll (leafNodes counted3.block)).2 = [0] := by decide
    rw [h] at hr
    exact (List.head_eq_of_cons_eq hr).symm
  subst hroot
  have hn : (leafNodes counted3.block).length = 1 := by decide
  rw [hn] at hs
  have h1 : leafOnly.block.root.toNat = 0 := by decide
  have h2 : leafOnly.block.nleaf.toNat = 1 := by decide
  rw [h1, h2]
  exact ⟨hs, by decide⟩

theorem leafOnly_invariant : Invariant leafOnly.block where
  tables := by decide
  codesFit := fun x => Nat.zero_le _
  pendFits := by decide
  pendOutside := fun _ => rfl
  pendShort := fun h => by cases h
  pendUnmatched := fun h => by cases h
  accOutside := fun _ => ⟨rfl, rfl⟩
  accFits := by decide
  tableUsable := fun h => by cases h
  tableUnmarked := fun _ => rfl
  treeStands := fun _ => leafOnly_shape
  treeGone := fun h => by cases h
  runHasTable := fun h => absurd rfl h
  noFault := fun _ => ⟨rfl, rfl⟩
  limitKept := fun h => by cases h

/-- The clause about a single leaf. -/
theorem witness_GenAssignsThePathsOfTheTree_single :
    Invariant leafOnly.block ∧ leafOnly.block.err = .none ∧ leafOnly.block.mode = .idle ∧
      leafOnly.block.treeValid = true ∧ leafOnly.block.nleaf.toNat = 1 ∧
      leafOnly.block.node[0]? = some { kind := .leaf, sym := 0x41#8, wt := 3#40, left := 0#9, right := 0#9 } :=
  ⟨leafOnly_invariant, rfl, rfl, rfl, by decide, by decide⟩

theorem witness_GeneratedTableIsPrefixFreeAndComplete :
    Invariant planted.block ∧ planted.block.err = .none ∧ planted.block.mode = .idle ∧ planted.block.treeValid = true ∧
      exec .gen planted = .next (after .gen planted) ∧ 2 ≤ planted.block.nleaf.toNat :=
  ⟨planted_invariant, rfl, rfl, rfl, rfl, by decide⟩

theorem witness_BuildThenGenCodesTheSymbolsThatOccur :
    Invariant counted8.block ∧ counted8.block.err = .none ∧ counted8.block.mode = .idle ∧
      ∃ x, freqAt counted8.block x ≠ 0#32 := ⟨counted8_invariant, rfl, rfl, counted8_occurs⟩

theorem witness_TclrEmptiesTheTable : loaded.block.err = .none ∧ loaded.block.mode = .idle := ⟨rfl, rfl⟩

theorem witness_TdelDeletesOneCode : loaded.block.err = .none ∧ loaded.block.mode = .idle ∧ (0x42#8 : Sym) ≠ 0x41#8 := by
  decide

/-- A code of 255 bits: 254 zeros and a one. -/
def full : State := { State.reset with block.code := [(0x07, List.replicate 254 false ++ [true])] }

theorem full_length : (codeAt full.block 0x07#8).length = 255 := by
  have h : codeAt full.block 0x07#8 = List.replicate 254 false ++ [true] := rfl
  rw [h, List.length_append, List.length_replicate, List.length_singleton]

/-- A code of 254 bits. -/
def nearlyFull : State := { State.reset with block.code := [(0x07, List.replicate 254 false)] }

theorem nearlyFull_length : (codeAt nearlyFull.block 0x07#8).length = 254 := by
  have h : codeAt nearlyFull.block 0x07#8 = List.replicate 254 false := rfl
  rw [h, List.length_replicate]

/-- Both clauses where they meet: the last bit that fits and the first that does not. -/
theorem witness_TappAppendsBitsOrFaults :
    (1 ≤ (1#8 : BitVec 8).toNat ∧ (1#8 : BitVec 8).toNat ≤ 32 ∧ (1#32 : BitVec 32).toNat < 2 ^ (1#8 : BitVec 8).toNat) ∧
    (nearlyFull.block.err = .none ∧ nearlyFull.block.mode = .idle ∧
      (codeAt nearlyFull.block 0x07#8).length + (1#8 : BitVec 8).toNat ≤ 255) ∧
    (full.block.err = .none ∧ full.block.mode = .idle ∧
      255 < (codeAt full.block 0x07#8).length + (1#8 : BitVec 8).toNat) := by
  rw [full_length, nearlyFull_length]
  exact ⟨by decide, ⟨rfl, rfl, by decide⟩, rfl, rfl, by decide⟩

/-- A table with equal codes. -/
def doubled : State := { State.reset with block.code := [(0x41, [true]), (0x42, [true])] }

/-- A usable table, an empty one, and one that is not prefix-free. -/
theorem witness_TchkMarksPrefixFreeTables :
    (loaded.block.err = .none ∧ loaded.block.mode = .idle ∧ (∀ x, (codeAt loaded.block x).length ≤ Config.maxlen) ∧
      (∃ x, codeAt loaded.block x ≠ []) ∧ PrefixFree (codeAt loaded.block)) ∧
    (State.reset.block.err = .none ∧ State.reset.block.mode = .idle ∧ ∀ x, codeAt State.reset.block x = []) ∧
    (doubled.block.err = .none ∧ doubled.block.mode = .idle ∧ ¬ PrefixFree (codeAt doubled.block)) :=
  ⟨⟨rfl, rfl, loaded_invariant.codesFit, ⟨0x42#8, by decide⟩, loaded_prefixFree⟩, ⟨rfl, rfl, fun _ => rfl⟩,
    ⟨rfl, rfl, fun h => h 0x41#8 0x42#8 (by decide) (by decide) (by decide) (by decide)⟩⟩

theorem witness_TchkAfterGenChangesNothing :
    Invariant planted.block ∧ planted.block.err = .none ∧ planted.block.mode = .idle ∧ planted.block.treeValid = true ∧
      exec .gen planted = .next (after .gen planted) := ⟨planted_invariant, rfl, rfl, rfl, rfl⟩

/-- An absent entry, and the longest code. -/
theorem witness_TlenRespondsPresenceAndLength :
    (codeAt loaded.block 0x44#8).length ≤ Config.maxlen ∧ (codeAt full.block 0x07#8).length ≤ Config.maxlen := by
  rw [full_length]
  decide

theorem witness_TbitsRespondsAChunkOfTheImage :
    (codeAt loaded.block 0x44#8).length ≤ Config.maxlen ∧ (codeAt full.block 0x07#8).length ≤ Config.maxlen := by
  rw [full_length]
  decide

theorem witness_PstartBeginsPacking :
    loaded.block.err = .none ∧ loaded.block.mode = .idle ∧ loaded.block.tabOk = true := ⟨rfl, rfl, rfl⟩

/-- A symbol with a code, and one without. -/
theorem witness_PsymPacksTheCode :
    packing.block.err = .none ∧ packing.block.mode = .pack ∧ (List.replicate 6 true).length = packing.block.nacc.toNat ∧
      img (List.replicate 6 true) = packing.block.acc.toNat ∧ codeAt packing.block 0x41#8 ≠ [] ∧
      codeAt packing.block 0x44#8 = [] := by decide

/-- No bit waits, and six bits wait. -/
theorem witness_PfinFlushesTheLastByte :
    packing.block.err = .none ∧ packing.block.mode = .pack ∧ packing.block.nacc ≠ 0#3 ∧
      packing.block.acc.toNat < 2 ^ packing.block.nacc.toNat ∧
      ({ packing with block.acc := 0#8, block.nacc := 0#3 } : State).block.nacc = 0#3 := by decide

/-- The last clauses too: a count that does not saturate, and a FREQ that is the one of the sequence. -/
theorem witness_PackingRunEmitsPack :
    loaded.block.err = .none ∧ loaded.block.mode = .idle ∧ loaded.block.tabOk = true ∧
      (∀ x ∈ [0x41#8, 0x41#8, 0x41#8, 0x42#8, 0x42#8, 0x42#8, 0x42#8, 0x43#8], codeAt loaded.block x ≠ []) ∧
      ((bitsOfSeq (codeAt loaded.block) [0x41#8, 0x41#8, 0x41#8, 0x42#8, 0x42#8, 0x42#8, 0x42#8, 0x43#8]).length + 7) / 8
        < 2 ^ 32 - 1 ∧
      ∀ x, (freqAt ({ loaded with block.freq := counted8.block.freq } : State).block x).toNat =
        freqOf [0x41#8, 0x41#8, 0x41#8, 0x42#8, 0x42#8, 0x42#8, 0x42#8, 0x43#8] x :=
  ⟨rfl, rfl, rfl, by decide, by decide, counted8_freqs⟩

/-- Both ways to end. -/
theorem witness_UstartBeginsUnpacking :
    ((false : Bool) = false → 0#32 = 0#32) ∧ ((true : Bool) = false → 8#32 = 0#32) ∧
    loaded.block.err = .none ∧ loaded.block.mode = .idle ∧ loaded.block.tabOk = true := by decide

theorem witness_MatchIsTheOnePrefix : PrefixFree (codeAt loaded.block) := loaded_prefixFree

/-- The four clauses: the limit reached before the byte, reached by the byte, not reached with fewer than LMAX bits left, and
with LMAX or more left (two bits, in a table where "00" begins no code). -/
theorem witness_UbyteEmitsWhatTheByteCompletes :
    (unpacking.block.err = .none ∧ unpacking.block.mode = .unpack ∧ unpacking.block.limitEn = true ∧
      0 < unpacking.block.explen.toNat - unpacking.block.symcnt.toNat ∧
      unpacking.block.explen.toNat - unpacking.block.symcnt.toNat ≤
        (matchLoop (codeAt unpacking.block) 8 (byteBits 0x20#8)).1.length ∧
      unpacking.block.symcnt.toNat ≤ unpacking.block.explen.toNat) ∧
    ({ unpacking with block.symcnt := 8#32 } : State).block.explen.toNat -
        ({ unpacking with block.symcnt := 8#32 } : State).block.symcnt.toNat = 0 ∧
    (greedy.block.err = .none ∧ greedy.block.mode = .unpack ∧ greedy.block.limitEn = false ∧
      (matchLoop (codeAt greedy.block) 8 (byteBits 0xFC#8)).2.length < greedy.block.lmax.toNat) ∧
    (2#8 : BitVec 8).toNat ≤
      (matchLoop (codeIn [(0x41, [true]), (0x42, [false, true])]) 8 (byteBits 0x90#8)).2.length := by
  decide

/-- Both clauses: enough symbols, and one too few. -/
theorem witness_UfinEndsUnpacking :
    unpacking.block.err = .none ∧ unpacking.block.mode = .unpack ∧ unpacking.block.limitEn = true ∧
      unpacking.block.symcnt.toNat < unpacking.block.explen.toNat ∧
      ({ unpacking with block.symcnt := 8#32 } : State).block.explen.toNat ≤
        ({ unpacking with block.symcnt := 8#32 } : State).block.symcnt.toNat := by decide

theorem witness_UnpackingRunEmitsWhatTheDocumentDecodes :
    Invariant loaded.block ∧ loaded.block.err = .none ∧ loaded.block.mode = .idle ∧ loaded.block.tabOk = true :=
  ⟨loaded_invariant, rfl, rfl, rfl⟩

theorem witness_LimitedUnpackingInvertsPacking :
    Invariant loaded.block ∧ loaded.block.err = .none ∧ loaded.block.mode = .idle ∧ loaded.block.tabOk = true ∧
      (∀ x ∈ [0x41#8, 0x42#8, 0x43#8], codeAt loaded.block x ≠ []) ∧ [0x41#8, 0x42#8, 0x43#8].length < 2 ^ 32 :=
  ⟨loaded_invariant, rfl, rfl, rfl, by decide, by decide⟩

/-- The table `A = "1", B = "01"`, checked: no code is all zeros. -/
def incomplete : State :=
  { State.reset with
    block.code := [(0x41, [true]), (0x42, [false, true])]
    block.tabOk := true
    block.lmax := 2#8 }

theorem incomplete_codes (x : Sym) : codeAt incomplete.block x =
    if x = 0x41#8 then [true] else if x = 0x42#8 then [false, true] else [] := by
  have h (n : Nat) (hn : n < 256) : (n = x.toNat) ↔ x = BitVec.ofNat 8 n := by
    rw [← BitVec.toNat_inj, BitVec.toNat_ofNat, Nat.mod_eq_of_lt hn, eq_comm]
  simp only [codeAt, codeIn, incomplete, Table.read, unlistedCode, h 0x41 (by decide), h 0x42 (by decide)]

theorem incomplete_codes_fit (x : Sym) : (codeAt incomplete.block x).length ≤ 2 := by
  rw [incomplete_codes]
  split
  · decide
  · split <;> decide

theorem incomplete_invariant : Invariant incomplete.block where
  tables := by decide
  codesFit := fun x => (incomplete_codes_fit x).trans (by decide)
  pendFits := by decide
  pendOutside := fun _ => rfl
  pendShort := fun h => by cases h
  pendUnmatched := fun h => by cases h
  accOutside := fun _ => ⟨rfl, rfl⟩
  accFits := by decide
  tableUsable := fun _ => ⟨⟨0x41#8, by decide⟩, (prefixFree_iff incomplete.block.code).mp (by decide),
    ⟨0x42#8, by decide, by decide⟩, incomplete_codes_fit⟩
  tableUnmarked := fun h => by cases h
  treeStands := fun h => by cases h
  treeGone := fun _ => ⟨rfl, rfl⟩
  runHasTable := fun h => absurd rfl h
  noFault := fun _ => ⟨rfl, rfl⟩
  limitKept := fun h => by cases h

/-- Both clauses: a table with an all-zeros code, and one without. -/
theorem witness_GreedyUnpackingReturnsThePadding :
    (Invariant loaded.block ∧ loaded.block.err = .none ∧ loaded.block.mode = .idle ∧ loaded.block.tabOk = true ∧
      (∀ x ∈ [0x41#8, 0x42#8, 0x43#8], codeAt loaded.block x ≠ []) ∧
      codeAt loaded.block 0x42#8 = List.replicate 1 false) ∧
    (Invariant incomplete.block ∧ incomplete.block.err = .none ∧ incomplete.block.mode = .idle ∧
      incomplete.block.tabOk = true ∧ (∀ x ∈ [0x41#8, 0x42#8], codeAt incomplete.block x ≠ []) ∧
      ∀ z d, 0 < d → codeAt incomplete.block z ≠ List.replicate d false) := by
  refine ⟨⟨loaded_invariant, rfl, rfl, rfl, by decide, by decide⟩,
    incomplete_invariant, rfl, rfl, rfl, by decide, fun z d hd h => ?_⟩
  have hz : ∀ bit ∈ codeAt incomplete.block z, bit = false := fun bit hb => List.eq_of_mem_replicate (h ▸ hb)
  have hne : codeAt incomplete.block z ≠ [] := by
    rw [h]
    exact fun he => by simp at he; omega
  rw [incomplete_codes] at hz hne
  split at hz
  · exact absurd (hz true (by decide)) (by decide)
  · rename_i h1
    split at hz
    · exact absurd (hz true (by decide)) (by decide)
    · rename_i h2
      exact hne (by rw [if_neg h1, if_neg h2])

/-- The three clauses: an ignored command, an illegal word, and a reading command. -/
theorem witness_FaultedBlockIgnoresCommands :
    (broken.block.err ≠ .none ∧ Instr.build ≠ .srst ∧ Instr.build ≠ .nop ∧ Instr.build ≠ .rdstat ∧
      (∀ sel, Instr.build ≠ .rdcnt sel) ∧ (∀ sym, Instr.build ≠ .frd sym) ∧ (∀ sel idx, Instr.build ≠ .nrd sel idx) ∧
      (∀ sym, Instr.build ≠ .tlen sym) ∧ ∀ sym k, Instr.build ≠ .tbits sym k) ∧
    ((presentNext 0x0400000000000000#64 broken).host.input = .command 0x0400000000000000#64 :: [] ∧
      decode 0x0400000000000000#64 = .error .reservedOpcode ∧
      (presentNext 0x0400000000000000#64 broken).block.err ≠ .none) ∧
    exec .rdstat broken = .next (after .rdstat broken) := by
  refine ⟨by simp [broken, faultState], by decide, rfl⟩

theorem witness_FaultLatchHolds : broken.block.err ≠ .none ∧ step broken = .next broken := ⟨by decide, rfl⟩

/-- A precise fault, and StreamError. -/
theorem witness_FaultsArePreciseButStreamError :
    (State.reset.block.err = .none ∧ Instr.build.wf = true ∧ exec .build State.reset = .next (after .build State.reset) ∧
      (after .build State.reset).block.err ≠ .none) ∧
    (incomplete.block.err = .none ∧ (after (.ubyte 0x90#8) { incomplete with block.mode := .unpack }).block.err = .streamError) :=
  ⟨⟨rfl, rfl, rfl, by decide⟩, rfl, by decide⟩

/-- A word that decodes to SRST, and one that does not. -/
theorem witness_EveryCommandIsCounted :
    (presentNext 0x0100000000000000#64 packing).host.input = .command 0x0100000000000000#64 :: [] ∧
    decode 0x0100000000000000#64 = .ok .srst ∧
    (presentNext 0x0100000000000001#64 packing).host.input = .command 0x0100000000000001#64 :: [] ∧
    decode 0x0100000000000001#64 ≠ .ok .srst ∧
    (∃ t, step (presentNext 0x0100000000000000#64 packing) = .next t) ∧
    ∃ t, step (presentNext 0x0100000000000001#64 packing) = .next t :=
  ⟨rfl, by decide, rfl, by decide, takeInput_total _, takeInput_total _⟩

theorem witness_TableIsFixedDuringARun : packing.block.mode ≠ .idle ∧ Instr.tclr ≠ .srst ∧
    exec .tclr packing = .next (after .tclr packing) := ⟨by decide, by decide, rfl⟩

theorem witness_OnlyFiveCommandsChangeMode :
    exec .pstart loaded = .next (after .pstart loaded) ∧ (after .pstart loaded).block.mode ≠ loaded.block.mode :=
  ⟨rfl, by decide⟩

/-- The three clauses. -/
theorem witness_SpacesAreWrittenByTheirCommandsOnly :
    (exec (.fset 0x41#8 5#32) counted8 = .next (after (.fset 0x41#8 5#32) counted8) ∧
      (after (.fset 0x41#8 5#32) counted8).block.freq ≠ counted8.block.freq) ∧
    (exec .build counted8 = .next (after .build counted8) ∧ (after .build counted8).block.node ≠ counted8.block.node) ∧
    (exec (.tdel 0x41#8) loaded = .next (after (.tdel 0x41#8) loaded) ∧
      (after (.tdel 0x41#8) loaded).block.code ≠ loaded.block.code) :=
  ⟨⟨rfl, by decide⟩, ⟨rfl, by decide⟩, ⟨rfl, by decide⟩⟩

/-- A command that responds, one that emits a byte, and one that emits symbols. -/
theorem witness_StreamsGrowByTheirCommandsOnly :
    (Instr.rdstat.wf = true ∧ exec .rdstat loaded = .next (after .rdstat loaded)) ∧
    (exec .pfin packing = .next (after .pfin packing) ∧ (after .pfin packing).host.outb ≠ packing.host.outb) ∧
    (exec (.ubyte 0xFC#8) greedy = .next (after (.ubyte 0xFC#8) greedy) ∧
      (after (.ubyte 0xFC#8) greedy).host.outs ≠ greedy.host.outs) :=
  ⟨⟨rfl, rfl⟩, ⟨rfl, by decide⟩, ⟨rfl, by decide⟩⟩

theorem witness_OneCommandEmitsBoundedOutput :
    (Invariant packing.block ∧ exec (.psym 0x41#8) packing = .next (after (.psym 0x41#8) packing)) ∧
    (Invariant greedyMidway.block ∧ exec (.ubyte 0xFC#8) greedyMidway = .next (after (.ubyte 0xFC#8) greedyMidway)) :=
  ⟨⟨packing_invariant, rfl⟩, greedyMidway_invariant, rfl⟩

theorem witness_BlockDoesNotReadTheHostSide :
    packing.block = ({ packing with host.rsp := [1#32] } : State).block ∧
    exec .pfin packing = .next (after .pfin packing) ∧
    exec .pfin { packing with host.rsp := [1#32] } = .next (after .pfin { packing with host.rsp := [1#32] }) :=
  ⟨rfl, rfl, rfl⟩

theorem witness_StepKeepsTheInvariants :
    Invariant (presentNext 0x5120000000000000#64 greedyMidway).block ∧
    ∃ t, step (presentNext 0x5120000000000000#64 greedyMidway) = .next t :=
  ⟨greedyMidway_invariant, takeInput_total _⟩

/-- The shortest and the longest bitstring. -/
theorem witness_TsetLoadsTheCode :
    loaded.block.err = .none ∧ loaded.block.mode = .idle ∧ 1 ≤ [true].length ∧ [true].length ≤ 255 ∧
      1 ≤ (List.replicate 255 true).length ∧ (List.replicate 255 true).length ≤ 255 := by
  rw [List.length_replicate]
  decide

theorem witness_FloadLoadsTheFrequencies :
    loaded.block.err = .none ∧ (List.replicate (2 ^ 32 - 1) 0x41#8 ++ [0x42#8]).length = 2 ^ 32 ∧
      ∀ x, freqOf (List.replicate (2 ^ 32 - 1) 0x41#8 ++ [0x42#8]) x < 2 ^ 32 :=
  ⟨rfl, by rw [List.length_append, List.length_replicate]; rfl, long_text_counts_fit⟩

end Sys2Proof.Tests
end

section
/-! PROOF. The statements of 00_scope.md: the image of a bitstring (R10), and the step on a presented command (R6). -/

namespace Sys2Proof.Machine

/-- The first bit of a bitstring weighs as many bits as follow it. -/
theorem img_cons (bit : Bool) (c : Bits) : img (bit :: c) = 2 ^ c.length * bit.toNat + img c := by
  have h := img_append [bit] c
  simpa [img, Nat.mul_comm] using h

theorem testBit_img (c : Bits) (i : Nat) (hi : i < c.length) :
    (img c).testBit (c.length - 1 - i) = c.getD i false := by
  induction c generalizing i with
  | nil => exact absurd hi (Nat.not_lt_zero i)
  | cons bit c ih =>
    rw [img_cons, Nat.testBit_two_pow_mul_add _ (img_lt c), List.length_cons, Nat.add_sub_cancel]
    cases i with
    | zero => cases bit <;> simp
    | succ i =>
      have hi : i < c.length := Nat.lt_of_succ_lt_succ hi
      rw [if_pos (by omega), List.getD_cons_succ, ← ih i hi, Nat.sub_sub, Nat.add_comm 1 i]

theorem dropInput_one {s : State} {e : HostEvent} {rest : List HostEvent} (h : s.host.input = e :: rest) :
    dropInput 1 s = { s with host.input := rest } := by
  simp [dropInput, h]

theorem acceptWord_of_decode {w : CmdWord} {i : Instr} (h : decode w = .ok i) (s : State) :
    acceptWord w s = exec i s := by
  simp [acceptWord, h]

theorem step_of_command {s : State} {w : CmdWord} {rest : List HostEvent} (h : s.host.input = .command w :: rest) :
    step s = acceptWord w { s with host.input := rest } := by
  rw [← dropInput_one h]
  simp [step, takeInput, h]

/-- Settles O33: the length bound is `img_lt`; the bits go by induction from the left, where the first bit is the one above
the image of the rest. -/
theorem imageHasTheFirstBitOnTop : Obligations.ImageHasTheFirstBitOnTop :=
  fun c => ⟨img_lt c, testBit_img c⟩

/-- Settles O6: the step hands the word to `acceptWord`, which runs what it decodes to. -/
theorem stepRunsThePresentedCommand : Obligations.StepRunsThePresentedCommand := by
  intro s w rest i hin hdec
  rw [step_of_command hin, acceptWord_of_decode hdec]

end Sys2Proof.Machine
end

section
/-! PROOF. The statements of 10_state.md: the invariants of the block (R41 to R43), the counters (R33, R35), the moves of MODE
(R30), and what the block reads (R44). -/

namespace Sys2Proof.Machine

/-! ## The invariant under the updates that commands share -/

theorem invariant_reset : Invariant Block.reset where
  tables := reset_memory_wf
  codesFit := fun _ => Nat.zero_le _
  pendFits := Nat.zero_le _
  pendOutside := fun _ => rfl
  pendShort := nofun
  pendUnmatched := nofun
  accOutside := fun _ => ⟨rfl, rfl⟩
  accFits := by decide
  tableUsable := nofun
  tableUnmarked := fun _ => rfl
  treeStands := nofun
  treeGone := fun _ => ⟨rfl, rfl⟩
  runHasTable := fun h => absurd rfl h
  noFault := fun _ => ⟨rfl, rfl⟩
  limitKept := nofun

theorem counted_invariant {s : State} (h : Invariant s.block) : Invariant (counted s).block := { h with }

/-- Fault entry keeps the invariant: the two clauses about a block without a fault fall away. -/
theorem raise_invariant {s : State} (h : Invariant s.block) {e : Err} (he : e ≠ .none) (w : CmdWord) :
    Invariant (raise e w s).block :=
  { h with pendShort := fun _ h0 => absurd h0 he, noFault := fun h0 => absurd h0 he }

theorem illegalWord_invariant {s : State} (h : Invariant s.block) (w : CmdWord) :
    Invariant (illegalWord w s).block := by
  unfold illegalWord
  split
  · exact counted_invariant h
  · exact counted_invariant (raise_invariant h (by decide) w)

/-- The frequencies may be any canonical table. -/
theorem invariant_withFreq {b : Block} (h : Invariant b) {freq : Table Freq}
    (hwf : Table.wf Config.nsym unlistedFreq freq = true) : Invariant { b with freq := freq } :=
  { h with tables := (memory_wf_iff _).mpr ⟨hwf, ((memory_wf_iff b).mp h.tables).2⟩ }

/-- In IDLE the codes may be any canonical table within MAXLEN, when TAB_OK and LMAX say what (d) of R41 asks of them. -/
theorem invariant_withTable {b : Block} (h : Invariant b) (hm : b.mode = .idle) {code : Table Bits} {lmax : BitVec 8}
    {tabOk : Bool} (hwf : Table.wf Config.nsym unlistedCode code = true)
    (hfit : ∀ x, (codeIn code x).length ≤ Config.maxlen)
    (hok : tabOk = true →
      (∃ x, codeIn code x ≠ []) ∧ PrefixFree (codeIn code) ∧ IsGreatestLength (codeIn code) lmax.toNat)
    (hno : tabOk = false → lmax = 0#8) :
    Invariant { b with code := code, lmax := lmax, tabOk := tabOk } :=
  have hidle : b.mode ≠ .unpack := by rw [hm]; decide
  { h with
    tables := (memory_wf_iff _).mpr ⟨((memory_wf_iff b).mp h.tables).1, hwf⟩
    codesFit := hfit
    pendShort := fun hu => absurd hu hidle
    pendUnmatched := fun hu => absurd hu hidle
    tableUsable := hok
    tableUnmarked := hno
    runHasTable := fun hr => absurd hm hr }

/-- A change of CODE that clears TAB_OK and LMAX (R29). -/
theorem unmarkTable_invariant {s : State} (h : Invariant s.block) (hm : s.block.mode = .idle) {code : Table Bits}
    (hwf : Table.wf Config.nsym unlistedCode code = true) (hfit : ∀ x, (codeIn code x).length ≤ Config.maxlen) :
    Invariant (unmarkTable { s with block.code := code }).block :=
  invariant_withTable h hm hwf hfit nofun fun _ => rfl

/-- A table that is not empty and in which no code begins another may be marked (R29, R43). -/
theorem markTable_invariant {s : State} (h : Invariant s.block) (hm : s.block.mode = .idle) {code : Table Bits}
    (hwf : Table.wf Config.nsym unlistedCode code = true) (hfit : ∀ x, (codeIn code x).length ≤ Config.maxlen)
    (hne : ∃ x, codeIn code x ≠ []) (hp : PrefixFree (codeIn code)) :
    Invariant (markTable { s with block.code := code }).block :=
  invariant_withTable h hm hwf hfit (fun _ => ⟨hne, hp, markTable_lmax hne hfit⟩) nofun

theorem discardTree_invariant {s : State} (h : Invariant s.block) : Invariant (discardTree s).block :=
  { h with treeStands := nofun, treeGone := fun _ => ⟨rfl, rfl⟩ }

/-! ## The invariant under what each command does -/

/-- BUILD's tree from leaves in order (R41 (e), R42). -/
theorem plantTree_invariant {s : State} (h : Invariant s.block) {leaves : List Node} (hl : LeafRow leaves) :
    Invariant (plantTree leaves s).block := by
  obtain ⟨root, hroot, hshape, -⟩ := mergeAll_spec hl
  have hsize := hl.size
  have hnodes := hshape.size
  have hlast := hshape.rootLast
  simp only [Config.nsym] at hsize
  have hr : (BitVec.ofNat 9 root).toNat = root := by rw [BitVec.toNat_ofNat]; omega
  have hn : (BitVec.ofNat 9 leaves.length).toNat = leaves.length := by rw [BitVec.toNat_ofNat]; omega
  rw [plantTree_block, hroot]
  refine { h with treeStands := fun _ => ?_, treeGone := nofun }
  simp only [List.headD_cons, hr, hn]
  exact ⟨hshape, trivial⟩

theorem buildTree_invariant {s : State} (h : Invariant s.block) : Invariant (buildTree s).block := by
  rcases buildTree_cases s with ⟨-, hb⟩ | ⟨hf, hb⟩
  · rw [hb]; exact raise_invariant h (by decide) _
  · rw [hb]; exact plantTree_invariant h (leafNodes_row _ hf)

theorem generateCodes_invariant {s : State} (h : Invariant s.block) (hm : s.block.mode = .idle)
    (ht : s.block.treeValid = true) : Invariant (generateCodes s).block := by
  obtain ⟨hshape, -⟩ := h.treeStands ht
  exact discardTree_invariant (markTable_invariant h hm (treeCodes_wf _ _) (treeCodes_fit hshape)
    (treeCodes_nonempty hshape) (treeCodes_prefixFree hshape))

/-- One code replaced by another within MAXLEN. -/
theorem setCode_invariant {s : State} (h : Invariant s.block) (hm : s.block.mode = .idle) (sym : Sym) {c : Bits}
    (hc : c.length ≤ Config.maxlen) : Invariant (unmarkTable (setCode sym c s)).block := by
  refine unmarkTable_invariant h hm (codeWith_wf _ _ _ ((memory_wf_iff _).mp h.tables).2) fun x => ?_
  rw [codeIn_codeWith]
  split
  · exact hc
  · exact h.codesFit x

theorem appendCode_invariant {s : State} (h : Invariant s.block) (hm : s.block.mode = .idle) (sym : Sym) (n : BitVec 8)
    (v : BitVec 32) : Invariant (appendCode sym n v s).block := by
  unfold appendCode
  split
  · exact raise_invariant h (by decide) _
  · rename_i hlen
    exact setCode_invariant h hm sym (by simpa [lowBits] using hlen)

theorem checkTable_invariant {s : State} (h : Invariant s.block) (hm : s.block.mode = .idle) :
    Invariant (checkTable s).block := by
  rcases checkTable_cases s with hc | ⟨hne, hp, hc⟩
  · rw [hc]; exact raise_invariant h (by decide) _
  · rw [hc]
    have hpresent : ∃ x, codeIn s.block.code x ≠ [] := by
      rw [ne_eq, presentCodes_eq_nil] at hne
      exact not_forall.mp hne
    exact markTable_invariant h hm ((memory_wf_iff _).mp h.tables).2 h.codesFit hpresent hp

theorem startPacking_invariant {s : State} (h : Invariant s.block) (hm : s.block.mode = .idle)
    (hk : s.block.tabOk = true) : Invariant (startPacking s).block :=
  have hpend : s.block.pend = [] := h.pendOutside (by rw [hm]; decide)
  { h with
    pendOutside := fun _ => hpend
    pendShort := nofun
    pendUnmatched := nofun
    accOutside := fun hp => absurd rfl hp
    accFits := Nat.one_pos
    runHasTable := fun _ => hk
    limitKept := nofun }

/-- The waiting bits that NACC counts are all that ACC holds (R41 (c)). -/
theorem Waits.accFits {waiting : Bits} {b : Block} (h : Waits waiting b) : b.acc.toNat < 2 ^ b.nacc.toNat := by
  rw [← h.1, ← h.2]
  exact img_lt waiting

theorem packSymbol_invariant {s : State} (h : Invariant s.block) (hm : s.block.mode = .pack) (sym : Sym) :
    Invariant (packSymbol sym s).block := by
  obtain ⟨waiting, hw⟩ := exists_waits s.block h.accFits
  have hacc := (packBits_waits (codeAt s.block sym) hw).accFits
  obtain ⟨acc, nacc, bytecnt, out, hp⟩ := packBits_frame (codeAt s.block sym) s
  unfold packSymbol
  split
  · exact raise_invariant h (by decide) _
  · rw [hp] at hacc ⊢
    exact { h with
      accOutside := fun hne => absurd hm hne
      accFits := hacc
      limitKept := fun hu => absurd (hm.symm.trans hu) (by decide) }

theorem finishPacking_invariant {s : State} (h : Invariant s.block) (hm : s.block.mode = .pack) :
    Invariant (finishPacking s).block := by
  have hpend : s.block.pend = [] := h.pendOutside (by rw [hm]; decide)
  obtain ⟨padcnt, bytecnt, out, -, hf⟩ := finishPacking_frame s
  rw [hf]
  exact { h with
    pendOutside := fun _ => hpend
    pendShort := nofun
    pendUnmatched := nofun
    accOutside := fun _ => ⟨rfl, rfl⟩
    accFits := Nat.one_pos
    runHasTable := fun hne => absurd rfl hne
    limitKept := nofun }

/-- A usable table has a code, so LMAX is not 0. -/
theorem lmax_pos {b : Block} (h : Invariant b) (hk : b.tabOk = true) : 0 < b.lmax.toNat := by
  obtain ⟨⟨x, hx⟩, -, -, hle⟩ := h.tableUsable hk
  exact lt_of_lt_of_le (List.length_pos_iff.mpr hx) (hle x)

theorem startUnpacking_invariant {s : State} (h : Invariant s.block) (hm : s.block.mode = .idle)
    (hk : s.block.tabOk = true) (limEn : Bool) (explen : Count) :
    Invariant (startUnpacking limEn explen s).block :=
  have hlmax : 0 < s.block.lmax.toNat := lmax_pos h hk
  have hacc : s.block.nacc = 0#3 ∧ s.block.acc = 0#8 := h.accOutside (by rw [hm]; decide)
  { h with
    pendFits := Nat.zero_le _
    pendOutside := fun _ => rfl
    pendShort := fun _ _ => hlmax
    pendUnmatched := fun _ => nothing_matches_nil _
    accOutside := fun _ => hacc
    runHasTable := fun _ => hk
    limitKept := fun _ _ => Nat.zero_le _ }

/-- Between two UBYTEs PEND may be any bits that no code begins and, without a fault, that are fewer than LMAX; SYMCNT any
count within the limit. -/
theorem invariant_unpacking {b : Block} (h : Invariant b) (hm : b.mode = .unpack) {pend : Bits} {symcnt bytecnt : Count}
    (hn : matchIn (codeAt b) pend = none) (hfit : pend.length ≤ Config.pendmax)
    (hshort : b.err = .none → pend.length < b.lmax.toNat)
    (hlim : b.limitEn = true → symcnt.toNat ≤ b.explen.toNat) :
    Invariant { b with bytecnt := bytecnt, pend := pend, symcnt := symcnt } :=
  { h with
    pendFits := hfit
    pendOutside := fun hne => absurd hm hne
    pendShort := fun _ => hshort
    pendUnmatched := fun _ => matchIn_none.mp hn
    limitKept := fun _ => hlim }

/-- UBYTE where the limit does not come into it: what the matching loop leaves is pending, and as many bits as LMAX or more
are a StreamError (R163, R165, R166). -/
theorem unpackByte_free_invariant {s : State} (h : Invariant s.block) (hm : s.block.mode = .unpack)
    (he : s.block.err = .none) (byte : Byte)
    (hlim : s.block.limitEn = false ∨
      s.block.symcnt.toNat + (decodeBits (codeAt s.block) (s.block.pend ++ byteBits byte)).1.length <
        s.block.explen.toNat) : Invariant (unpackByte byte s).block := by
  rw [unpackByte_free byte s hlim]
  have hn := decodeBits_ends (codeAt s.block) (s.block.pend ++ byteBits byte)
  have hsplit := congrArg List.length (decodeBits_splits (codeAt s.block) (s.block.pend ++ byteBits byte))
  generalize decodeBits (codeAt s.block) (s.block.pend ++ byteBits byte) = found at *
  have hcount : s.block.limitEn = true →
      (satInc^[found.1.length] s.block.symcnt).toNat ≤ s.block.explen.toNat := by
    intro hl
    rw [satInc_iterate_toNat]
    rcases hlim with hl' | hlt
    · exact absurd (hl.symm.trans hl') (by decide)
    · omega
  have hfit : found.2.length ≤ Config.pendmax := by
    have hshort := h.pendShort hm he
    have hmax := s.block.lmax.isLt
    rw [List.length_append, List.length_append, byteBits_length] at hsplit
    simp only [Config.pendmax]
    omega
  dsimp only
  split
  · exact invariant_unpacking (raise_invariant h (by decide) _) hm hn hfit nofun hcount
  · rename_i hlt
    exact invariant_unpacking h hm hn hfit (fun _ => not_le.mp hlt) hcount

theorem unpackByte_invariant {s : State} (h : Invariant s.block) (hm : s.block.mode = .unpack)
    (he : s.block.err = .none) (byte : Byte) : Invariant (unpackByte byte s).block := by
  by_cases hl : s.block.limitEn = true
  · rcases Nat.lt_or_eq_of_le (h.limitKept hm hl) with hlt | heq
    · rcases Nat.lt_or_ge (s.block.symcnt.toNat +
          (decodeBits (codeAt s.block) (s.block.pend ++ byteBits byte)).1.length) s.block.explen.toNat with hlt' | hge
      · exact unpackByte_free_invariant h hm he byte (.inr hlt')
      · rw [unpackByte_reaches_limit byte s hl hlt hge]
        exact invariant_unpacking h hm (matchIn_none.mpr (nothing_matches_nil _)) (Nat.zero_le _)
          (fun _ => lmax_pos h (h.runHasTable (by rw [hm]; decide))) fun _ => Nat.le_refl _
    · rw [unpackByte_at_limit byte s (by simp [limitReached, hl, BitVec.eq_of_toNat_eq heq])]
      exact { h with }
  · exact unpackByte_free_invariant h hm he byte (.inl (Bool.not_eq_true _ ▸ hl))

theorem finishUnpacking_invariant {s : State} (h : Invariant s.block) (hm : s.block.mode = .unpack) :
    Invariant (finishUnpacking s).block := by
  have hacc : s.block.nacc = 0#3 ∧ s.block.acc = 0#8 := h.accOutside (by rw [hm]; decide)
  rcases finishUnpacking_cases s with hf | hf
  · rw [hf]; exact raise_invariant h (by decide) _
  · rw [hf]
    exact { h with
      pendFits := Nat.zero_le _
      pendOutside := fun _ => rfl
      pendShort := nofun
      pendUnmatched := nofun
      accOutside := fun _ => hacc
      runHasTable := fun hne => absurd rfl hne
      limitKept := nofun }

/-! ## Every command and every step -/

/-- A reading command leaves the block as it is (60_exceptions.md R206). -/
theorem effect_reads_block {i : Instr} (hr : readsOnly i = true) (s : State) : (effect i s).block = s.block := by
  cases i with
  | rdcnt sel => simp only [effect]; split <;> rfl
  | nop | rdstat | frd | nrd | tlen | tbits => rfl
  | _ => cases hr

/-- What a command does once the prelude has let it run. -/
theorem effect_invariant {i : Instr} {s : State} (h : Invariant s.block) (hq : seqOk s.block i = true)
    (he : s.block.err = .none ∨ readsOnly i = true) : Invariant (effect i s).block := by
  cases i with
  | nop | rdstat | rdcnt | frd | nrd | tlen | tbits => rw [effect_reads_block rfl]; exact h
  | srst => exact invariant_reset
  | fclr => exact invariant_withFreq h (Table.wf_nil _ _)
  | fset sym count => exact invariant_withFreq h (Table.write_wf _ _ _ _ _ sym.isLt ((memory_wf_iff _).mp h.tables).1)
  | build => exact buildTree_invariant h
  | gen =>
    obtain ⟨hm, ht⟩ : s.block.mode = .idle ∧ s.block.treeValid = true := by simpa [seqOk] using hq
    exact generateCodes_invariant h hm ht
  | tclr => exact unmarkTable_invariant h (beq_iff_eq.mp hq) (Table.wf_nil _ _) fun _ => Nat.zero_le _
  | tdel sym => exact setCode_invariant h (beq_iff_eq.mp hq) sym (Nat.zero_le _)
  | tapp sym n v => exact appendCode_invariant h (beq_iff_eq.mp hq) sym n v
  | tchk => exact checkTable_invariant h (beq_iff_eq.mp hq)
  | pstart =>
    obtain ⟨hm, hk⟩ : s.block.mode = .idle ∧ s.block.tabOk = true := by simpa [seqOk] using hq
    exact startPacking_invariant h hm hk
  | psym sym => exact packSymbol_invariant h (beq_iff_eq.mp hq) sym
  | pfin => exact finishPacking_invariant h (beq_iff_eq.mp hq)
  | ustart limEn explen =>
    obtain ⟨hm, hk⟩ : s.block.mode = .idle ∧ s.block.tabOk = true := by simpa [seqOk] using hq
    exact startUnpacking_invariant h hm hk limEn explen
  | ubyte byte => exact unpackByte_invariant h (beq_iff_eq.mp hq) (he.resolve_right nofun) byte
  | ufin => exact finishUnpacking_invariant h (beq_iff_eq.mp hq)

theorem exec_invariant {i : Instr} {s t : State} (h : Invariant s.block) (ht : exec i s = .next t) :
    Invariant t.block := by
  rcases exec_cases ht with ⟨-, rfl⟩ | ⟨-, -, -, rfl⟩ | ⟨-, -, -, rfl⟩ | ⟨-, -, -, -, rfl⟩ | ⟨-, -, hq, he, rfl⟩
  · exact invariant_reset
  · exact counted_invariant h
  · exact counted_invariant (raise_invariant h (by decide) _)
  · exact counted_invariant (raise_invariant h (by decide) _)
  · exact counted_invariant (effect_invariant h hq he)

theorem acceptWord_invariant {w : CmdWord} {s t : State} (h : Invariant s.block) (ht : acceptWord w s = .next t) :
    Invariant t.block := by
  rcases acceptWord_cases ht with ⟨i, -, hi⟩ | ⟨e, -, rfl⟩
  · exact exec_invariant h hi
  · exact illegalWord_invariant h w

/-- Settles O58, clause by clause: every register is 0 and every space empty. -/
theorem resetStateMeetsTheInvariants : Obligations.ResetStateMeetsTheInvariants := invariant_reset

/-- Settles O57: of the ways a step can end (`step_cases`), waiting keeps the block, a command word is the business of
`acceptWord_invariant`, and both forms of the reset input put the reset state. -/
theorem stepKeepsTheInvariants : Obligations.StepKeepsTheInvariants := by
  intro s t h ht
  rcases step_cases ht with ⟨-, rfl⟩ | ⟨w, rest, -, hw⟩ | ⟨rest, -, rfl⟩ | ⟨w, taken, rest, after, -, -, rfl⟩
  · exact h
  · exact acceptWord_invariant (s := dropInput 1 s) h hw
  · exact invariant_reset
  · exact invariant_reset

/-! ## Counters -/

/-- Settles O12: below the greatest value the sum does not wrap, at it the counter stays (`satInc_toNat`). -/
theorem countersSaturate : Obligations.CountersSaturate := satInc_toNat

/-! ## BUILD and GEN in a row -/

/-- The symbols in the finished tree are those of the leaves it was built from. -/
theorem mergeAll_symbols {leaves : List Node} (h : LeafRow leaves) (x : Sym) :
    (∃ (i : Nat) (nd : Node), (mergeAll leaves).1[i]? = some nd ∧ nd.kind = .leaf ∧ nd.sym = x) ↔
      ∃ nd ∈ leaves, nd.sym = x := by
  obtain ⟨root, -, hshape, htake, -⟩ := mergeAll_spec h
  have hold : ∀ i, i < leaves.length → (mergeAll leaves).1[i]? = leaves[i]? := fun i hi => by
    conv_rhs => rw [← htake]
    rw [List.getElem?_take_of_lt hi]
  constructor
  · rintro ⟨i, nd, hnd, hk, hs⟩
    have hi := (hshape.leavesFirst i nd hnd).mp hk
    exact ⟨nd, List.mem_of_getElem? ((hold i hi).symm.trans hnd), hs⟩
  · rintro ⟨nd, hmem, hs⟩
    obtain ⟨i, hi⟩ := List.mem_iff_getElem?.mp hmem
    have hlt := (List.getElem?_eq_some_iff.mp hi).1
    exact ⟨i, nd, (hold i hlt).trans hi, (h.leaf nd hmem).1, hs⟩

/-- BUILD makes a leaf for exactly the symbols with a non-zero frequency (R112). -/
theorem leafNodes_symbols (b : Block) (x : Sym) : (∃ nd ∈ leafNodes b, nd.sym = x) ↔ freqAt b x ≠ 0#32 := by
  simp [leafNodes_eq, leafNode, mem_symbols]

/-- Settles O27: BUILD keeps the invariant, so GEN finds a finished tree; what its table is, the laws of `treeCodes` say, and
the symbols of the tree's leaves are those with a non-zero frequency. -/
theorem buildThenGenCodesTheSymbolsThatOccur : Obligations.BuildThenGenCodesTheSymbolsThatOccur := by
  intro s h he hm hf
  have hrow := leafNodes_row s.block hf
  have hplant : buildTree s = plantTree (leafNodes s.block) s := by
    rcases buildTree_cases s with ⟨h0, -⟩ | ⟨-, hb⟩
    · obtain ⟨x, hx⟩ := hf
      exact absurd (h0 x) hx
    · exact hb
  have hbuild : exec .build s = .next (counted (plantTree (leafNodes s.block) s)) :=
    hplant ▸ exec_runs (i := .build) (by decide) he rfl rfl
  obtain ⟨hshape, -⟩ := (exec_invariant h hbuild).treeStands rfl
  have hgen := exec_runs (i := .gen) (s := counted (plantTree (leafNodes s.block) s)) (by decide) he rfl
    (by simp [seqOk, hm])
  have hrun : execAll [.build, .gen] s = .next (counted (generateCodes (counted (plantTree (leafNodes s.block) s)))) :=
    (execAll_cons hbuild).trans (execAll_cons hgen)
  refine ⟨_, hrun, he, rfl, treeCodes_prefixFree hshape, treeCodes_nonempty hshape, fun x => ?_⟩
  rw [← leafNodes_symbols, ← mergeAll_symbols hrow]
  exact treeCodes_present hshape x

/-! ## CMDCNT and MODE: what a command does to them -/

/-- The MODE that a command which moves MODE enters (R30). -/
def modeEntered : Instr → Option Mode
  | .pstart => some .pack
  | .ustart _ _ => some .unpack
  | .pfin => some .idle
  | .ufin => some .idle
  | .srst => some .idle
  | _ => none

/-- No command but SRST touches CMDCNT itself, and a command leaves MODE alone or enters its own. -/
theorem effect_cmdcnt_mode {i : Instr} (hi : i ≠ .srst) (s : State) :
    (effect i s).block.cmdcnt = s.block.cmdcnt ∧
      ((effect i s).block.mode = s.block.mode ∨ modeEntered i = some (effect i s).block.mode) := by
  cases i with
  | srst => exact absurd rfl hi
  | rdcnt sel => rw [effect_reads_block rfl]; exact ⟨rfl, .inl rfl⟩
  | build =>
    rcases buildTree_cases s with ⟨-, h⟩ | ⟨-, h⟩ <;> rw [effect, h] <;> exact ⟨rfl, .inl rfl⟩
  | tapp sym n v =>
    rcases appendCode_cases sym n v s with h | h <;> rw [effect, h] <;> exact ⟨rfl, .inl rfl⟩
  | tchk =>
    rcases checkTable_cases s with h | ⟨-, -, h⟩ <;> rw [effect, h] <;> exact ⟨rfl, .inl rfl⟩
  | psym sym =>
    rcases packSymbol_frame sym s with ⟨-, h⟩ | ⟨acc, nacc, bytecnt, out, h⟩ <;> rw [effect, h] <;>
      exact ⟨rfl, .inl rfl⟩
  | pfin =>
    obtain ⟨padcnt, bytecnt, out, -, h⟩ := finishPacking_frame s
    rw [effect, h]
    exact ⟨rfl, .inr rfl⟩
  | ubyte byte =>
    obtain ⟨pend, symcnt, out, h | h⟩ := unpackByte_frame byte s <;> rw [effect, h] <;> exact ⟨rfl, .inl rfl⟩
  | ufin =>
    rcases finishUnpacking_cases s with h | h
    · rw [effect, h]; exact ⟨rfl, .inl rfl⟩
    · rw [effect, h]; exact ⟨rfl, .inr rfl⟩
  | pstart | ustart => exact ⟨rfl, .inr rfl⟩
  | _ => exact ⟨rfl, .inl rfl⟩

theorem exec_cmdcnt {i : Instr} {s t : State} (h : exec i s = .next t) :
    t.block.cmdcnt = if i = .srst then 0#32 else satInc s.block.cmdcnt := by
  rcases exec_cases h with ⟨rfl, rfl⟩ | ⟨hi, -, -, rfl⟩ | ⟨hi, -, -, rfl⟩ | ⟨hi, -, -, -, rfl⟩ | ⟨hi, -, -, -, rfl⟩
  · rfl
  · rw [if_neg hi, counted_block]
  · rw [if_neg hi, counted_block, raise_block]
  · rw [if_neg hi, counted_block, raise_block]
  · rw [if_neg hi, counted_block, (effect_cmdcnt_mode hi s).1]

theorem illegalWord_cmdcnt (w : CmdWord) (s : State) :
    (illegalWord w s).block.cmdcnt = satInc s.block.cmdcnt := by
  unfold illegalWord
  split <;> rfl

/-- Settles O50: a word that decodes is counted as its command is (`exec_cmdcnt`), an illegal one like any other. -/
theorem everyCommandIsCounted : Obligations.EveryCommandIsCounted := by
  refine ⟨rfl, fun s t w rest hin ht => ?_⟩
  rw [step_of_command hin] at ht
  rcases acceptWord_cases ht with ⟨i, hdec, hi⟩ | ⟨e, hdec, rfl⟩
  · rw [hdec, exec_cmdcnt hi]
    simp only [Except.ok.injEq]
  · rw [hdec, illegalWord_cmdcnt, if_neg nofun]

/-- A command that changed MODE ran, in sequence, and entered its own MODE, or is SRST. -/
theorem exec_mode_changed {i : Instr} {s t : State} (h : exec i s = .next t) (hne : t.block.mode ≠ s.block.mode) :
    modeEntered i = some t.block.mode ∧ seqOk s.block i = true := by
  rcases exec_cases h with ⟨rfl, rfl⟩ | ⟨-, -, -, rfl⟩ | ⟨-, -, -, rfl⟩ | ⟨-, -, -, -, rfl⟩ | ⟨hi, -, hq, -, rfl⟩
  · exact ⟨rfl, rfl⟩
  · exact absurd rfl hne
  · exact absurd rfl hne
  · exact absurd rfl hne
  · exact ⟨(effect_cmdcnt_mode hi s).2.resolve_left hne, hq⟩

/-- Settles O51: a change of MODE is to the MODE its command enters, and the MODE before it is the one the command needs. -/
theorem onlyFiveCommandsChangeMode : Obligations.OnlyFiveCommandsChangeMode := by
  intro s t i h hne
  obtain ⟨hto, hq⟩ := exec_mode_changed h hne
  cases i with
  | pstart =>
    obtain ⟨hm, -⟩ : s.block.mode = .idle ∧ s.block.tabOk = true := by simpa [seqOk] using hq
    exact .inl ⟨rfl, hm, (Option.some.inj hto).symm⟩
  | pfin => exact .inr (.inl ⟨rfl, beq_iff_eq.mp hq, (Option.some.inj hto).symm⟩)
  | ustart l e =>
    obtain ⟨hm, -⟩ : s.block.mode = .idle ∧ s.block.tabOk = true := by simpa [seqOk] using hq
    exact .inr (.inr (.inl ⟨l, e, rfl, hm, (Option.some.inj hto).symm⟩))
  | ufin => exact .inr (.inr (.inr (.inl ⟨rfl, beq_iff_eq.mp hq, (Option.some.inj hto).symm⟩)))
  | srst => exact .inr (.inr (.inr (.inr ⟨rfl, (Option.some.inj hto).symm⟩)))
  | _ => cases hto

/-! ## What a command does depends on the block alone (R44) -/

/-- From the block `b`, `f` leaves one block and emits the same words, whatever the host has presented or received. -/
def BlockDetermines (f : State → State) (b : Block) : Prop :=
  ∃ b' rsp outb outs, ∀ h : HostSide,
    f ⟨b, h⟩ = ⟨b', { h with rsp := h.rsp ++ rsp, outb := h.outb ++ outb, outs := h.outs ++ outs }⟩

/-- An update that emits nothing. -/
theorem BlockDetermines.update {f : State → State} {b : Block}
    (hf : ∀ h, f ⟨b, h⟩ = ⟨(f ⟨b, .initial⟩).block, h⟩ := by exact fun _ => rfl) : BlockDetermines f b :=
  ⟨_, [], [], [], fun h => by simpa using hf h⟩

theorem BlockDetermines.comp {f g : State → State} {b : Block} (hf : BlockDetermines f b)
    (hg : ∀ b', BlockDetermines g b') : BlockDetermines (fun s => g (f s)) b := by
  obtain ⟨b', rsp, outb, outs, hf⟩ := hf
  obtain ⟨b'', rsp', outb', outs', hg⟩ := hg b'
  exact ⟨b'', rsp ++ rsp', outb ++ outb', outs ++ outs', fun h => by simp [hf, hg]⟩

/-- A choice that the block decides. -/
theorem BlockDetermines.ite {p : Block → Prop} [DecidablePred p] {f g : State → State} {b : Block}
    (hf : BlockDetermines f b) (hg : BlockDetermines g b) :
    BlockDetermines (fun s => if p s.block then f s else g s) b := by
  by_cases hp : p b
  · simpa only [BlockDetermines, hp, if_true] using hf
  · simpa only [BlockDetermines, hp, if_false] using hg

theorem respond_determined (w : Block → Resp) (b : Block) : BlockDetermines (fun s => respond (w s.block) s) b :=
  ⟨b, [w b], [], [], fun h => by simp [respond]⟩

theorem emitCountedByte_determined (byte : Block → Byte) (b : Block) :
    BlockDetermines (fun s => emitCountedByte (byte s.block) s) b :=
  ⟨(emitCountedByte (byte b) ⟨b, .initial⟩).block, [], [byte b], [], fun h => by simp [emitCountedByte, emitB]⟩

theorem packBit_determined (bit : Bool) (b : Block) : BlockDetermines (packBit · bit) b :=
  .ite (p := fun b => b.nacc = 7#3)
    ((emitCountedByte_determined (fun b => (b.acc <<< 1) ||| (BitVec.ofBool bit).setWidth 8) b).comp
      (g := fun s => { s with block.acc := 0#8, block.nacc := 0#3 }) fun _ => .update)
    .update

theorem packBits_determined (bits : Bits) (b : Block) : BlockDetermines (packBits bits) b := by
  induction bits generalizing b with
  | nil => exact .update
  | cons bit bits ih => exact (packBit_determined bit b).comp ih

theorem packSymbol_determined (sym : Sym) (b : Block) : BlockDetermines (packSymbol sym) b :=
  .ite (p := fun b => codeAt b sym = []) .update <|
    (packBits_determined (codeAt b sym) b).comp
      (g := fun s => { s with block.symcnt := satInc s.block.symcnt }) fun _ => .update

theorem flushByte_determined (b : Block) : BlockDetermines flushByte b :=
  .ite (p := fun b => b.nacc = 0#3) .update <|
    (emitCountedByte_determined (fun b => b.acc <<< (8 - b.nacc.toNat)) b).comp
      (g := fun s => { s with block.padcnt := BitVec.ofNat 3 (8 - b.nacc.toNat) }) fun _ => .update

theorem finishPacking_determined (b : Block) : BlockDetermines finishPacking b :=
  (flushByte_determined b).comp
    (g := fun s => { s with block.acc := 0#8, block.nacc := 0#3, block.mode := .idle }) fun _ => .update

/-- Whether UBYTE's loop ends at the limit is the block's business as well. -/
theorem drain_determined (fuel : Nat) (b : Block) : ∃ b' outs reached, ∀ h : HostSide,
    drain fuel ⟨b, h⟩ = (⟨b', { h with outs := h.outs ++ outs }⟩, reached) := by
  induction fuel generalizing b with
  | zero => exact ⟨b, [], false, fun h => by simp [drain]⟩
  | succ n ih =>
    cases hm : matchCode b b.pend with
    | none => exact ⟨b, [], false, fun h => by simp [drain_succ_none n (s := ⟨b, h⟩) hm]⟩
    | some x =>
      have hstep := fun h => drain_succ_some n (s := ⟨b, h⟩) hm
      by_cases hl : limitReached (takeSymbol x ⟨b, .initial⟩).block = true
      · exact ⟨{ (takeSymbol x ⟨b, .initial⟩).block with pend := [] }, [x], true, fun h =>
          (hstep h).trans (if_pos hl)⟩
      · obtain ⟨b', outs, reached, hd⟩ := ih (takeSymbol x ⟨b, .initial⟩).block
        exact ⟨b', x :: outs, reached, fun h => ((hstep h).trans (if_neg hl)).trans ((hd _).trans (by simp))⟩

theorem unpackByte_determined (byte : Byte) (b : Block) : BlockDetermines (unpackByte byte) b := by
  cases hl : limitReached b with
  | true =>
    exact .update fun h => by
      rw [unpackByte_at_limit byte ⟨b, h⟩ hl, unpackByte_at_limit byte ⟨b, .initial⟩ hl]
  | false =>
    have hrun := fun h => unpackByte_below_limit byte ⟨b, h⟩ hl
    obtain ⟨b', outs, reached, hd⟩ : ∃ b' outs reached, ∀ h : HostSide,
        drain (b.pend.length + 8) (feed byte ⟨b, h⟩) =
          (⟨b', { h with outs := h.outs ++ outs }⟩, reached) :=
      drain_determined _ (feed byte ⟨b, .initial⟩).block
    cases reached with
    | true => exact ⟨b', [], [], outs, fun h => by simp [hrun, hd]⟩
    | false =>
      by_cases hlen : b'.pend.length ≥ b'.lmax.toNat
      · exact ⟨(raise .streamError (encode (.ubyte byte)) ⟨b', .initial⟩).block, [], [], outs, fun h => by
          simp [hrun, hd, hlen, raise]⟩
      · exact ⟨b', [], [], outs, fun h => by simp [hrun, hd, hlen]⟩

theorem finishUnpacking_determined (b : Block) : BlockDetermines finishUnpacking b :=
  .ite (p := fun b => (b.limitEn && decide (b.symcnt.toNat < b.explen.toNat)) = true) .update .update

theorem effect_determined (i : Instr) (b : Block) : BlockDetermines (effect i) b := by
  cases i with
  | rdstat => exact respond_determined statusWord b
  | rdcnt sel =>
    cases hw : counter b sel with
    | none => exact .update fun h => by simp only [effect, hw]
    | some w => exact ⟨b, [w], [], [], fun h => by simp [effect, hw, respond]⟩
  | frd sym => exact respond_determined (freqAt · sym) b
  | nrd sel idx => exact respond_determined (nodeWord · sel idx) b
  | tlen sym => exact respond_determined (fun b => lengthWord (codeAt b sym)) b
  | tbits sym k => exact respond_determined (fun b => chunkWord (codeAt b sym) k) b
  | build => exact .ite (p := fun b => (leafNodes b).isEmpty = true) .update .update
  | tapp sym n v =>
    exact .ite (p := fun b => (codeAt b sym).length + n.toNat > Config.maxlen) .update .update
  | tchk =>
    exact .ite (p := fun b => (presentCodes b.code).isEmpty = true) .update <|
      .ite (p := fun b => (!prefixFree b.code) = true) .update .update
  | psym sym => exact packSymbol_determined sym b
  | pfin => exact finishPacking_determined b
  | ubyte byte => exact unpackByte_determined byte b
  | ufin => exact finishUnpacking_determined b
  | _ => exact .update

/-- The prelude decides on the block alone, and whatever it lets run is determined by the block. -/
theorem exec_determined (i : Instr) (b : Block) :
    ∃ f, (∀ h, exec i ⟨b, h⟩ = .next (f ⟨b, h⟩)) ∧ BlockDetermines f b := by
  have hcounted : ∀ b', BlockDetermines counted b' := fun _ => .update
  have hraised : ∀ e, BlockDetermines (fun s => counted (raise e (encode i) s)) b :=
    fun _ => .update
  have hran : BlockDetermines (fun s => counted (effect i s)) b := (effect_determined i b).comp hcounted
  by_cases hi : i = .srst
  · exact ⟨resetBlock, fun h => hi ▸ exec_srst _, .update⟩
  · have hexec : ∀ h, exec i ⟨b, h⟩ = withPrelude i (effect i) ⟨b, h⟩ := fun h => exec_eq i _ hi
    cases hf : faulted b with
    | true =>
      cases hr : readsOnly i && i.wf with
      | true => exact ⟨_, fun h => by simp [hexec, withPrelude, hf, hr], hran⟩
      | false => exact ⟨counted, fun h => by simp [hexec, withPrelude, hf, hr], hcounted b⟩
    | false =>
      cases hw : i.wf with
      | false => exact ⟨_, fun h => by simp [hexec, withPrelude, illegalWord, hf, hw], hraised .illCmdError⟩
      | true =>
        cases hq : seqOk b i with
        | false => exact ⟨_, fun h => by simp [hexec, withPrelude, hf, hw, hq], hraised .seqError⟩
        | true => exact ⟨_, fun h => by simp [hexec, withPrelude, hf, hw, hq], hran⟩

/-- Settles O56: the two states differ in the host's side at most, which `exec_determined` leaves free. -/
theorem blockDoesNotReadTheHostSide : Obligations.BlockDoesNotReadTheHostSide := by
  rintro ⟨b, h⟩ ⟨_, h'⟩ t t' i rfl ht ht'
  obtain ⟨f, hf, b', rsp, outb, outs, hd⟩ := exec_determined i b
  rw [hf, hd, Host.Outcome.next.injEq] at ht ht'
  subst ht ht'
  exact ⟨rfl, rsp, outb, outs, rfl, rfl⟩

end Sys2Proof.Machine
end

section
/-! PROOF. The statement of 20_memory.md: which commands write the spaces FREQ, NODE and CODE (R61, R62). -/

namespace Sys2Proof.Machine

/-- From the block `b` to `b'`, the command `i` changes no space but its own (R61), and no entry but its own where it writes
one entry (R62). -/
def WritesOwnSpaces (i : Instr) (b b' : Block) : Prop :=
  (b'.freq ≠ b.freq → i = .fclr ∨ i = .srst ∨
    ∃ sym count, i = .fset sym count ∧ ∀ x, x ≠ sym → freqAt b' x = freqAt b x) ∧
  (b'.node ≠ b.node → i = .build ∨ i = .gen ∨ i = .srst) ∧
  (b'.code ≠ b.code → i = .gen ∨ i = .tclr ∨ i = .srst ∨
    ∃ sym, (i = .tdel sym ∨ ∃ n v, i = .tapp sym n v) ∧ ∀ x, x ≠ sym → codeAt b' x = codeAt b x)

/-- A command that leaves the three spaces alone. -/
theorem WritesOwnSpaces.of_kept {i : Instr} {b b' : Block} (hf : b'.freq = b.freq := by rfl)
    (hn : b'.node = b.node := by rfl) (hc : b'.code = b.code := by rfl) : WritesOwnSpaces i b b' :=
  ⟨absurd hf, absurd hn, absurd hc⟩

theorem fset_writesOwnSpaces (sym : Sym) (count : Freq) (s : State) :
    WritesOwnSpaces (.fset sym count) s.block (setFreq sym count s).block :=
  ⟨fun _ => .inr (.inr ⟨sym, count, rfl, fun x hx => by rw [freqAt_setFreq, if_neg hx]⟩), absurd rfl, absurd rfl⟩

/-- TDEL and TAPP: the code of one symbol replaced. -/
theorem setCode_writesOwnSpaces {i : Instr} {sym : Sym} (hi : i = .tdel sym ∨ ∃ n v, i = .tapp sym n v) (c : Bits)
    (s : State) : WritesOwnSpaces i s.block (unmarkTable (setCode sym c s)).block :=
  have hothers : ∀ x, x ≠ sym → codeAt (setCode sym c s).block x = codeAt s.block x :=
    fun x hx => by rw [codeAt_setCode, if_neg hx]
  ⟨absurd rfl, absurd rfl, fun _ => .inr (.inr (.inr ⟨sym, hi, hothers⟩))⟩

theorem effect_writesOwnSpaces (i : Instr) (s : State) : WritesOwnSpaces i s.block (effect i s).block := by
  cases i with
  | srst => exact ⟨fun _ => .inr (.inl rfl), fun _ => .inr (.inr rfl), fun _ => .inr (.inr (.inl rfl))⟩
  | fclr => exact ⟨fun _ => .inl rfl, absurd rfl, absurd rfl⟩
  | fset sym count => exact fset_writesOwnSpaces sym count s
  | build =>
    rcases buildTree_cases s with ⟨-, h⟩ | ⟨-, h⟩ <;> rw [effect, h]
    · exact .of_kept
    · exact ⟨absurd rfl, fun _ => .inl rfl, absurd rfl⟩
  | gen => exact ⟨absurd rfl, fun _ => .inr (.inl rfl), fun _ => .inl rfl⟩
  | tclr => exact ⟨absurd rfl, absurd rfl, fun _ => .inr (.inl rfl)⟩
  | tdel sym => exact setCode_writesOwnSpaces (.inl rfl) [] s
  | tapp sym n v =>
    rcases appendCode_cases sym n v s with h | h <;> rw [effect, h]
    · exact .of_kept
    · exact setCode_writesOwnSpaces (.inr ⟨n, v, rfl⟩) _ s
  | tchk => rcases checkTable_cases s with h | ⟨-, -, h⟩ <;> rw [effect, h] <;> exact .of_kept
  | psym sym =>
    rcases packSymbol_frame sym s with ⟨-, h⟩ | ⟨acc, nacc, bytecnt, out, h⟩ <;> rw [effect, h] <;> exact .of_kept
  | pfin =>
    obtain ⟨padcnt, bytecnt, out, -, h⟩ := finishPacking_frame s
    rw [effect, h]
    exact .of_kept
  | ubyte byte =>
    obtain ⟨pend, symcnt, out, h | h⟩ := unpackByte_frame byte s <;> rw [effect, h] <;> exact .of_kept
  | ufin => rcases finishUnpacking_cases s with h | h <;> rw [effect, h] <;> exact .of_kept
  | pstart | ustart => exact .of_kept
  | nop | rdstat | rdcnt | frd | nrd | tlen | tbits => rw [effect_reads_block rfl]; exact .of_kept

/-- Settles O53: of the ways a command can end (`exec_cases`), being counted and fault entry write no space, and what a
command does when it runs is the business of `effect_writesOwnSpaces`. -/
theorem spacesAreWrittenByTheirCommandsOnly : Obligations.SpacesAreWrittenByTheirCommandsOnly := by
  intro s t i h
  rcases exec_cases h with ⟨rfl, rfl⟩ | ⟨-, -, -, rfl⟩ | ⟨-, -, -, rfl⟩ | ⟨-, -, -, -, rfl⟩ | ⟨-, -, -, -, rfl⟩
  · exact effect_writesOwnSpaces .srst s
  · exact WritesOwnSpaces.of_kept
  · exact WritesOwnSpaces.of_kept
  · exact WritesOwnSpaces.of_kept
  · exact effect_writesOwnSpaces i s

end Sys2Proof.Machine
end

section
/-! PROOF. The statements of 30_encoding.md: command words and the opcode map (R81 to R88, R92), the streams (R90), and the
pseudo-commands TSET and FLOAD (R93). -/

namespace Sys2Proof.Machine

/-! ## Command words and their fields (R81) -/

/-- The five fields of a command word are what it was made of. -/
theorem fields_commandWord (op a b : BitVec 8) (imm : BitVec 32) :
    fieldOp (commandWord op a b imm) = op ∧ fieldA (commandWord op a b imm) = a ∧
      fieldB (commandWord op a b imm) = b ∧ fieldZ (commandWord op a b imm) = 0#8 ∧
      fieldImm (commandWord op a b imm) = imm :=
  ⟨fieldOp_commandWord .., fieldA_commandWord .., fieldB_commandWord .., fieldZ_commandWord .., fieldImm_commandWord ..⟩

/-- A word is a command word exactly when its five fields are those of the command word. -/
theorem commandWord_eq_iff {op a b : BitVec 8} {imm : BitVec 32} {w : CmdWord} :
    commandWord op a b imm = w ↔
      fieldOp w = op ∧ fieldA w = a ∧ fieldB w = b ∧ fieldZ w = 0#8 ∧ fieldImm w = imm := by
  constructor
  · rintro rfl
    exact fields_commandWord op a b imm
  · rintro ⟨rfl, rfl, rfl, hz, rfl⟩
    exact commandWord_fields w hz

/-- An operand read from the low bits of a field that holds nothing above them is the whole field. -/
theorem setWidth_setWidth_of_lt {m n : Nat} {x : BitVec n} (h : x.toNat < 2 ^ m) :
    (x.setWidth m).setWidth n = x :=
  BitVec.eq_of_toNat_eq (by simp [Nat.mod_eq_of_lt h])

/-- Settles O1, command by command: the decoder reads the fields that the encoder wrote (`fields_commandWord`), and of a
well-formed command's word they pass its tests. -/
theorem encodedCommandDecodesToItself : Obligations.EncodedCommandDecodesToItself := by
  intro i hw
  cases i with
  | nop | srst | rdstat | fclr | build | gen | tclr | tchk | pstart | pfin | ufin => rfl
  | fset | frd | tdel | tlen | psym | ubyte => simp [encode, decode, accept, fields_commandWord]
  | rdcnt sel =>
    have hsel : sel.toNat ≤ 13 := of_decide_eq_true hw
    have hb : sel.toNat % 256 ≤ 13 := by omega
    simp [encode, decode, accept, fields_commandWord, hb]
  | nrd sel idx =>
    have hb : sel.toNat % 256 ≤ 3 := by omega
    have himm : idx.toNat % 4294967296 < 512 := by omega
    simp [encode, decode, accept, fields_commandWord, hb, himm]
  | tapp sym n v =>
    obtain ⟨⟨hpos, hn⟩, hv⟩ : (1 ≤ n.toNat ∧ n.toNat ≤ 32) ∧ v.toNat < 2 ^ n.toNat := by simpa [Instr.wf] using hw
    simp [encode, decode, accept, fields_commandWord, Nat.ne_of_gt hpos, hn, hv]
  | tbits sym k =>
    have hb : k.toNat % 256 ≤ 7 := by omega
    simp [encode, decode, accept, fields_commandWord, hb]
  | ustart limEn explen =>
    cases limEn with
    | true => simp [encode, decode, accept, fields_commandWord]
    | false =>
      have hexp : explen = 0#32 := by simpa [Instr.wf] using hw
      simp [encode, decode, accept, fields_commandWord, hexp]

/-! ## The rows of the opcode map (R84) -/

/-- A word is masked field by field. -/
theorem fields_and (w m : CmdWord) :
    fieldOp (w &&& m) = fieldOp w &&& fieldOp m ∧ fieldA (w &&& m) = fieldA w &&& fieldA m ∧
      fieldB (w &&& m) = fieldB w &&& fieldB m ∧ fieldZ (w &&& m) = fieldZ w &&& fieldZ m ∧
      fieldImm (w &&& m) = fieldImm w &&& fieldImm m :=
  ⟨BitVec.extractLsb'_and, BitVec.extractLsb'_and, BitVec.extractLsb'_and, BitVec.extractLsb'_and,
    BitVec.extractLsb'_and⟩

/-- A mask of all bits but the low `k` finds nothing in a number of at most `k` bits. -/
theorem and_highMask_eq_zero_iff {n : Nat} (x : BitVec n) (k : Nat) :
    x &&& BitVec.allOnes n <<< k = 0#n ↔ x.toNat < 2 ^ k := by
  have hhigh : x.toNat / 2 ^ k * 2 ^ k < 2 ^ n := lt_of_le_of_lt (Nat.div_mul_le_self _ _) x.isLt
  rw [← BitVec.shiftLeft_ushiftRight, ← BitVec.toNat_inj, BitVec.toNat_shiftLeft, BitVec.toNat_ushiftRight,
    Nat.shiftRight_eq_div_pow, Nat.shiftLeft_eq, Nat.mod_eq_of_lt hhigh]
  simp [Nat.div_eq_zero_iff]

/-- The row fixes OP and Z, and leaves the low `ka` bits of A, `kb` of B and `kimm` of IMM to the operands. -/
structure RowLeaves (row : OpcodeRow) (op : BitVec 8) (ka kb kimm : Nat) : Prop where
  fixed : row.fixed = commandWord op 0#8 0#8 0#32 := by rfl
  maskOp : fieldOp row.mask = BitVec.allOnes 8 := by rfl
  maskA : fieldA row.mask = BitVec.allOnes 8 <<< ka := by rfl
  maskB : fieldB row.mask = BitVec.allOnes 8 <<< kb := by rfl
  maskZ : fieldZ row.mask = BitVec.allOnes 8 := by rfl
  maskImm : fieldImm row.mask = BitVec.allOnes 32 <<< kimm := by rfl

theorem rowMatches_iff {w : CmdWord} {row : OpcodeRow} {op : BitVec 8} {ka kb kimm : Nat}
    (h : RowLeaves row op ka kb kimm) :
    rowMatches w row = true ↔
      (fieldOp w = op ∧ (fieldA w).toNat < 2 ^ ka ∧ (fieldB w).toNat < 2 ^ kb ∧ fieldZ w = 0#8 ∧
        (fieldImm w).toNat < 2 ^ kimm) ∧ extraConstraint w = true := by
  rw [rowMatches, Bool.and_eq_true, beq_iff_eq, h.fixed, eq_comm, commandWord_eq_iff]
  simp only [fields_and, h.maskOp, h.maskA, h.maskB, h.maskZ, h.maskImm, BitVec.and_allOnes, and_highMask_eq_zero_iff]

/-- Rows other than RDCNT, TAPP and USTART have no extra constraint. -/
theorem extraConstraint_of_op {w : CmdWord} {op : BitVec 8} (hop : fieldOp w = op)
    (h : op ≠ 0x03#8 ∧ op ≠ 0x32#8 ∧ op ≠ 0x50#8) : extraConstraint w = true := by
  simp [extraConstraint, hop, h]

/-- What the decoder makes of `w` is the row's business: it accepts `w` when the row matches, and then as `i`, whose word
`w` is. -/
structure DecodesBy (row : OpcodeRow) (w : CmdWord) (i : Instr) : Prop where
  name : i.mnemonic = row.mnemonic
  accepted : ∀ j, decode w = .ok j ↔ rowMatches w row = true ∧ i = j
  word : rowMatches w row = true → i.wf = true ∧ encode i = w

/-- A row's verdict against the row: the tests of the decoder are those of mask and extra constraint. -/
theorem DecodesBy.of_accept {row : OpcodeRow} {w : CmdWord} {i : Instr} (op : BitVec 8) (ka kb kimm : Nat)
    {unusedZero inRange : Bool} (hop : fieldOp w = op) (hdec : decode w = accept unusedZero inRange i)
    (htests : unusedZero = true ∧ inRange = true ↔
      ((fieldA w).toNat < 2 ^ ka ∧ (fieldB w).toNat < 2 ^ kb ∧ fieldZ w = 0#8 ∧ (fieldImm w).toNat < 2 ^ kimm) ∧
        extraConstraint w = true)
    (hword : unusedZero = true → inRange = true → i.wf = true ∧ encode i = w)
    (hname : i.mnemonic = row.mnemonic := by rfl) (hrow : RowLeaves row op ka kb kimm := by exact {}) :
    DecodesBy row w i := by
  have hmatch : rowMatches w row = true ↔ unusedZero = true ∧ inRange = true := by
    rw [htests, rowMatches_iff hrow, hop, eq_self, true_and]
  refine ⟨hname, fun j => ?_, fun h => hword (hmatch.mp h).1 (hmatch.mp h).2⟩
  rw [hdec, accept_ok, hmatch, and_assoc]

/-- A row of format N (R82): no operand. -/
theorem DecodesBy.formatN {row : OpcodeRow} {w : CmdWord} {i : Instr} (op : BitVec 8) (hop : fieldOp w = op)
    (hdec : fieldOp w = op → decode w =
      accept (fieldA w == 0#8 && fieldB w == 0#8 && fieldZ w == 0#8 && fieldImm w == 0#32) true i)
    (hx : op ≠ 0x03#8 ∧ op ≠ 0x32#8 ∧ op ≠ 0x50#8 := by decide) (hname : i.mnemonic = row.mnemonic := by rfl)
    (hrow : RowLeaves row op 0 0 0 := by exact {}) (hwf : i.wf = true := by rfl)
    (henc : encode i = commandWord op 0#8 0#8 0#32 := by rfl) : DecodesBy row w i := by
  refine .of_accept op 0 0 0 hop (hdec hop) ?_ (fun hz _ => ⟨hwf, ?_⟩) hname hrow
  · simp [extraConstraint_of_op hop hx, ← BitVec.toNat_inj, and_assoc]
  · simp only [Bool.and_eq_true, beq_iff_eq] at hz
    obtain ⟨⟨⟨ha, hb⟩, hz⟩, himm⟩ := hz
    rw [henc, commandWord_eq_iff]
    exact ⟨hop, ha, hb, hz, himm⟩

/-- A row of format A (R82): the symbol or byte in A is the one operand. -/
theorem DecodesBy.formatA {row : OpcodeRow} {w : CmdWord} {i : Instr} (op : BitVec 8) (hop : fieldOp w = op)
    (hdec : fieldOp w = op → decode w = accept (fieldB w == 0#8 && fieldZ w == 0#8 && fieldImm w == 0#32) true i)
    (hx : op ≠ 0x03#8 ∧ op ≠ 0x32#8 ∧ op ≠ 0x50#8 := by decide) (hname : i.mnemonic = row.mnemonic := by rfl)
    (hrow : RowLeaves row op 8 0 0 := by exact {}) (hwf : i.wf = true := by rfl)
    (henc : encode i = commandWord op (fieldA w) 0#8 0#32 := by rfl) : DecodesBy row w i := by
  refine .of_accept op 8 0 0 hop (hdec hop) ?_ (fun hz _ => ⟨hwf, ?_⟩) hname hrow
  · simp [extraConstraint_of_op hop hx, ← BitVec.toNat_inj, and_assoc, (fieldA w).isLt]
  · simp only [Bool.and_eq_true, beq_iff_eq] at hz
    obtain ⟨⟨hb, hz⟩, himm⟩ := hz
    rw [henc, commandWord_eq_iff]
    exact ⟨hop, rfl, hb, hz, himm⟩

/-! ## The rows with an operand of their own form (R83) -/

theorem rdcnt_decodesBy {w : CmdWord} (hop : fieldOp w = 0x03#8) :
    DecodesBy ⟨"RDCNT", 0x0300000000000000#64, 0xFFFFF0FFFFFFFFFF#64⟩ w (.rdcnt ((fieldB w).setWidth 4)) := by
  have hx : extraConstraint w = decide ((fieldB w).toNat ≤ 13) := by simp [extraConstraint, hop]
  refine .of_accept 0x03#8 0 4 0 hop (by simp only [decode, hop]; rfl) ?_ fun hz hr => ?_
  · simp [hx, ← BitVec.toNat_inj]
    omega
  · simp only [Bool.and_eq_true, beq_iff_eq, decide_eq_true_eq] at hz hr
    obtain ⟨⟨ha, hz⟩, himm⟩ := hz
    have hwf : (fieldB w).toNat % 16 ≤ 13 := by omega
    have hb : ((fieldB w).setWidth 4).setWidth 8 = fieldB w := setWidth_setWidth_of_lt (by omega)
    exact ⟨by simpa [Instr.wf] using hwf, commandWord_eq_iff.mpr ⟨hop, ha, hb.symm, hz, himm⟩⟩

theorem fset_decodesBy {w : CmdWord} (hop : fieldOp w = 0x11#8) :
    DecodesBy ⟨"FSET", 0x1100000000000000#64, 0xFF00FFFF00000000#64⟩ w (.fset (fieldA w) (fieldImm w)) := by
  refine .of_accept 0x11#8 8 0 32 hop (by simp only [decode, hop]; rfl) ?_ fun hz _ => ⟨rfl, ?_⟩
  · simp [extraConstraint_of_op hop, ← BitVec.toNat_inj, (fieldA w).isLt, (fieldImm w).isLt]
  · simp only [Bool.and_eq_true, beq_iff_eq] at hz
    obtain ⟨hb, hz⟩ := hz
    exact commandWord_eq_iff.mpr ⟨hop, rfl, hb, hz, rfl⟩

theorem nrd_decodesBy {w : CmdWord} (hop : fieldOp w = 0x21#8) :
    DecodesBy ⟨"NRD", 0x2100000000000000#64, 0xFFFFFCFFFFFFFE00#64⟩ w
      (.nrd ((fieldB w).setWidth 2) ((fieldImm w).setWidth 9)) := by
  refine .of_accept 0x21#8 0 2 9 hop (by simp only [decode, hop]; rfl) ?_ fun hz hr => ⟨rfl, ?_⟩
  · simp [extraConstraint_of_op hop, ← BitVec.toNat_inj]
    omega
  · simp only [Bool.and_eq_true, beq_iff_eq, decide_eq_true_eq] at hz hr
    obtain ⟨ha, hz⟩ := hz
    have hb : ((fieldB w).setWidth 2).setWidth 8 = fieldB w := setWidth_setWidth_of_lt (by omega)
    have himm : ((fieldImm w).setWidth 9).setWidth 32 = fieldImm w := setWidth_setWidth_of_lt hr.2
    exact commandWord_eq_iff.mpr ⟨hop, ha, hb.symm, hz, himm.symm⟩

/-- TAPP's extra constraint is what makes its operands legal. -/
theorem tapp_decodesBy {w : CmdWord} (hop : fieldOp w = 0x32#8) :
    DecodesBy ⟨"TAPP", 0x3200000000000000#64, 0xFF0000FF00000000#64⟩ w
      (.tapp (fieldA w) (fieldB w) (fieldImm w)) := by
  refine .of_accept 0x32#8 8 8 32 hop (by simp only [decode, hop]; rfl) ?_ fun hz hr => ⟨hr, ?_⟩
  · simp [extraConstraint, hop, Instr.wf, (fieldA w).isLt, (fieldB w).isLt, (fieldImm w).isLt]
  · exact commandWord_eq_iff.mpr ⟨hop, rfl, rfl, beq_iff_eq.mp hz, rfl⟩

theorem tbits_decodesBy {w : CmdWord} (hop : fieldOp w = 0x35#8) :
    DecodesBy ⟨"TBITS", 0x3500000000000000#64, 0xFF00F8FFFFFFFFFF#64⟩ w
      (.tbits (fieldA w) ((fieldB w).setWidth 3)) := by
  refine .of_accept 0x35#8 8 3 0 hop (by simp only [decode, hop]; rfl) ?_ fun hz hr => ⟨rfl, ?_⟩
  · simp [extraConstraint_of_op hop, ← BitVec.toNat_inj, (fieldA w).isLt]
    omega
  · simp only [Bool.and_eq_true, beq_iff_eq, decide_eq_true_eq] at hz hr
    obtain ⟨hz, himm⟩ := hz
    have hb : ((fieldB w).setWidth 3).setWidth 8 = fieldB w := setWidth_setWidth_of_lt (by omega)
    exact commandWord_eq_iff.mpr ⟨hop, rfl, hb.symm, hz, himm⟩

/-- USTART's B is a flag: its extra constraint looks at bit 0, the decoder at the whole field. -/
theorem ustart_decodesBy {w : CmdWord} (hop : fieldOp w = 0x50#8) :
    DecodesBy ⟨"USTART", 0x5000000000000000#64, 0xFFFFFEFF00000000#64⟩ w
      (.ustart (fieldB w == 1#8) (fieldImm w)) := by
  have hx : extraConstraint w = ((fieldB w).getLsbD 0 || fieldImm w == 0#32) := by simp [extraConstraint, hop]
  have hflag : (fieldB w).toNat ≤ 1 → fieldB w = 0#8 ∨ fieldB w = 1#8 := fun h => by bv_omega
  refine .of_accept 0x50#8 0 1 32 hop (by simp only [decode, hop]; rfl) ?_ fun hz hr => ?_
  · by_cases hle : (fieldB w).toNat ≤ 1
    · rcases hflag hle with hb | hb <;> simp [hx, hb, ← BitVec.toNat_inj, (fieldImm w).isLt]
    · simp [hle]
  · simp only [Bool.and_eq_true, Bool.or_eq_true, beq_iff_eq, decide_eq_true_eq] at hz hr
    obtain ⟨ha, hz⟩ := hz
    obtain ⟨hle, himm⟩ := hr
    have hb : fieldB w = if fieldB w == 1#8 then 1 else 0 := by
      rcases hflag hle with hb | hb <;> simp [hb]
    exact ⟨by simpa [Instr.wf] using himm, commandWord_eq_iff.mpr ⟨hop, ha, hb, hz, rfl⟩⟩

/-- On the words with a row's OP the decoder goes by that row. -/
theorem decodesBy_row {w : CmdWord} {row : OpcodeRow} (hrow : row ∈ opcodeTable) (hop : fieldOp w = fieldOp row.fixed) :
    ∃ i, DecodesBy row w i := by
  simp only [opcodeTable, List.mem_cons, List.not_mem_nil, or_false] at hrow
  rcases hrow with rfl | rfl | rfl | rfl | rfl | rfl | rfl | rfl | rfl | rfl | rfl | rfl | rfl | rfl | rfl | rfl |
    rfl | rfl | rfl | rfl | rfl | rfl
  · exact ⟨.nop, .formatN 0x00#8 hop fun h => by simp only [decode, h]⟩
  · exact ⟨.srst, .formatN 0x01#8 hop fun h => by simp only [decode, h]⟩
  · exact ⟨.rdstat, .formatN 0x02#8 hop fun h => by simp only [decode, h]⟩
  · exact ⟨_, rdcnt_decodesBy hop⟩
  · exact ⟨.fclr, .formatN 0x10#8 hop fun h => by simp only [decode, h]⟩
  · exact ⟨_, fset_decodesBy hop⟩
  · exact ⟨.frd (fieldA w), .formatA 0x12#8 hop fun h => by simp only [decode, h]⟩
  · exact ⟨.build, .formatN 0x20#8 hop fun h => by simp only [decode, h]⟩
  · exact ⟨_, nrd_decodesBy hop⟩
  · exact ⟨.gen, .formatN 0x28#8 hop fun h => by simp only [decode, h]⟩
  · exact ⟨.tclr, .formatN 0x30#8 hop fun h => by simp only [decode, h]⟩
  · exact ⟨.tdel (fieldA w), .formatA 0x31#8 hop fun h => by simp only [decode, h]⟩
  · exact ⟨_, tapp_decodesBy hop⟩
  · exact ⟨.tchk, .formatN 0x33#8 hop fun h => by simp only [decode, h]⟩
  · exact ⟨.tlen (fieldA w), .formatA 0x34#8 hop fun h => by simp only [decode, h]⟩
  · exact ⟨_, tbits_decodesBy hop⟩
  · exact ⟨.pstart, .formatN 0x40#8 hop fun h => by simp only [decode, h]⟩
  · exact ⟨.psym (fieldA w), .formatA 0x41#8 hop fun h => by simp only [decode, h]⟩
  · exact ⟨.pfin, .formatN 0x42#8 hop fun h => by simp only [decode, h]⟩
  · exact ⟨_, ustart_decodesBy hop⟩
  · exact ⟨.ubyte (fieldA w), .formatA 0x51#8 hop fun h => by simp only [decode, h]⟩
  · exact ⟨.ufin, .formatN 0x52#8 hop fun h => by simp only [decode, h]⟩

/-! ## What the decoder accepts (R85 to R88) -/

/-- Settles O4: at any OP of the opcode map the hypothesis fails, and at every other the decoder's last case answers. -/
theorem reservedOpcodeIsIllegal : Obligations.ReservedOpcodeIsIllegal := by
  intro w h
  have hop : fieldOp w ∉ opcodeTable.map fun row => fieldOp row.fixed := by simpa [eq_comm] using h
  unfold decode
  split
  case h_23 => rfl
  all_goals exact absurd (by decide) (‹fieldOp w = _› ▸ hop)

/-- A word that decodes has the OP of a row. -/
theorem exists_row_of_decode {w : CmdWord} {i : Instr} (h : decode w = .ok i) :
    ∃ row ∈ opcodeTable, fieldOp w = fieldOp row.fixed := by
  by_contra hno
  rw [reservedOpcodeIsIllegal w fun row hrow hop => hno ⟨row, hrow, hop⟩] at h
  cases h

/-- Settles O2: the word goes by the row of its OP (`decodesBy_row`), which matches it and so names the word. -/
theorem decodedWordIsTheWordOfItsCommand : Obligations.DecodedWordIsTheWordOfItsCommand := by
  intro w i h
  obtain ⟨row, hrow, hop⟩ := exists_row_of_decode h
  obtain ⟨i', hi'⟩ := decodesBy_row hrow hop
  obtain ⟨hmatch, rfl⟩ := (hi'.accepted i).mp h
  exact hi'.word hmatch

theorem fieldOp_of_rowMatches {w : CmdWord} {row : OpcodeRow} (hrow : row ∈ opcodeTable)
    (h : rowMatches w row = true) : fieldOp w = fieldOp row.fixed := by
  have hmask : ∀ row ∈ opcodeTable, fieldOp row.mask = BitVec.allOnes 8 := by decide
  simp only [rowMatches, Bool.and_eq_true, beq_iff_eq] at h
  rw [← h.1, (fields_and w row.mask).1, hmask row hrow, BitVec.and_allOnes]

/-- Settles O3: the row of a word's OP decides (`decodesBy_row`), and no two rows have one OP. -/
theorem decoderAgreesWithTheOpcodeMap : Obligations.DecoderAgreesWithTheOpcodeMap := by
  have hnodup : (opcodeTable.map fun row => fieldOp row.fixed).Nodup := by decide
  refine ⟨fun w i h => ?_, fun w row hrow hmatch => ?_, fun w r r' hr hr' hm hm' => ?_⟩
  · obtain ⟨row, hrow, hop⟩ := exists_row_of_decode h
    obtain ⟨i', hi'⟩ := decodesBy_row hrow hop
    obtain ⟨hmatch, rfl⟩ := (hi'.accepted i).mp h
    exact ⟨row, hrow, hmatch, hi'.name.symm⟩
  · obtain ⟨i, hi⟩ := decodesBy_row hrow (fieldOp_of_rowMatches hrow hmatch)
    exact ⟨i, (hi.accepted i).mpr ⟨hmatch, rfl⟩, hi.name⟩
  · exact List.inj_on_of_nodup_map hnodup hr hr'
      ((fieldOp_of_rowMatches hr hm).symm.trans (fieldOp_of_rowMatches hr' hm'))

/-- Settles O5: the words are closed, and the decoder runs on them. -/
theorem spelledOutWordsDecode : Obligations.SpelledOutWordsDecode := by
  unfold Obligations.SpelledOutWordsDecode
  decide

/-! ## The streams (R90) -/

/-- The six commands that answer on RSP are the reading ones but NOP. -/
theorem responds_iff {i : Instr} :
    (i = .rdstat ∨ (∃ sel, i = .rdcnt sel) ∨ (∃ sym, i = .frd sym) ∨ (∃ sel idx, i = .nrd sel idx) ∨
      (∃ sym, i = .tlen sym) ∨ ∃ sym k, i = .tbits sym k) ↔ readsOnly i = true ∧ i ≠ .nop := by
  cases i <;> simp [readsOnly]

/-- Every selector that RDCNT may have names a counter (10_state.md R36). -/
theorem counter_isSome {sel : BitVec 4} (h : sel.toNat ≤ 13) (b : Block) : ∃ w, counter b sel = some w := by
  unfold counter
  interval_cases sel.toNat <;> exact ⟨_, rfl⟩

theorem effect_responds {i : Instr} (hr : readsOnly i = true) (hn : i ≠ .nop) (hw : i.wf = true) (s : State) :
    ∃ w, effect i s = respond w s := by
  cases i with
  | nop => exact absurd rfl hn
  | rdcnt sel =>
    obtain ⟨w, h⟩ := counter_isSome (of_decide_eq_true hw) s.block
    exact ⟨w, by simp only [effect, h]⟩
  | rdstat | frd | nrd | tlen | tbits => exact ⟨_, rfl⟩
  | _ => cases hr

/-- The command `i` emits on OUTB and OUTS only, and there only on its own stream. -/
def EmitsOnOwnStreams (i : Instr) (h h' : HostSide) : Prop :=
  ∃ outb outs, h' = { h with outb := h.outb ++ outb, outs := h.outs ++ outs } ∧
    (outb ≠ [] → i = .pfin ∨ ∃ sym, i = .psym sym) ∧ (outs ≠ [] → ∃ byte, i = .ubyte byte)

theorem EmitsOnOwnStreams.of_kept {i : Instr} {h h' : HostSide} (hh : h' = h := by rfl) : EmitsOnOwnStreams i h h' :=
  ⟨[], [], by simp [hh], absurd rfl, absurd rfl⟩

theorem effect_emitsOnOwnStreams {i : Instr} (hi : readsOnly i = true → i = .nop) (s : State) :
    EmitsOnOwnStreams i s.host (effect i s).host := by
  cases i with
  | rdstat | rdcnt | frd | nrd | tlen | tbits => cases hi rfl
  | build => rcases buildTree_cases s with ⟨-, h⟩ | ⟨-, h⟩ <;> rw [effect, h] <;> exact .of_kept
  | tapp sym n v => rcases appendCode_cases sym n v s with h | h <;> rw [effect, h] <;> exact .of_kept
  | tchk => rcases checkTable_cases s with h | ⟨-, -, h⟩ <;> rw [effect, h] <;> exact .of_kept
  | ufin => rcases finishUnpacking_cases s with h | h <;> rw [effect, h] <;> exact .of_kept
  | psym sym =>
    rcases packSymbol_frame sym s with ⟨-, h⟩ | ⟨acc, nacc, bytecnt, out, h⟩ <;> rw [effect, h]
    · exact .of_kept
    · exact ⟨out, [], by simp, fun _ => .inr ⟨sym, rfl⟩, absurd rfl⟩
  | pfin =>
    obtain ⟨padcnt, bytecnt, out, -, h⟩ := finishPacking_frame s
    rw [effect, h]
    exact ⟨out, [], by simp, fun _ => .inl rfl, absurd rfl⟩
  | ubyte byte =>
    obtain ⟨pend, symcnt, out, h | h⟩ := unpackByte_frame byte s <;> rw [effect, h] <;>
      exact ⟨[], out, by simp, absurd rfl, fun _ => ⟨byte, rfl⟩⟩
  | _ => exact .of_kept

theorem exec_emitsOnOwnStreams {i : Instr} (hi : readsOnly i = true → i = .nop) {s t : State}
    (h : exec i s = .next t) : EmitsOnOwnStreams i s.host t.host := by
  rcases exec_cases h with ⟨-, rfl⟩ | ⟨-, -, -, rfl⟩ | ⟨-, -, -, rfl⟩ | ⟨-, -, -, -, rfl⟩ | ⟨-, -, -, -, rfl⟩
  · exact .of_kept
  · exact .of_kept
  · exact .of_kept
  · exact .of_kept
  · exact effect_emitsOnOwnStreams hi s

/-- Settles O54: a command that answers runs in every state (`exec_reads`) and emits nothing else, and of the others only the
packer's and UBYTE emit at all. -/
theorem streamsGrowByTheirCommandsOnly : Obligations.StreamsGrowByTheirCommandsOnly := by
  intro s t i hw h
  simp only [responds_iff]
  split
  · rename_i hr
    obtain ⟨w, hresp⟩ := effect_responds hr.1 hr.2 hw s
    rw [exec_reads hr.1 hw, hresp, Host.Outcome.next.injEq] at h
    subst h
    exact ⟨rfl, ⟨w, rfl⟩, List.prefix_rfl, absurd rfl, List.prefix_rfl, absurd rfl⟩
  · rename_i hr
    have hi : readsOnly i = true → i = .nop := by simpa using hr
    obtain ⟨outb, outs, hhost, hb, hs⟩ := exec_emitsOnOwnStreams hi h
    rw [hhost]
    exact ⟨rfl, rfl, List.prefix_append _ _, fun hne => hb (by simpa using hne), List.prefix_append _ _,
      fun hne => hs (by simpa using hne)⟩

/-! ## TSET (R93) -/

theorem piecesOf_flatten (fuel : Nat) (bits : Bits) (h : bits.length ≤ fuel) : (piecesOf fuel bits).flatten = bits := by
  induction fuel generalizing bits with
  | zero => simpa [piecesOf, eq_comm] using h
  | succ fuel ih =>
    unfold piecesOf
    split
    · rename_i hnil
      exact hnil.symm
    · rename_i hne
      have hpos := List.length_pos_iff.mpr hne
      rw [List.flatten_cons, ih _ (by rw [List.length_drop]; omega), List.take_append_drop]

theorem length_of_mem_piecesOf {fuel : Nat} {bits piece : Bits} (h : piece ∈ piecesOf fuel bits) :
    1 ≤ piece.length ∧ piece.length ≤ 32 := by
  induction fuel generalizing bits with
  | zero => cases h
  | succ fuel ih =>
    unfold piecesOf at h
    split at h
    · cases h
    · rename_i hne
      have hpos := List.length_pos_iff.mpr hne
      rcases List.mem_cons.mp h with rfl | hmem
      · rw [List.length_take]
        omega
      · exact ih hmem

/-- From `s` to `t` nothing was raised, the block is in IDLE, and of all codes only that of `sym` may have changed, to `c`. -/
structure CodeLoaded (s : State) (sym : Sym) (c : Bits) (t : State) : Prop where
  noError : t.block.err = .none
  idle : t.block.mode = .idle
  loaded : codeAt t.block sym = c
  others : ∀ x, x ≠ sym → codeAt t.block x = codeAt s.block x

theorem CodeLoaded.trans {s t u : State} {sym : Sym} {c d : Bits} (h : CodeLoaded s sym c t)
    (h' : CodeLoaded t sym d u) : CodeLoaded s sym d u :=
  { h' with others := fun x hx => (h'.others x hx).trans (h.others x hx) }

/-- What TDEL and TAPP do when they run. -/
theorem setCode_loads {s : State} (he : s.block.err = .none) (hm : s.block.mode = .idle) (sym : Sym) (c : Bits) :
    CodeLoaded s sym c (counted (unmarkTable (setCode sym c s))) where
  noError := he
  idle := hm
  loaded := (codeAt_setCode sym sym c s).trans (if_pos rfl)
  others x hx := (codeAt_setCode sym x c s).trans (if_neg hx)

/-- A piece has a length that TAPP admits, and its image has that many bits. -/
theorem appendPiece_wf (sym : Sym) {piece : Bits} (h1 : 1 ≤ piece.length) (h32 : piece.length ≤ 32) :
    (appendPiece sym piece).wf = true := by
  have hn : (BitVec.ofNat 8 piece.length).toNat = piece.length := by rw [BitVec.toNat_ofNat]; omega
  have hv : (BitVec.ofNat 32 (img piece)).toNat < 2 ^ piece.length :=
    lt_of_le_of_lt (Nat.mod_le _ _) (img_lt piece)
  simp only [appendPiece, Instr.wf, hn, Bool.and_eq_true, decide_eq_true_eq]
  exact ⟨⟨h1, h32⟩, hv⟩

/-- The TAPP of a piece appends it, where the code stays within MAXLEN bits (42_code_table.md R137). -/
theorem exec_appendPiece {s : State} (he : s.block.err = .none) (hm : s.block.mode = .idle) (sym : Sym) {piece : Bits}
    (h1 : 1 ≤ piece.length) (h32 : piece.length ≤ 32) (hfit : (codeAt s.block sym).length + piece.length ≤ 255) :
    ∃ t, exec (appendPiece sym piece) s = .next t ∧ CodeLoaded s sym (codeAt s.block sym ++ piece) t := by
  have hn : (BitVec.ofNat 8 piece.length).toNat = piece.length := by rw [BitVec.toNat_ofNat]; omega
  have heffect : effect (appendPiece sym piece) s = unmarkTable (setCode sym (codeAt s.block sym ++ piece) s) := by
    simp only [appendPiece, effect, appendCode, hn, lowBits_img piece h32]
    exact if_neg (Nat.not_lt.mpr hfit)
  refine ⟨_, exec_runs nofun he (appendPiece_wf sym h1 h32) (beq_iff_eq.mpr hm), ?_⟩
  rw [heffect]
  exact setCode_loads he hm sym _

theorem execAll_appendPieces {s : State} (he : s.block.err = .none) (hm : s.block.mode = .idle) (sym : Sym)
    {pieces : List Bits} (hp : ∀ piece ∈ pieces, 1 ≤ piece.length ∧ piece.length ≤ 32)
    (hfit : (codeAt s.block sym).length + pieces.flatten.length ≤ 255) :
    ∃ t, execAll (pieces.map (appendPiece sym)) s = .next t ∧
      CodeLoaded s sym (codeAt s.block sym ++ pieces.flatten) t := by
  induction pieces generalizing s with
  | nil => exact ⟨s, rfl, he, hm, by simp, fun _ _ => rfl⟩
  | cons piece pieces ih =>
    obtain ⟨⟨h1, h32⟩, hrest⟩ := List.forall_mem_cons.mp hp
    rw [List.flatten_cons, List.length_append] at hfit
    obtain ⟨t, ht, hload⟩ := exec_appendPiece he hm sym h1 h32 (by omega)
    obtain ⟨u, hu, hload'⟩ := ih hload.noError hload.idle hrest (by rw [hload.loaded, List.length_append]; omega)
    rw [hload.loaded, List.append_assoc] at hload'
    exact ⟨u, (execAll_cons ht).trans hu, hload.trans hload'⟩

/-- Settles O59: TDEL empties the code, and the TAPPs of its pieces append the bitstring again (`execAll_appendPieces`). -/
theorem tsetLoadsTheCode : Obligations.TsetLoadsTheCode := by
  intro s sym bits he hm _ h255
  have htdel : exec (.tdel sym) s = .next (counted (unmarkTable (setCode sym [] s))) :=
    exec_runs nofun he rfl (beq_iff_eq.mpr hm)
  have hdel := setCode_loads he hm sym []
  have hbits := piecesOf_flatten bits.length bits le_rfl
  obtain ⟨t, ht, hload⟩ := execAll_appendPieces hdel.noError hdel.idle sym
    (fun _ => length_of_mem_piecesOf (fuel := bits.length) (bits := bits)) (by rw [hdel.loaded, hbits]; simpa using h255)
  rw [hdel.loaded, hbits, List.nil_append] at hload
  have hall := hdel.trans hload
  exact ⟨t, (execAll_cons htdel).trans ht, hall.noError, hall.loaded, hall.others⟩

/-! ## FLOAD (R93) -/

/-- FSET in a run without a fault (40_frequency_table.md R102). -/
theorem exec_fset {s : State} (he : s.block.err = .none) (sym : Sym) (count : Freq) :
    ∃ t, exec (.fset sym count) s = .next t ∧ t.block.err = .none ∧
      ∀ x, freqAt t.block x = if x = sym then count else freqAt s.block x :=
  ⟨_, exec_runs nofun he rfl rfl, he, fun x => freqAt_setFreq sym x count s⟩

/-- The FSET of FLOAD for one symbol, if the symbol occurs in the text. -/
def fsetOf (text : List Sym) (sym : Sym) : Option Instr :=
  if text.count sym = 0 then none else some (.fset sym (BitVec.ofNat 32 (text.count sym)))

theorem fload_expand (text : List Sym) :
    (Pseudo.fload text).expand = .fclr :: symbols.filterMap (fsetOf text) := rfl

/-- The FSETs for some of the symbols give each of these its count, where the symbols that do not occur had 0 before. -/
theorem execAll_fsets (text syms : List Sym) {s : State} (he : s.block.err = .none)
    (h0 : ∀ x, text.count x = 0 → freqAt s.block x = 0#32) :
    ∃ t, execAll (syms.filterMap (fsetOf text)) s = .next t ∧ t.block.err = .none ∧
      ∀ x, freqAt t.block x = if x ∈ syms then BitVec.ofNat 32 (text.count x) else freqAt s.block x := by
  induction syms generalizing s with
  | nil => exact ⟨s, rfl, he, by simp⟩
  | cons sym syms ih =>
    by_cases hc : text.count sym = 0
    · obtain ⟨t, ht, het, hf⟩ := ih he h0
      refine ⟨t, by simpa [fsetOf, hc] using ht, het, fun x => ?_⟩
      by_cases hx : x = sym
      · simp [hf, h0, hc, hx]
      · simp [hf, hx]
    · obtain ⟨t, ht, het, hset⟩ := exec_fset he sym (BitVec.ofNat 32 (text.count sym))
      have h0' : ∀ x, text.count x = 0 → freqAt t.block x = 0#32 := fun x hx => by
        rw [hset, if_neg (by rintro rfl; exact hc hx), h0 x hx]
      obtain ⟨u, hu, heu, hf⟩ := ih het h0'
      refine ⟨u, ?_, heu, fun x => ?_⟩
      · have hsome : fsetOf text sym = some (.fset sym (BitVec.ofNat 32 (text.count sym))) := if_neg hc
        rw [List.filterMap_cons_some hsome, execAll_cons ht, hu]
      · by_cases hx : x = sym
        · simp [hf, hset, hx]
        · simp [hf, hset, hx]

/-- Settles O60: FCLR leaves 0 everywhere, and the FSETs set every count that is not 0 (`execAll_fsets`). -/
theorem floadLoadsTheFrequencies : Obligations.FloadLoadsTheFrequencies := by
  intro s text he hfit
  have hfclr : exec .fclr s = .next (counted (clearFreq s)) := exec_runs nofun he rfl rfl
  obtain ⟨t, ht, het, hf⟩ := execAll_fsets text symbols (s := counted (clearFreq s)) he fun _ _ => rfl
  refine ⟨t, by rw [fload_expand, execAll_cons hfclr, ht], het, fun x => ?_⟩
  rw [hf, if_pos (mem_symbols x), BitVec.toNat_ofNat]
  exact Nat.mod_eq_of_lt (hfit x)

end Sys2Proof.Machine
end

section
/-! ## Frequency table commands (spec/40_frequency_table.md) -/

namespace Sys2Proof.Machine

theorem freqAt_clearFreq (x : Sym) (s : State) : freqAt (clearFreq s).block x = 0#32 := rfl

/-- Settles O17: without a fault FCLR runs in every MODE, and what it runs is `clearFreq`. -/
theorem fclrClearsEveryFrequency : Obligations.FclrClearsEveryFrequency := by
  intro s he
  have hrun : exec .fclr s = .next (counted (clearFreq s)) := exec_runs nofun he rfl rfl
  exact ⟨_, hrun, rfl, fun x => freqAt_clearFreq x s⟩

/-- Settles O18: without a fault FSET runs in every MODE, and what a symbol's frequency is then, `freqAt_setFreq` says. -/
theorem fsetWritesOneFrequency : Obligations.FsetWritesOneFrequency := by
  intro s sym count he
  have hrun : exec (.fset sym count) s = .next (counted (setFreq sym count s)) := exec_runs nofun he rfl rfl
  have hfreq : ∀ x, freqAt (counted (setFreq sym count s)).block x = if x = sym then count else freqAt s.block x :=
    fun x => freqAt_setFreq sym x count s
  exact ⟨_, hrun, rfl, (hfreq sym).trans (if_pos rfl), fun x hx => (hfreq x).trans (if_neg hx)⟩

/-- Settles O19: FRD is a reading command, so it runs in the faulted condition too (`exec_reads`). -/
theorem frdRespondsTheFrequency : Obligations.FrdRespondsTheFrequency :=
  fun _ sym => exec_reads (i := .frd sym) rfl rfl

end Sys2Proof.Machine
end

section
/-! ## Tree builder commands (spec/41_tree_builder.md) -/

namespace Sys2Proof.Machine

/-- BUILD without a fault runs in every MODE. -/
theorem exec_build {s : State} (he : s.block.err = .none) : exec .build s = .next (counted (buildTree s)) :=
  exec_runs nofun he rfl rfl

/-- From a FREQ with a non-zero entry BUILD plants the tree of its leaves (R111). -/
theorem exec_build_of_occurs {s : State} (he : s.block.err = .none) (hf : ∃ x, freqAt s.block x ≠ 0#32) :
    exec .build s = .next (counted (plantTree (leafNodes s.block) s)) := by
  rcases buildTree_cases s with ⟨h0, -⟩ | ⟨-, hplant⟩
  · obtain ⟨x, hx⟩ := hf
    exact absurd (h0 x) hx
  · rw [exec_build he, hplant]

/-- The tree registers after planting, where ROOT and NLEAF are 9-bit words and what they hold is not cut: what the loop
leaves (`mergeAll_spec`), said of the block. -/
theorem plantTree_registers {leaves : List Node} (h : LeafRow leaves) (s : State) :
    (plantTree leaves s).block.nleaf.toNat = leaves.length ∧
    TreeShape (plantTree leaves s).block.node (plantTree leaves s).block.root.toNat leaves.length ∧
    (plantTree leaves s).block.node.take leaves.length = leaves ∧
    (plantTree leaves s).block.rootwt =
      weightAt (plantTree leaves s).block.node (plantTree leaves s).block.root.toNat ∧
    (plantTree leaves s).block.rootwt.toNat = (leaves.map fun x => x.wt.toNat).sum ∧
    ∀ k, leaves.length ≤ k → k < (plantTree leaves s).block.node.length →
      MergesFirstTwo (plantTree leaves s).block.node k := by
  obtain ⟨root, hroot, hshape, htake, hweight, hmerges⟩ := mergeAll_spec h
  have hcount : leaves.length ≤ 256 := h.size
  have hsize := hshape.size
  have hlast := hshape.rootLast
  have hn : (BitVec.ofNat 9 leaves.length).toNat = leaves.length := by rw [BitVec.toNat_ofNat]; omega
  have hr : (BitVec.ofNat 9 root).toNat = root := by rw [BitVec.toNat_ofNat]; omega
  simp only [plantTree_block, hroot, List.headD_cons, hn, hr]
  exact ⟨trivial, hshape, htake, trivial, hweight, hmerges⟩

theorem leafNodes_length (b : Block) : (leafNodes b).length = symbols.countP fun x => freqAt b x != 0#32 := by
  rw [leafNodes_eq, List.length_map, List.countP_eq_length_filter]

/-- Settles O21: the leaves of a FREQ with a non-zero entry are ones BUILD may start from (`leafNodes_row`), and what the
tree registers hold after it, `plantTree_registers` says. -/
theorem buildLeavesAFinishedTree : Obligations.BuildLeavesAFinishedTree := by
  intro s he hf
  obtain ⟨hn, hshape, htake, hroot, hweight, -⟩ := plantTree_registers (leafNodes_row s.block hf) s
  refine ⟨_, exec_build_of_occurs he hf, rfl, ?_, ?_, ?_, hroot, ?_⟩
  · rw [counted_block, hn]
    exact hshape
  · rw [counted_block, hn]
    exact htake.trans (leafNodes_eq s.block)
  · exact hn.trans (leafNodes_length s.block)
  · exact hweight.trans (leafNodes_weights s.block)

/-- Settles O22: every merge of BUILD's loop took the two members that came first (`plantTree_registers`). -/
theorem buildMergesTheTwoLightest : Obligations.BuildMergesTheTwoLightest := by
  intro s t he hf ht k hk hk'
  obtain ⟨hn, -, -, -, -, hmerges⟩ := plantTree_registers (leafNodes_row s.block hf) s
  obtain rfl := Host.Outcome.next.inj ((exec_build_of_occurs he hf).symm.trans ht)
  exact hmerges k (hn.symm.trans_le hk) hk'

/-- The leaves BUILD creates depend on the frequencies only (R112). -/
theorem leafNodes_congr {b b' : Block} (h : ∀ x, freqAt b x = freqAt b' x) : leafNodes b = leafNodes b' := by
  simp only [leafNodes, h]

/-- Settles O23: the tree registers after BUILD are functions of the leaves, which are equal (`leafNodes_congr`). -/
theorem buildDependsOnFrequenciesAlone : Obligations.BuildDependsOnFrequenciesAlone := by
  intro s s' t t' he he' hf heq ht ht'
  have hf' : ∃ x, freqAt s'.block x ≠ 0#32 := by simpa only [heq] using hf
  obtain rfl := Host.Outcome.next.inj ((exec_build_of_occurs he hf).symm.trans ht)
  obtain rfl := Host.Outcome.next.inj ((exec_build_of_occurs he' hf').symm.trans ht')
  simp only [counted_block, plantTree_block, leafNodes_congr heq, and_self]

/-- Settles O20: without a non-zero frequency BUILD makes no leaf, so it raises TreeError (`buildTree_cases`), which records
BUILD's own word. -/
theorem buildOnEmptyFrequenciesFaults : Obligations.BuildOnEmptyFrequenciesFaults := by
  intro s he h0
  rcases buildTree_cases s with ⟨-, hraise⟩ | ⟨⟨x, hx⟩, -⟩
  · rw [exec_build he, hraise]
    rfl
  · exact absurd (h0 x) hx

/-- A concatenation as a number: its first part stands above its second. -/
theorem toNat_append_eq_add {m n : Nat} (x : BitVec m) (y : BitVec n) :
    (x ++ y).toNat = x.toNat * 2 ^ n + y.toNat := by
  rw [BitVec.toNat_append, ← Nat.shiftLeft_add_eq_or_of_lt y.isLt, Nat.shiftLeft_eq]

/-- INFO (R118): the valid bit, the kind bit and the symbol at their places. -/
theorem nodePart_info (nd : Node) :
    (nodePart 0#2 nd).toNat = 2 ^ 31 + (if nd.kind = .internal then 2 ^ 30 else 0) + nd.sym.toNat := by
  change (1#1 ++ nd.kind.bit ++ 0#22 ++ nd.sym).toNat = _
  simp only [toNat_append_eq_add]
  cases nd.kind <;> rfl

/-- WT_LO (R118). -/
theorem nodePart_weightLow (nd : Node) : (nodePart 1#2 nd).toNat = nd.wt.toNat % 2 ^ 32 :=
  BitVec.extractLsb'_toNat 0 32 nd.wt

/-- WT_HI (R118): the eight bits above WT_LO, which are all that is left. -/
theorem nodePart_weightHigh (nd : Node) : (nodePart 2#2 nd).toNat = nd.wt.toNat / 2 ^ 32 := by
  change ((nd.wt.extractLsb' 32 8).setWidth 32).toNat = _
  have hlt := nd.wt.isLt
  rw [BitVec.toNat_setWidth, BitVec.extractLsb'_toNat, Nat.shiftRight_eq_div_pow]
  omega

/-- CHILD (R118): the right child above the left one. -/
theorem nodePart_children (nd : Node) :
    (nodePart 3#2 nd).toNat = nd.right.toNat * 2 ^ 16 + nd.left.toNat := by
  change (0#7 ++ nd.right ++ 0#7 ++ nd.left).toNat = _
  simp only [toNat_append_eq_add, BitVec.toNat_ofNat]
  omega

theorem nodeWord_of_no_node {b : Block} {idx : NodeIdx} (h : b.node.length ≤ idx.toNat) (sel : BitVec 2) :
    nodeWord b sel idx = 0#32 := by
  simp only [nodeWord, List.getElem?_eq_none h]

theorem nodeWord_of_node {b : Block} {idx : NodeIdx} {nd : Node} (h : b.node[idx.toNat]? = some nd) (sel : BitVec 2) :
    nodeWord b sel idx = nodePart sel nd := by
  simp only [nodeWord, h]

/-- Settles O24: NRD is a reading command, so it runs in the faulted condition too (`exec_reads`); the word it answers is 0
where no node stands, and else the part its selector names, each at its bits. -/
theorem nrdRespondsPartOfANode : Obligations.NrdRespondsPartOfANode := by
  intro s sel idx
  refine ⟨nodeWord s.block sel idx, exec_reads (i := .nrd sel idx) rfl rfl,
    fun hnone => nodeWord_of_no_node hnone sel, fun nd hnd => ?_⟩
  rw [nodeWord_of_node hnd]
  refine ⟨?_, ?_, ?_, ?_⟩ <;> rintro rfl
  · exact nodePart_info nd
  · exact nodePart_weightLow nd
  · exact nodePart_weightHigh nd
  · exact nodePart_children nd

end Sys2Proof.Machine
end

section
/-! ## Code table commands (spec/42_code_table.md) -/

namespace Sys2Proof.Machine

/-! ### Faults and the table operations -/

/-- A command out of sequence does nothing but fault, the state written out field by field (60_exceptions.md R204, R205). -/
theorem exec_seqError {i : Instr} {s : State} (hi : i ≠ .srst) (he : s.block.err = .none) (hw : i.wf = true)
    (hq : seqOk s.block i = false) : exec i s = .next (faultState .seqError (encode i) s) :=
  exec_out_of_sequence hi he hw hq

/-- What `v[n-1], ..., v[0]` is, bit by bit (30_encoding.md R83). -/
theorem getElem?_lowBits {w n k : Nat} (v : BitVec w) (hk : k < n) :
    (lowBits n v)[k]? = some (v.getLsbD (n - 1 - k)) := by
  simp [lowBits, hk]

@[simp] theorem length_lowBits {w : Nat} (n : Nat) (v : BitVec w) : (lowBits n v).length = n := by
  simp [lowBits]

/-- TAPP within MAXLEN bits appends (R137). -/
theorem appendCode_fits {s : State} {sym : Sym} {n : BitVec 8} (v : BitVec 32)
    (h : (codeAt s.block sym).length + n.toNat ≤ Config.maxlen) :
    appendCode sym n v s = unmarkTable (setCode sym (codeAt s.block sym ++ lowBits n.toNat v) s) :=
  if_neg (Nat.not_lt.mpr h)

/-- TAPP past MAXLEN bits faults (R137). -/
theorem appendCode_overflows {s : State} {sym : Sym} {n : BitVec 8} (v : BitVec 32)
    (h : Config.maxlen < (codeAt s.block sym).length + n.toNat) :
    appendCode sym n v s = raise .tableError (encode (.tapp sym n v)) s :=
  if_pos h

/-- TCHK marks a table that has a code and in which no code begins another (R138). -/
theorem checkTable_marks {s : State} (hne : ∃ x, codeAt s.block x ≠ []) (hp : PrefixFree (codeAt s.block)) :
    checkTable s = markTable s := by
  have hpresent : presentCodes s.block.code ≠ [] := fun h0 =>
    hne.elim fun x hx => hx (presentCodes_eq_nil.mp h0 x)
  have hfree : prefixFree s.block.code = true := (prefixFree_iff _).mpr hp
  simp [checkTable, hpresent, hfree]

/-- TCHK faults on any other table (R138). -/
theorem checkTable_faults {s : State} (h : (∀ x, codeAt s.block x = []) ∨ ¬ PrefixFree (codeAt s.block)) :
    checkTable s = raise .tableError (encode .tchk) s := by
  rcases checkTable_cases s with hraise | ⟨hne, hp, -⟩
  · exact hraise
  · exact absurd h (not_or.mpr ⟨fun h0 => hne (presentCodes_eq_nil.mpr h0), not_not.mpr hp⟩)

/-! ### GEN and TCHK -/

/-- GEN with a tree in IDLE runs. -/
theorem exec_gen {s : State} (he : s.block.err = .none) (hm : s.block.mode = .idle) (ht : s.block.treeValid = true) :
    exec .gen s = .next (counted (generateCodes s)) :=
  exec_runs nofun he rfl (by simp [seqOk, hm, ht])

/-- TCHK in IDLE runs. -/
theorem exec_tchk {s : State} (he : s.block.err = .none) (hm : s.block.mode = .idle) :
    exec .tchk s = .next (counted (checkTable s)) :=
  exec_runs nofun he rfl (beq_iff_eq.mpr hm)

/-- Settles O25: GEN's table is `treeCodes` of a finished tree, whose codes are the paths to the leaves
(`treeCodes_paths`, `treeCodes_single`); what LMAX is latched at, `markTable_lmax` says. -/
theorem genAssignsThePathsOfTheTree : Obligations.GenAssignsThePathsOfTheTree := by
  intro s he
  refine ⟨fun hout => exec_seqError nofun he rfl ?_, fun h hm ht => ?_⟩
  · rcases hout with hmode | htree
    · simp [seqOk, hmode]
    · simp [seqOk, htree]
  · obtain ⟨hshape, -⟩ := h.treeStands ht
    exact ⟨_, exec_gen he hm ht, rfl, treeCodes_paths hshape, fun nd hone hnd => treeCodes_single (hone ▸ hshape) hnd,
      markTable_lmax (treeCodes_nonempty hshape) (treeCodes_fit hshape)⟩

/-- Settles O31: what TCHK does on either kind of table, `checkTable_marks` and `checkTable_faults` say. -/
theorem tchkMarksPrefixFreeTables : Obligations.TchkMarksPrefixFreeTables := by
  intro s he hfit
  refine ⟨fun hm hne hp => ?_, fun hm hbad => ?_, fun hm => exec_seqError nofun he rfl (beq_eq_false_iff_ne.mpr hm)⟩
  · have hrun : exec .tchk s = .next (counted (markTable s)) := checkTable_marks hne hp ▸ exec_tchk he hm
    exact ⟨_, hrun, rfl, markTable_lmax hne hfit⟩
  · rw [exec_tchk he hm, checkTable_faults hbad]
    rfl

/-- Settles O32: GEN's table is one that TCHK marks (`treeCodes_nonempty`, `treeCodes_prefixFree`), and GEN has marked it
the same way already. -/
theorem tchkAfterGenChangesNothing : Obligations.TchkAfterGenChangesNothing := by
  intro s t h he hm ht hgen
  obtain ⟨hshape, -⟩ := h.treeStands ht
  obtain rfl := Host.Outcome.next.inj ((exec_gen he hm ht).symm.trans hgen)
  have hmarks : checkTable (counted (generateCodes s)) = markTable (counted (generateCodes s)) :=
    checkTable_marks (treeCodes_nonempty hshape) (treeCodes_prefixFree hshape)
  have hmarked : markTable (counted (generateCodes s)) = counted (generateCodes s) := rfl
  rw [exec_tchk (s := counted (generateCodes s)) he hm, hmarks, hmarked]
  rfl

/-! ### The number of codes GEN derives (R143 (a)) -/

/-- The leaves are the first NLEAF nodes, and no two of them have one symbol. -/
theorem leafSymbols_nodup {nodes : List Node} {root nleaf : Nat} (h : TreeShape nodes root nleaf) :
    ((nodes.take nleaf).map Node.sym).Nodup := by
  rw [List.Nodup, List.pairwise_map, List.pairwise_iff_getElem]
  intro i j hi hj hij hsym
  simp only [List.length_take, Nat.lt_min] at hi hj
  simp only [List.getElem_take] at hsym
  have hlt := h.leavesAscend i j _ _ hij hj.1 (List.getElem?_eq_getElem hi.2) (List.getElem?_eq_getElem hj.2)
  exact Nat.ne_of_lt hlt (congrArg BitVec.toNat hsym)

/-- A symbol has a code exactly when it is the symbol of one of the first NLEAF nodes. -/
theorem treeCodes_present_iff_mem {nodes : List Node} {root nleaf : Nat} (h : TreeShape nodes root nleaf) (x : Sym) :
    codeIn (treeCodes nodes root) x ≠ [] ↔ x ∈ (nodes.take nleaf).map Node.sym := by
  rw [treeCodes_present h, List.mem_map]
  constructor
  · rintro ⟨i, nd, hnd, hk, hs⟩
    have hi := (h.leavesFirst i nd hnd).mp hk
    exact ⟨nd, List.mem_of_getElem? ((List.getElem?_take_of_lt hi).trans hnd), hs⟩
  · rintro ⟨nd, hmem, hs⟩
    obtain ⟨i, hi, rfl⟩ := List.mem_take_iff_getElem.mp hmem
    have hnd := List.getElem?_eq_getElem (Nat.lt_min.mp hi).2
    exact ⟨i, _, hnd, (h.leavesFirst i _ hnd).mpr (Nat.lt_min.mp hi).1, hs⟩

/-- A finished tree's table has as many codes as the tree has leaves. -/
theorem treeCodes_count {nodes : List Node} {root nleaf : Nat} (h : TreeShape nodes root nleaf) :
    (symbols.countP fun x => !(codeIn (treeCodes nodes root) x).isEmpty) = nleaf := by
  have hcount := h.leafCount
  have hsize := h.size
  have hmem : ∀ x, x ∈ symbols.filter (fun x => !(codeIn (treeCodes nodes root) x).isEmpty) ↔
      x ∈ (nodes.take nleaf).map Node.sym := fun x => by
    simp only [← treeCodes_present_iff_mem h, List.mem_filter, mem_symbols, true_and, Bool.not_eq_true',
      List.isEmpty_eq_false_iff]
  have hperm := (List.perm_ext_iff_of_nodup (symbols_nodup.filter _) (leafSymbols_nodup h)).mpr hmem
  rw [List.countP_eq_length_filter, hperm.length_eq, List.length_map, List.length_take]
  omega

/-! ### The codes GEN derives are complete (R143 (e)) -/

/-- Of the 2^MAXLEN bitstrings of MAXLEN bits, how many begin with the code: 2^(-length), scaled; 0 for an absent code. -/
def codeShare (c : Bits) : Nat := if c = [] then 0 else 2 ^ (Config.maxlen - c.length)

/-- The shares of all codes of a table. -/
def shareSum (t : Table Bits) : Nat := (symbols.map fun x => codeShare (codeIn t x)).sum

theorem shareSum_nil : shareSum [] = 0 := by
  simp [shareSum, codeShare]

/-- A code written where none was adds its share. -/
theorem shareSum_codeWith {t : Table Bits} {sym : Sym} {c : Bits} (habsent : codeIn t sym = []) (hc : c ≠ []) :
    shareSum (codeWith t sym c) = shareSum t + 2 ^ (Config.maxlen - c.length) := by
  have hsplit : ∀ u : Table Bits, shareSum u =
      codeShare (codeIn u sym) + ((symbols.erase sym).map fun x => codeShare (codeIn u x)).sum :=
    fun u => (List.sum_map_erase (fun x => codeShare (codeIn u x)) (mem_symbols sym)).symm
  have hothers : ((symbols.erase sym).map fun x => codeShare (codeIn (codeWith t sym c) x)) =
      (symbols.erase sym).map fun x => codeShare (codeIn t x) :=
    List.map_congr_left fun x hx => by
      rw [codeIn_codeWith, if_neg (symbols_nodup.mem_erase_iff.mp hx).1]
  rw [hsplit, hothers, hsplit t, codeIn_codeWith, if_pos rfl, habsent]
  simp [codeShare, hc, Nat.add_comm]

/-- The walk below a node adds the share of the bitstring that leads to the node: a leaf gets that bitstring as its code, and
an internal node's share is halved between its children. The bound on `p` keeps every path within MAXLEN bits: below node `i`
at most `i + 1 - NLEAF` internal nodes follow one another. -/
theorem walk_shareSum {nodes : List Node} {root nleaf : Nat} (h : TreeShape nodes root nleaf) (fuel i : Nat) (p : Bits)
    (t : Table Bits) (hi : i < nodes.length) (hf : i < fuel) (hp : p.length + (i + 1 - nleaf) ≤ Config.maxlen)
    (hroot : p = [] → nleaf ≤ i) (habsent : ∀ x q, LeadsTo nodes i q x → codeIn t x = []) :
    shareSum (walk nodes fuel i p t) = shareSum t + 2 ^ (Config.maxlen - p.length) := by
  induction fuel generalizing i p t with
  | zero => omega
  | succ n ih =>
    obtain ⟨nd, hnd⟩ : ∃ nd, nodes[i]? = some nd := ⟨_, List.getElem?_eq_getElem hi⟩
    cases hk : nd.kind with
    | leaf =>
      have hleaf := (h.leavesFirst i nd hnd).mp hk
      simp only [walk, hnd, hk]
      exact shareSum_codeWith (habsent nd.sym [] ((leadsTo_leaf hnd hk).mpr ⟨rfl, rfl⟩))
        fun hnil => absurd (hroot hnil) (Nat.not_le.mpr hleaf)
    | internal =>
      have hinner : nleaf ≤ i := Nat.not_lt.mp fun hlt => by
        rw [(h.leavesFirst i nd hnd).mpr hlt] at hk
        cases hk
      obtain ⟨hl, hr, -⟩ := h.children i nd hnd hk
      have hleft := ih nd.left.toNat (p ++ [false]) t (by omega) (by omega) (by simp; omega) (by simp)
        fun x q hq => habsent x _ ((leadsTo_internal hnd hk).mpr (.inl ⟨q, rfl, hq⟩))
      have hright := ih nd.right.toNat (p ++ [true]) (walk nodes n nd.left.toNat (p ++ [false]) t) (by omega) (by omega)
        (by simp; omega) (by simp) fun x q hq => by
          have hkept := (walk_spec h n nd.left.toNat (p ++ [false]) t (by omega) (by omega) x).2
            fun q' hq' => leadsTo_siblings h hnd hk hq' hq
          exact hkept.trans (habsent x _ ((leadsTo_internal hnd hk).mpr (.inr ⟨q, rfl, hq⟩)))
      have hhalves : Config.maxlen - p.length = Config.maxlen - (p.length + 1) + 1 := by omega
      simp only [walk, hnd, hk, hright, hleft, List.length_append, List.length_singleton]
      rw [hhalves, pow_succ]
      ring

/-- The codes of a finished tree with two leaves or more share out all bitstrings of MAXLEN bits (R143 (e)). -/
theorem treeCodes_shareSum {nodes : List Node} {root nleaf : Nat} (h : TreeShape nodes root nleaf) (hn : nleaf ≠ 1) :
    shareSum (treeCodes nodes root) = 2 ^ Config.maxlen := by
  obtain ⟨nd, hnd⟩ := root_node h
  have hk := root_internal h hn hnd
  have hcount := h.leafCount
  have hsize := h.size
  have hlast := h.rootLast
  have hdepth : ([] : Bits).length + (root + 1 - nleaf) ≤ Config.maxlen := by
    simp only [Config.nsym, Config.maxlen, List.length_nil] at hcount ⊢
    omega
  have hwalk := walk_shareSum h nodes.length root [] [] (by omega) (by omega) hdepth (fun _ => by omega) fun _ _ _ => rfl
  simpa [treeCodes, hnd, hk, shareSum_nil] using hwalk

/-- Settles O26: GEN's table is `treeCodes` of a finished tree; that the codes are as many as the leaves, `treeCodes_count`
says, and that they are complete, `treeCodes_shareSum`. -/
theorem generatedTableIsPrefixFreeAndComplete : Obligations.GeneratedTableIsPrefixFreeAndComplete := by
  intro s t h he hm ht hgen
  obtain ⟨hshape, -⟩ := h.treeStands ht
  obtain rfl := Host.Outcome.next.inj ((exec_gen he hm ht).symm.trans hgen)
  refine ⟨treeCodes_count hshape, treeCodes_prefixFree hshape, fun hn x => ?_,
    fun hn => treeCodes_shareSum hshape (by omega)⟩
  change (codeIn (treeCodes s.block.node s.block.root.toNat) x).length ≤ _
  by_cases hx : codeIn (treeCodes s.block.node s.block.root.toNat) x = []
  · simp [hx]
  · exact leadsTo_length hshape ((treeCodes_paths hshape (by omega) x _).mp ⟨rfl, hx⟩)

/-! ### TCLR, TDEL and TAPP -/

/-- Settles O28: in IDLE TCLR runs, and in an empty table every code reads as absent. -/
theorem tclrEmptiesTheTable : Obligations.TclrEmptiesTheTable := by
  intro s he
  refine ⟨fun hm => ?_, fun hm => exec_seqError nofun he rfl (beq_eq_false_iff_ne.mpr hm)⟩
  have hrun : exec .tclr s = .next (counted (unmarkTable (clearCode s))) :=
    exec_runs nofun he rfl (beq_iff_eq.mpr hm)
  exact ⟨_, hrun, rfl, codeIn_nil⟩

/-- Settles O29: in IDLE TDEL runs, and what the codes are then, `setCode_loads` says. -/
theorem tdelDeletesOneCode : Obligations.TdelDeletesOneCode := by
  intro s sym he
  refine ⟨fun hm => ?_, fun hm => exec_seqError nofun he rfl (beq_eq_false_iff_ne.mpr hm)⟩
  have hrun : exec (.tdel sym) s = .next (counted (unmarkTable (setCode sym [] s))) :=
    exec_runs nofun he rfl (beq_iff_eq.mpr hm)
  have hload := setCode_loads he hm sym []
  exact ⟨_, hrun, rfl, hload.loaded, hload.others⟩

/-- Settles O30: in IDLE TAPP runs and does one of two things (`appendCode_fits`, `appendCode_overflows`). -/
theorem tappAppendsBitsOrFaults : Obligations.TappAppendsBitsOrFaults := by
  intro s sym n v hn1 hn32 hv he
  have hw : (Instr.tapp sym n v).wf = true := by simp [Instr.wf, hn1, hn32, hv]
  have hrun : s.block.mode = .idle → exec (.tapp sym n v) s = .next (counted (appendCode sym n v s)) :=
    fun hm => exec_runs nofun he hw (beq_iff_eq.mpr hm)
  refine ⟨fun hm hfit => ?_, fun hm hlong => ?_, fun hm => exec_seqError nofun he hw (beq_eq_false_iff_ne.mpr hm)⟩
  · have hload := setCode_loads he hm sym (codeAt s.block sym ++ lowBits n.toNat v)
    exact ⟨_, lowBits n.toNat v, appendCode_fits v hfit ▸ hrun hm, rfl, hload.loaded, length_lowBits _ _,
      fun k hk => getElem?_lowBits v hk, hload.others⟩
  · rw [hrun hm, appendCode_overflows v hlong]
    rfl

/-! ### TLEN and TBITS -/

/-- TLEN's answer as a number (R140): the presence above the length. -/
theorem lengthWord_toNat {c : Bits} (h : c.length ≤ Config.maxlen) :
    (lengthWord c).toNat = (if c = [] then 0 else 2 ^ 31) + c.length := by
  have hlen : (BitVec.ofNat 8 c.length).toNat = c.length := by
    rw [BitVec.toNat_ofNat]
    exact Nat.mod_eq_of_lt (Nat.lt_succ_of_le h)
  simp only [lengthWord, toNat_append_eq_add, hlen]
  cases c <;> simp

/-- TBITS's answer as a number (R141): no bit of the image is cut off, since it has at most MAXLEN. -/
theorem chunkWord_toNat {c : Bits} (h : c.length ≤ Config.maxlen) (k : BitVec 3) :
    (chunkWord c k).toNat = img c / 2 ^ (32 * k.toNat) % 2 ^ 32 := by
  have himg : img c < 2 ^ 256 :=
    (img_lt c).trans_le (Nat.pow_le_pow_right Nat.two_pos (h.trans (Nat.le_succ _)))
  rw [chunkWord, BitVec.extractLsb'_toNat, BitVec.toNat_ofNat, Nat.mod_eq_of_lt himg, Nat.shiftRight_eq_div_pow]

/-- Settles O34: TLEN is a reading command, so it runs in the faulted condition too (`exec_reads`). -/
theorem tlenRespondsPresenceAndLength : Obligations.TlenRespondsPresenceAndLength :=
  fun _ sym hfit => ⟨_, exec_reads (i := .tlen sym) rfl rfl, lengthWord_toNat hfit⟩

/-- Settles O35: TBITS is a reading command, so it runs in the faulted condition too (`exec_reads`). -/
theorem tbitsRespondsAChunkOfTheImage : Obligations.TbitsRespondsAChunkOfTheImage :=
  fun _ sym k hfit => ⟨_, exec_reads (i := .tbits sym k) rfl rfl, chunkWord_toNat hfit k⟩

end Sys2Proof.Machine
end

section
/-! ## Bit packer commands (spec/43_bit_packer.md) -/

namespace Sys2Proof.Machine

/-! ### PSTART -/

/-- PSTART in IDLE with a usable table runs. -/
theorem exec_pstart {s : State} (he : s.block.err = .none) (hm : s.block.mode = .idle) (hk : s.block.tabOk = true) :
    exec .pstart s = .next (counted (startPacking s)) :=
  exec_runs nofun he rfl (by simp [seqOk, hm, hk])

/-- Settles O36: what PSTART needs to run is what `seqOk` asks of it, and what it runs is `startPacking`. -/
theorem pstartBeginsPacking : Obligations.PstartBeginsPacking := by
  intro s he
  refine ⟨exec_pstart he, fun hout => exec_seqError nofun he rfl ?_⟩
  rcases hout with hmode | htab
  · simp [seqOk, hmode]
  · simp [seqOk, htab]

/-! ### PSYM -/

/-- PSYM in PACK runs. -/
theorem exec_psym {s : State} (he : s.block.err = .none) (hm : s.block.mode = .pack) (sym : Sym) :
    exec (.psym sym) s = .next (counted (packSymbol sym s)) :=
  exec_runs nofun he rfl (beq_iff_eq.mpr hm)

/-- The state after `n` PSYMs whose codes are `bits` together, from one in which `waiting` waits: the bytes they complete have
gone out and the rest waits. -/
def packed (waiting bits : Bits) (n : Nat) (s : State) : State :=
  { s with
    block.acc := BitVec.ofNat 8 (img (leftOver (waiting ++ bits)))
    block.nacc := BitVec.ofNat 3 ((waiting ++ bits).length % 8)
    block.bytecnt := satInc^[(waiting ++ bits).length / 8] s.block.bytecnt
    block.symcnt := satInc^[n] s.block.symcnt
    block.cmdcnt := satInc^[n] s.block.cmdcnt
    host.outb := s.host.outb ++ bytesOfBits (waiting ++ bits) }

/-- One PSYM of a symbol with a code (R151). -/
theorem exec_psym_packs {waiting : Bits} {s : State} {sym : Sym} (he : s.block.err = .none) (hm : s.block.mode = .pack)
    (hw : Waits waiting s.block) (hc : codeAt s.block sym ≠ []) :
    exec (.psym sym) s = .next (packed waiting (codeAt s.block sym) 1 s) := by
  rw [exec_psym he hm, packSymbol, if_neg hc, packBits_spec _ hw]
  rfl

theorem packed_waits {waiting : Bits} {s : State} (hw : Waits waiting s.block) (bits : Bits) (n : Nat) :
    Waits (leftOver (waiting ++ bits)) (packed waiting bits n s).block := by
  have h := packBits_waits bits hw
  rwa [packBits_spec bits hw] at h

/-- Packing no bits for no PSYM. -/
theorem packed_nil {waiting : Bits} {s : State} (hw : Waits waiting s.block) : packed waiting [] 0 s = s :=
  (packBits_spec [] hw).symm

/-- PSYMs in two portions. -/
theorem packed_packed (waiting c d : Bits) (m n : Nat) (s : State) :
    packed (leftOver (waiting ++ c)) d n (packed waiting c m s) = packed waiting (c ++ d) (n + m) s := by
  have hleft := leftOver_append (waiting ++ c) d
  have hmod := congrArg List.length hleft
  rw [leftOver_length, leftOver_length] at hmod
  have hgroups := groups_portions (waiting ++ c) d
  have hbytes := bytesOfBits_portions (waiting ++ c) d
  conv_rhs => rw [packed, ← List.append_assoc, hleft, hmod, hgroups, hbytes, ← List.append_assoc s.host.outb,
    Nat.add_comm (_ / 8), Function.iterate_add_apply, Function.iterate_add_apply, Function.iterate_add_apply]
  rfl

/-- Settles O37: which of the three outcomes PSYM has, `seqOk` and the code decide; what the packer holds after a symbol with
a code, `packed_waits` says. -/
theorem psymPacksTheCode : Obligations.PsymPacksTheCode := by
  intro s sym waiting he hlen himg
  have hw : Waits waiting s.block := ⟨hlen, himg⟩
  refine ⟨fun hm => exec_seqError nofun he rfl (beq_eq_false_iff_ne.mpr hm), fun hm hc => ?_, fun hm hc => ?_⟩
  · rw [exec_psym he hm, packSymbol, if_pos hc]
    rfl
  · obtain ⟨hnacc, hacc⟩ := packed_waits hw (codeAt s.block sym) 1
    rw [leftOver_length] at hnacc
    rw [← List.length_append]
    exact ⟨_, exec_psym_packs he hm hw hc, rfl, hnacc.symm, hacc.symm, satInc_iterate_toNat _ _⟩

/-! ### PFIN -/

/-- PFIN in PACK runs. -/
theorem exec_pfin {s : State} (he : s.block.err = .none) (hm : s.block.mode = .pack) :
    exec .pfin s = .next (counted (finishPacking s)) :=
  exec_runs nofun he rfl (beq_iff_eq.mpr hm)

/-- PFIN with no bit waiting (R152). -/
theorem finishPacking_empty {s : State} (h : s.block.nacc = 0#3) :
    finishPacking s = { s with block.padcnt := 0#3, block.acc := 0#8, block.nacc := 0#3, block.mode := .idle } := by
  rw [finishPacking, flushByte, if_pos h]

/-- PFIN with bits waiting (R152). -/
theorem finishPacking_flushes {s : State} (h : s.block.nacc ≠ 0#3) :
    finishPacking s = { s with
      block.padcnt := BitVec.ofNat 3 (8 - s.block.nacc.toNat), block.acc := 0#8, block.nacc := 0#3, block.mode := .idle
      block.bytecnt := satInc s.block.bytecnt
      host.outb := s.host.outb ++ [s.block.acc <<< (8 - s.block.nacc.toNat)] } := by
  rw [finishPacking, flushByte, if_neg h]
  rfl

theorem nacc_pos {n : BitVec 3} (h : n ≠ 0#3) : 0 < n.toNat :=
  Nat.pos_of_ne_zero fun h0 => h (BitVec.eq_of_toNat_eq h0)

/-- The last byte as a number: no waiting bit is shifted out. -/
theorem lastByte_toNat {acc : Byte} {n : BitVec 3} (h : acc.toNat < 2 ^ n.toNat) :
    (acc <<< (8 - n.toNat)).toNat = acc.toNat * 2 ^ (8 - n.toNat) := by
  have hn := n.isLt
  have hfit : acc.toNat * 2 ^ (8 - n.toNat) < 2 ^ 8 :=
    calc acc.toNat * 2 ^ (8 - n.toNat) < 2 ^ n.toNat * 2 ^ (8 - n.toNat) := Nat.mul_lt_mul_of_pos_right h (by positivity)
      _ = 2 ^ 8 := by rw [← pow_add, Nat.add_sub_cancel' (by omega)]
  rw [BitVec.toNat_shiftLeft, Nat.shiftLeft_eq, Nat.mod_eq_of_lt hfit]

/-- Settles O38: PFIN in PACK flushes or has nothing to flush (`finishPacking_flushes`, `finishPacking_empty`). -/
theorem pfinFlushesTheLastByte : Obligations.PfinFlushesTheLastByte := by
  intro s he
  refine ⟨fun hm => exec_seqError nofun he rfl (beq_eq_false_iff_ne.mpr hm), fun hm h0 => ?_, fun hm hn hfit => ?_⟩
  · rw [exec_pfin he hm, finishPacking_empty h0]
    rfl
  · have hpos := nacc_pos hn
    refine ⟨_, _, finishPacking_flushes hn ▸ exec_pfin he hm, ?_, lastByte_toNat hfit⟩
    rw [BitVec.toNat_ofNat]
    omega

/-- The last byte is the waiting bits padded (00_scope.md R12). -/
theorem bytesOfBits_padBits_waiting {waiting : Bits} {b : Block} (hw : Waits waiting b) (h : b.nacc ≠ 0#3) :
    bytesOfBits (padBits waiting) = [b.acc <<< (8 - b.nacc.toNat)] := by
  obtain ⟨hlen, himg⟩ := hw
  have hpos := nacc_pos h
  have hn := b.nacc.isLt
  have hpad : padBits waiting = (waiting ++ List.replicate (8 - b.nacc.toNat) false) ++ [] := by
    rw [padBits, hlen, List.append_nil, show (8 - b.nacc.toNat % 8) % 8 = 8 - b.nacc.toNat by omega]
  rw [hpad, bytesOfBits_eight _ _ (by rw [List.length_append, List.length_replicate]; omega), bytesOfBits_short [] (by simp),
    img_append, img_zeros, List.length_replicate, himg, Nat.add_zero, ← lastByte_toNat (Waits.accFits ⟨hlen, himg⟩),
    BitVec.ofNat_toNat, BitVec.setWidth_eq]

/-- PFIN in one equation: the waiting bits go out padded. -/
theorem finishPacking_pads {waiting : Bits} {s : State} (hw : Waits waiting s.block) :
    finishPacking s = { s with
      block.padcnt := BitVec.ofNat 3 ((8 - waiting.length % 8) % 8)
      block.acc := 0#8, block.nacc := 0#3, block.mode := .idle
      block.bytecnt := satInc^[(waiting.length + 7) / 8] s.block.bytecnt
      host.outb := s.host.outb ++ bytesOfBits (padBits waiting) } := by
  by_cases h0 : s.block.nacc = 0#3
  · obtain rfl : waiting = [] := List.length_eq_zero_iff.mp (by rw [hw.1, h0]; rfl)
    rw [finishPacking_empty h0, show bytesOfBits (padBits []) = [] from rfl, List.append_nil]
    rfl
  · have hpos := nacc_pos h0
    have hn := s.block.nacc.isLt
    rw [finishPacking_flushes h0, bytesOfBits_padBits_waiting hw h0, hw.1,
      show (8 - s.block.nacc.toNat % 8) % 8 = 8 - s.block.nacc.toNat by omega,
      show (s.block.nacc.toNat + 7) / 8 = 1 by omega]
    rfl

/-! ### A packing run (R155, R156) -/

/-- PSYMs one after another, all of symbols with codes. -/
theorem execAll_psyms (seq : List Sym) {waiting : Bits} {s : State} (he : s.block.err = .none)
    (hm : s.block.mode = .pack) (hw : Waits waiting s.block) (hseq : ∀ x ∈ seq, codeAt s.block x ≠ []) :
    execAll (seq.map .psym) s = .next (packed waiting (bitsOfSeq (codeAt s.block) seq) seq.length s) := by
  induction seq generalizing waiting s with
  | nil => exact congrArg _ (packed_nil hw).symm
  | cons x seq ih =>
    obtain ⟨hx, hrest⟩ := List.forall_mem_cons.mp hseq
    rw [List.map_cons, execAll_cons (exec_psym_packs he hm hw hx), 
      ih (s := packed waiting (codeAt s.block x) 1 s) he hm (packed_waits hw _ 1) hrest, packed_packed]
    rfl

/-- Padding concerns the bits that fill no byte. -/
theorem bytesOfBits_padBits (c : Bits) : bytesOfBits (padBits c) = bytesOfBits c ++ bytesOfBits (padBits (leftOver c)) := by
  rw [padBits, bytesOfBits_portions, padBits, leftOver_length, Nat.mod_mod]

/-- The codes of a sequence together: each symbol's code as often as the symbol occurs. -/
theorem bitsOfSeq_length (code : Sym → Bits) (seq : List Sym) :
    (bitsOfSeq code seq).length = (symbols.map fun x => freqOf seq x * (code x).length).sum := by
  have hall : seq.toFinset ⊆ symbols.toFinset := fun x _ => List.mem_toFinset.mpr (mem_symbols x)
  calc (bitsOfSeq code seq).length
      = (seq.map fun x => (code x).length).sum := by simp [bitsOfSeq, List.length_flatten, Function.comp_def]
    _ = ∑ x ∈ seq.toFinset, freqOf seq x * (code x).length := Finset.sum_list_map_count _ _
    _ = ∑ x ∈ symbols.toFinset, freqOf seq x * (code x).length :=
      Finset.sum_subset hall fun x _ hx => by
        rw [freqOf, List.count_eq_zero_of_not_mem (by simpa using hx), Nat.zero_mul]
    _ = (symbols.map fun x => freqOf seq x * (code x).length).sum := List.sum_toFinset _ symbols_nodup

/-- The run as a whole: PSTART leaves no bit waiting, the PSYMs pack all codes, PFIN pads what they leave over. -/
theorem execAll_packRun {s : State} {seq : List Sym} (he : s.block.err = .none) (hm : s.block.mode = .idle)
    (hk : s.block.tabOk = true) (hseq : ∀ x ∈ seq, codeAt s.block x ≠ []) :
    execAll (packRun seq) s = .next (counted (finishPacking
      (packed [] (bitsOfSeq (codeAt s.block) seq) seq.length (counted (startPacking s))))) :=
  calc execAll (packRun seq) s
      = execAll (seq.map Instr.psym ++ [Instr.pfin]) (counted (startPacking s)) := execAll_cons (exec_pstart he hm hk)
    _ = execAll [Instr.pfin] (packed [] (bitsOfSeq (codeAt s.block) seq) seq.length (counted (startPacking s))) :=
      execAll_append (execAll_psyms seq (s := counted (startPacking s)) he rfl ⟨rfl, rfl⟩ hseq)
    _ = _ := execAll_cons (exec_pfin he rfl)

/-- The state at the end of the run, field by field. -/
theorem finishPacking_packed (bits : Bits) (n : Nat) (s : State) :
    counted (finishPacking (packed [] bits n (counted (startPacking s)))) = { s with
      block.acc := 0#8, block.nacc := 0#3, block.mode := .idle
      block.padcnt := BitVec.ofNat 3 ((8 - bits.length % 8) % 8)
      block.symcnt := satInc^[n] 0#32
      block.bytecnt := satInc^[(bits.length + 7) / 8] 0#32
      block.cmdcnt := satInc^[n + 2] s.block.cmdcnt
      host.outb := s.host.outb ++ bytesOfBits (padBits bits) } := by
  have hw := packed_waits (s := counted (startPacking s)) (waiting := []) ⟨rfl, rfl⟩ bits n
  have hgroups : (bits.length + 7) / 8 = (bits.length % 8 + 7) / 8 + bits.length / 8 := by omega
  rw [finishPacking_pads hw, List.nil_append, leftOver_length, Nat.mod_mod, bytesOfBits_padBits bits, hgroups,
    Function.iterate_add_apply, Function.iterate_succ_apply', Function.iterate_succ_apply, ← List.append_assoc]
  rfl

/-- Settles O39: the run goes as `execAll_packRun` says, and what it leaves, `finishPacking_packed`. -/
theorem packingRunEmitsPack : Obligations.PackingRunEmitsPack := by
  intro s seq he hm hk hseq
  have hrun := execAll_packRun he hm hk hseq
  have hbits := bitsOfSeq_length (codeAt s.block) seq
  rw [finishPacking_packed] at hrun
  rw [packSeq]
  generalize bitsOfSeq (codeAt s.block) seq = bits at *
  have hsymcnt := satInc_iterate_toNat seq.length 0#32
  have hbytecnt := satInc_iterate_toNat ((bits.length + 7) / 8) 0#32
  have hpadcnt : (BitVec.ofNat 3 ((8 - bits.length % 8) % 8)).toNat = (8 - bits.length % 8) % 8 := by
    rw [BitVec.toNat_ofNat, Nat.mod_mod]
  have hcmdcnt := satInc_iterate_toNat (seq.length + 2) s.block.cmdcnt
  rw [BitVec.toNat_zero, Nat.zero_add] at hsymcnt hbytecnt
  refine ⟨_, hrun, ?_, hsymcnt, hbytecnt, hpadcnt, hcmdcnt, fun hlt => ?_, fun hfreq => ?_⟩
  · rw [← hm]
  · dsimp only at hlt ⊢
    omega
  · simpa only [hfreq] using hbits

/-! ### The table during a run (R154; 44_bit_unpacker.md R170) -/

/-- The blocks `b'` and `b` have the same CODE, TAB_OK and LMAX. -/
def SameTable (b' b : Block) : Prop := b'.code = b.code ∧ b'.tabOk = b.tabOk ∧ b'.lmax = b.lmax

theorem SameTable.refl (b : Block) : SameTable b b := ⟨rfl, rfl, rfl⟩

/-- The commands that write the table need IDLE, and no other touches it. -/
theorem effect_sameTable {i : Instr} {s : State} (hi : i ≠ .srst) (hm : s.block.mode ≠ .idle)
    (hq : seqOk s.block i = true) : SameTable (effect i s).block s.block := by
  cases i with
  | srst => exact absurd rfl hi
  | gen => exact absurd (beq_iff_eq.mp (Bool.and_eq_true_iff.mp hq).1) hm
  | tclr | tdel | tapp | tchk => exact absurd (beq_iff_eq.mp hq) hm
  | build => rcases buildTree_cases s with ⟨-, h⟩ | ⟨-, h⟩ <;> rw [effect, h] <;> exact .refl _
  | psym sym =>
    rcases packSymbol_frame sym s with ⟨-, h⟩ | ⟨acc, nacc, bytecnt, out, h⟩ <;> rw [effect, h] <;> exact .refl _
  | pfin =>
    obtain ⟨padcnt, bytecnt, out, -, h⟩ := finishPacking_frame s
    rw [effect, h]
    exact .refl _
  | ubyte byte =>
    obtain ⟨pend, symcnt, out, h | h⟩ := unpackByte_frame byte s <;> rw [effect, h] <;> exact .refl _
  | ufin => rcases finishUnpacking_cases s with h | h <;> rw [effect, h] <;> exact .refl _
  | fclr | fset | pstart | ustart => exact .refl _
  | nop | rdstat | rdcnt | frd | nrd | tlen | tbits => rw [effect_reads_block rfl]; exact .refl _

/-- Settles O52: of the ways a command can end (`exec_cases`), being counted and fault entry touch no table, and what a command
does when it runs is the business of `effect_sameTable`. -/
theorem tableIsFixedDuringARun : Obligations.TableIsFixedDuringARun := by
  intro s t i hm hi h
  rcases exec_cases h with ⟨hs, -⟩ | ⟨-, -, -, rfl⟩ | ⟨-, -, -, rfl⟩ | ⟨-, -, -, -, rfl⟩ | ⟨-, -, hq, -, rfl⟩
  · exact absurd hs hi
  · exact SameTable.refl _
  · exact SameTable.refl _
  · exact SameTable.refl _
  · exact effect_sameTable hi hm hq

/-! ### The output of one command (R151; 44_bit_unpacker.md R163) -/

/-- A PSYM appends the bytes that the waiting bits, fewer than eight, and a code, of MAXLEN bits at most, fill. -/
theorem packSymbol_outb_length {s : State} (h : Invariant s.block) (sym : Sym) :
    (packSymbol sym s).host.outb.length ≤ s.host.outb.length + 32 := by
  rw [packSymbol]
  split
  · exact Nat.le_add_right _ _
  · obtain ⟨waiting, hw⟩ := exists_waits s.block h.accFits
    have hwait : waiting.length < 8 := hw.1 ▸ s.block.nacc.isLt
    have hcode : (codeAt s.block sym).length ≤ 255 := h.codesFit sym
    rw [packBits_spec _ hw, List.length_append, bytesOfBits_length, List.length_append]
    omega

theorem finishPacking_outb_length (s : State) :
    (finishPacking s).host.outb.length ≤ s.host.outb.length + 32 := by
  obtain ⟨padcnt, bytecnt, out, hone, h⟩ := finishPacking_frame s
  rw [h, List.length_append]
  omega

/-- As many symbols as bits at most, where each has a code. -/
theorem length_le_bitsOfSeq {code : Sym → Bits} {seq : List Sym} (h : ∀ x ∈ seq, code x ≠ []) :
    seq.length ≤ (bitsOfSeq code seq).length := by
  induction seq with
  | nil => exact Nat.zero_le _
  | cons x seq ih =>
    obtain ⟨hx, hrest⟩ := List.forall_mem_cons.mp h
    have hpos := List.length_pos_iff.mpr hx
    have hle := ih hrest
    simp only [bitsOfSeq, List.map_cons, List.flatten_cons, List.length_append, List.length_cons] at hle ⊢
    omega

/-- Behind bits that no code begins, `more` completes no more symbols than it has bits: the first symbol takes all of `pend`
and a bit of `more`, each further one a bit at least. -/
theorem decodeBits_length {code : Sym → Bits} {pend : Bits} (hn : matchIn code pend = none) (more : Bits) :
    (decodeBits code (pend ++ more)).1.length ≤ more.length := by
  cases hm : matchIn code (pend ++ more) with
  | none => simp [decodeBits_none hm]
  | some x =>
    obtain ⟨hx, hpre⟩ := matchIn_some hm
    have hlong : pend.length < (code x).length := Nat.lt_of_not_le fun hle =>
      matchIn_none.mp hn x hx (List.prefix_of_prefix_length_le hpre (List.prefix_append _ _) hle)
    have hrest := length_le_bitsOfSeq (decodeBits_present code ((pend ++ more).drop (code x).length))
    have hsplit := congrArg List.length (decodeBits_splits code ((pend ++ more).drop (code x).length))
    simp only [List.length_append, List.length_drop] at hsplit
    have hle := hpre.length_le
    rw [List.length_append] at hle
    rw [decodeBits_some hm, List.length_cons]
    omega

/-- UBYTE's loop emits no more symbols than the document's loop. -/
theorem drain_outs_length (fuel : Nat) (s : State) :
    (drain fuel s).1.host.outs.length ≤
      s.host.outs.length + (matchLoop (codeAt s.block) fuel s.block.pend).1.length := by
  induction fuel generalizing s with
  | zero => exact Nat.le_refl _
  | succ n ih =>
    cases hm : matchCode s.block s.block.pend with
    | none =>
      rw [drain_succ_none n hm]
      exact Nat.le_add_right _ _
    | some x =>
      have hloop : (matchLoop (codeAt s.block) (n + 1) s.block.pend).1.length =
          (matchLoop (codeAt s.block) n (s.block.pend.drop (codeAt s.block x).length)).1.length + 1 := by
        have hm' : matchIn (codeAt s.block) s.block.pend = some x := hm
        simp only [matchLoop, hm', List.length_cons]
      have htake : (takeSymbol x s).host.outs.length = s.host.outs.length + 1 := by simp
      rw [drain_succ_some n hm, hloop]
      split
      · change (takeSymbol x s).host.outs.length ≤ _
        omega
      · have hrest : (drain n (takeSymbol x s)).1.host.outs.length ≤ (takeSymbol x s).host.outs.length +
            (matchLoop (codeAt s.block) n (s.block.pend.drop (codeAt s.block x).length)).1.length := ih (takeSymbol x s)
        omega

/-- A UBYTE emits no more symbols than a byte has bits. -/
theorem unpackByte_outs_length {s : State} (hn : matchIn (codeAt s.block) s.block.pend = none) (byte : Byte) :
    (unpackByte byte s).host.outs.length ≤ s.host.outs.length + 8 := by
  cases hl : limitReached s.block with
  | true =>
    rw [unpackByte_at_limit byte s hl]
    exact Nat.le_add_right _ _
  | false =>
    have hdrain := drain_outs_length (s.block.pend ++ byteBits byte).length (feed byte s)
    have hfound := decodeBits_length hn (byteBits byte)
    rw [byteBits_length] at hfound
    have hle := hdrain.trans (Nat.add_le_add_left hfound _)
    rw [unpackByte_below_limit byte s hl]
    dsimp only
    split
    · exact hle
    · split <;> exact hle

/-- Settles O55: only the packer's commands emit on OUTB and only UBYTE on OUTS (O54), and only where they run
(`exec_cases`): PFIN one byte, PSYM what `packSymbol_outb_length` and UBYTE what `unpackByte_outs_length` says. -/
theorem oneCommandEmitsBoundedOutput : Obligations.OneCommandEmitsBoundedOutput := by
  intro s t i h hexec
  rcases exec_cases hexec with ⟨-, rfl⟩ | ⟨-, -, -, rfl⟩ | ⟨-, -, -, rfl⟩ | ⟨-, -, -, -, rfl⟩ | ⟨-, hw, hq, -, rfl⟩
  · exact ⟨Nat.le_add_right _ _, Nat.le_add_right _ _⟩
  · exact ⟨Nat.le_add_right _ _, Nat.le_add_right _ _⟩
  · exact ⟨Nat.le_add_right _ _, Nat.le_add_right _ _⟩
  · exact ⟨Nat.le_add_right _ _, Nat.le_add_right _ _⟩
  · obtain ⟨-, -, -, houtb, -, houts⟩ := streamsGrowByTheirCommandsOnly s _ i hw hexec
    constructor
    · by_cases hkept : (counted (effect i s)).host.outb = s.host.outb
      · rw [hkept]
        exact Nat.le_add_right _ _
      · rcases houtb hkept with rfl | ⟨sym, rfl⟩
        · exact finishPacking_outb_length s
        · exact packSymbol_outb_length h sym
    · by_cases hkept : (counted (effect i s)).host.outs = s.host.outs
      · rw [hkept]
        exact Nat.le_add_right _ _
      · obtain ⟨byte, rfl⟩ := houts hkept
        exact unpackByte_outs_length (matchIn_none.mpr (h.pendUnmatched (beq_iff_eq.mp hq))) byte

end Sys2Proof.Machine
end

section
/-! ## Bit unpacker commands (spec/44_bit_unpacker.md) -/

namespace Sys2Proof.Machine

/-! ### The match (R162) -/

/-- Settles O41: what the scan finds is present and begins the bits (`matchIn_some`), and where no code begins another it
finds the one that does (`matchIn_of_prefix`). -/
theorem matchIsTheOnePrefix : Obligations.MatchIsTheOnePrefix :=
  fun _ _ hp _ => ⟨matchIn_some, fun ⟨hx, hpre⟩ => matchIn_of_prefix hp hx hpre⟩

/-! ### USTART -/

/-- USTART with legal operands in IDLE with a usable table runs. -/
theorem exec_ustart {s : State} {limEn : Bool} {explen : Count} (hw : (Instr.ustart limEn explen).wf = true)
    (he : s.block.err = .none) (hm : s.block.mode = .idle) (hk : s.block.tabOk = true) :
    exec (.ustart limEn explen) s = .next (counted (startUnpacking limEn explen s)) :=
  exec_runs nofun he hw (by simp [seqOk, hm, hk])

theorem ustart_wf {limEn : Bool} {explen : Count} (h : limEn = false → explen = 0#32) :
    (Instr.ustart limEn explen).wf = true := by
  cases limEn with
  | true => rfl
  | false => exact beq_iff_eq.mpr (h rfl)

/-- Settles O40: what USTART needs to run is what `seqOk` asks of it, and what it runs is `startUnpacking`. -/
theorem ustartBeginsUnpacking : Obligations.UstartBeginsUnpacking := by
  intro s limEn explen hlegal he
  have hw := ustart_wf hlegal
  refine ⟨exec_ustart hw he, fun hout => exec_seqError nofun he hw ?_⟩
  rcases hout with hmode | htab
  · simp [seqOk, hmode]
  · simp [seqOk, htab]

/-! ### UBYTE -/

/-- UBYTE in UNPACK runs. -/
theorem exec_ubyte {s : State} (he : s.block.err = .none) (hm : s.block.mode = .unpack) (byte : Byte) :
    exec (.ubyte byte) s = .next (counted (unpackByte byte s)) :=
  exec_runs nofun he rfl (beq_iff_eq.mpr hm)

/-- Settles O42: where the count stands against the limit decides between `unpackByte_at_limit`, `unpackByte_reaches_limit`
and `unpackByte_free`. -/
theorem ubyteEmitsWhatTheByteCompletes : Obligations.UbyteEmitsWhatTheByteCompletes := by
  intro s byte he
  refine ⟨fun hm => exec_seqError nofun he rfl (beq_eq_false_iff_ne.mpr hm), fun hm hle => ?_⟩
  refine ⟨_, exec_ubyte he hm byte, fun hl hdone => ?_, fun hl hpos hlast => ?_, fun hfree => ?_⟩
  · have heq : s.block.symcnt = s.block.explen :=
      BitVec.eq_of_toNat_eq (Nat.le_antisymm (hle hl) (Nat.le_of_sub_eq_zero hdone))
    rw [unpackByte_at_limit byte s (by simp [limitReached, hl, heq])]
    rfl
  · rw [unpackByte_reaches_limit byte s hl (Nat.lt_of_sub_pos hpos) (Nat.sub_le_iff_le_add'.mp hlast)]
    rfl
  · rw [unpackByte_free byte s (hfree.imp_right Nat.add_lt_of_lt_sub'), decodeBits]
    dsimp only
    refine ⟨?_, fun hshort => ?_, fun hdead => ?_⟩
    · rw [← satInc_iterate_toNat]
      split <;> rfl
    · rw [if_neg (not_le.mpr hshort)]
      rfl
    · rw [if_pos hdead]
      rfl

/-! ### UFIN -/

/-- UFIN in UNPACK runs. -/
theorem exec_ufin {s : State} (he : s.block.err = .none) (hm : s.block.mode = .unpack) :
    exec .ufin s = .next (counted (finishUnpacking s)) :=
  exec_runs nofun he rfl (beq_iff_eq.mpr hm)

/-- UFIN with no symbol missing. -/
theorem exec_ufin_leaves {s : State} (he : s.block.err = .none) (hm : s.block.mode = .unpack)
    (h : s.block.limitEn = true → s.block.explen.toNat ≤ s.block.symcnt.toNat) :
    exec .ufin s = .next { s with
      block.pend := [], block.mode := .idle, block.cmdcnt := satInc s.block.cmdcnt } := by
  rw [exec_ufin he hm, finishUnpacking, if_neg (by simpa using h)]
  rfl

/-- Settles O43: `exec_ufin_leaves` where no symbol is missing, else the first branch of `finishUnpacking`. -/
theorem ufinEndsUnpacking : Obligations.UfinEndsUnpacking := by
  intro s he
  refine ⟨exec_ufin_leaves he, fun hm hl hlt => ?_, fun hm => exec_seqError nofun he rfl (beq_eq_false_iff_ne.mpr hm)⟩
  rw [exec_ufin he hm, finishUnpacking, if_pos (by simp [hl, hlt])]
  rfl

/-- UFIN emits nothing, faulted or not. -/
theorem exec_ufin_outs {s t : State} (h : exec .ufin s = .next t) : t.host.outs = s.host.outs := by
  obtain ⟨-, -, -, -, -, houts⟩ := streamsGrowByTheirCommandsOnly s t .ufin rfl h
  by_contra hne
  obtain ⟨byte, hi⟩ := houts hne
  cases hi

/-! ### How far a run of UBYTEs has come (R163, R165) -/

/-- The block `b'` is in the same unpacking run as `b`: what UBYTE never changes, but only reads, is the same. -/
structure SameRun (b' b : Block) : Prop where
  mode : b'.mode = b.mode
  code : codeAt b' = codeAt b
  lmax : b'.lmax = b.lmax
  limitEn : b'.limitEn = b.limitEn
  explen : b'.explen = b.explen

theorem SameRun.refl (b : Block) : SameRun b b := ⟨rfl, rfl, rfl, rfl, rfl⟩

theorem SameRun.trans {b'' b' b : Block} (h' : SameRun b'' b') (h : SameRun b' b) : SameRun b'' b :=
  ⟨h'.mode.trans h.mode, h'.code.trans h.code, h'.lmax.trans h.lmax, h'.limitEn.trans h.limitEn, h'.explen.trans h.explen⟩

theorem counted_sameRun (s : State) : SameRun (counted s).block s.block := ⟨rfl, rfl, rfl, rfl, rfl⟩

theorem unpackByte_sameRun (byte : Byte) (s : State) : SameRun (unpackByte byte s).block s.block := by
  obtain ⟨pend, symcnt, out, h | h⟩ := unpackByte_frame byte s <;> rw [h] <;> exact ⟨rfl, rfl, rfl, rfl, rfl⟩

/-- The limit is reached: the document's loop has found the expected symbols, and those are what was emitted since OUTS held
`before`. -/
structure AtLimit (before found : List Sym) (s : State) : Prop where
  err : s.block.err = .none
  limited : s.block.limitEn = true
  count : s.block.symcnt = s.block.explen
  enough : s.block.explen.toNat ≤ found.length
  outs : s.host.outs = before ++ found.take s.block.explen.toNat

/-- The limit is not reached, or there is none: all that the document's loop has found was emitted since OUTS held `before`;
what the loop keeps is pending, or is LMAX bits or more and has raised StreamError. -/
structure BelowLimit (before : List Sym) (found : List Sym × Bits) (s : State) : Prop where
  missing : s.block.limitEn = true → found.1.length < s.block.explen.toNat
  count : s.block.limitEn = true → s.block.symcnt.toNat = found.1.length
  outs : s.host.outs = before ++ found.1
  alive : s.block.err = .none → s.block.pend = found.2
  dead : s.block.err ≠ .none → s.block.err = .streamError ∧ s.block.lmax.toNat ≤ found.2.length

/-- The run has read the bits `read` since OUTS held `before`. -/
structure HasRead (before : List Sym) (read : Bits) (s : State) : Prop where
  sound : Invariant s.block
  mode : s.block.mode = .unpack
  progress : AtLimit before (decodeBits (codeAt s.block) read).1 s ∨
    BelowLimit before (decodeBits (codeAt s.block) read) s

/-- At the limit a byte is only counted. -/
theorem AtLimit.ubyte {before found : List Sym} {s : State} (h : AtLimit before found s) (more : List Sym)
    (byte : Byte) : AtLimit before (found ++ more) (counted (unpackByte byte s)) := by
  have houts : s.host.outs = before ++ (found ++ more).take s.block.explen.toNat := by
    rw [List.take_append_of_le_length h.enough, h.outs]
  rw [unpackByte_at_limit byte s (by simp [limitReached, h.limited, h.count])]
  exact ⟨h.err, h.limited, h.count, h.enough.trans (by simp), houts⟩

/-- The byte that completes the last expected symbol. -/
theorem BelowLimit.ubyte_last {before : List Sym} {found : List Sym × Bits} {s : State}
    (h : BelowLimit before found s) (he : s.block.err = .none) (byte : Byte) (hl : s.block.limitEn = true)
    (hlast : s.block.explen.toNat ≤
      (found.1 ++ (decodeBits (codeAt s.block) (found.2 ++ byteBits byte)).1).length) :
    AtLimit before (found.1 ++ (decodeBits (codeAt s.block) (found.2 ++ byteBits byte)).1)
      (counted (unpackByte byte s)) := by
  have hcount := h.count hl
  have hmissing := h.missing hl
  rw [← h.alive he] at hlast ⊢
  rw [unpackByte_reaches_limit byte s hl (hcount ▸ hmissing) (by rwa [hcount, ← List.length_append]), hcount]
  generalize (decodeBits (codeAt s.block) (s.block.pend ++ byteBits byte)).1 = new at *
  have houts : s.host.outs ++ new.take (s.block.explen.toNat - found.1.length) =
      before ++ (found.1 ++ new).take s.block.explen.toNat := by
    rw [List.take_append, List.take_of_length_le hmissing.le, ← List.append_assoc, h.outs]
  exact ⟨he, hl, rfl, hlast, houts⟩

/-- A byte that leaves symbols expected, or in greedy mode. -/
theorem BelowLimit.ubyte {before : List Sym} {found : List Sym × Bits} {s : State}
    (h : BelowLimit before found s) (he : s.block.err = .none) (byte : Byte)
    (hbelow : s.block.limitEn = true →
      (found.1 ++ (decodeBits (codeAt s.block) (found.2 ++ byteBits byte)).1).length < s.block.explen.toNat) :
    BelowLimit before (found.1 ++ (decodeBits (codeAt s.block) (found.2 ++ byteBits byte)).1,
      (decodeBits (codeAt s.block) (found.2 ++ byteBits byte)).2) (counted (unpackByte byte s)) := by
  rw [← h.alive he] at hbelow ⊢
  have hfree : s.block.limitEn = false ∨ s.block.symcnt.toNat +
      (decodeBits (codeAt s.block) (s.block.pend ++ byteBits byte)).1.length < s.block.explen.toNat := by
    cases hl : s.block.limitEn with
    | false => exact .inl rfl
    | true => exact .inr (by rw [h.count hl, ← List.length_append]; exact hbelow hl)
  rw [unpackByte_free byte s hfree]
  generalize decodeBits (codeAt s.block) (s.block.pend ++ byteBits byte) = new at *
  have houts : s.host.outs ++ new.1 = before ++ (found.1 ++ new.1) := by rw [h.outs, List.append_assoc]
  have hcount : s.block.limitEn = true →
      (satInc^[new.1.length] s.block.symcnt).toNat = (found.1 ++ new.1).length := by
    intro hl
    have hlt := hbelow hl
    have hmax := s.block.explen.isLt
    rw [List.length_append] at hlt ⊢
    rw [satInc_iterate_toNat, h.count hl]
    omega
  dsimp only
  split
  · rename_i hdead
    exact ⟨hbelow, hcount, houts, nofun, fun _ => ⟨rfl, hdead⟩⟩
  · exact ⟨hbelow, hcount, houts, fun _ => rfl, fun hne => absurd he hne⟩

/-- Bits that no code begins, as many as the longest code has, stay so whatever comes after (R165). -/
theorem matchIn_none_append {code : Sym → Bits} {pend : Bits} (hn : matchIn code pend = none)
    (hlong : ∀ x, (code x).length ≤ pend.length) (more : Bits) : matchIn code (pend ++ more) = none :=
  matchIn_none.mpr fun x hx hpre =>
    matchIn_none.mp hn x hx (List.prefix_of_prefix_length_le hpre (List.prefix_append _ _) (hlong x))

/-- On a dead stream the document's loop finds nothing more either. -/
theorem decodeBits_dead {code : Sym → Bits} (hp : PrefixFree code) {read : Bits}
    (hlong : ∀ x, (code x).length ≤ (decodeBits code read).2.length) (more : Bits) :
    decodeBits code (read ++ more) = ((decodeBits code read).1, (decodeBits code read).2 ++ more) := by
  rw [decodeBits_append hp, decodeBits_none (matchIn_none_append (decodeBits_ends code read) hlong more), List.append_nil]

/-- After StreamError a byte is ignored, and the document's loop finds nothing in it. -/
theorem BelowLimit.ubyte_ignored {before : List Sym} {found : List Sym × Bits} {s : State} (h : BelowLimit before found s)
    (he : s.block.err ≠ .none) (more : Bits) : BelowLimit before (found.1, found.2 ++ more) (counted s) :=
  { missing := h.missing
    count := h.count
    outs := h.outs
    alive := fun h0 => absurd h0 he
    dead := fun _ => ⟨(h.dead he).1, (h.dead he).2.trans (by simp)⟩ }

/-- One UBYTE takes the run eight bits further. -/
theorem HasRead.ubyte {before : List Sym} {read : Bits} {s : State} (h : HasRead before read s) (byte : Byte) :
    ∃ t, exec (.ubyte byte) s = .next t ∧ HasRead before (read ++ byteBits byte) t ∧ SameRun t.block s.block := by
  obtain ⟨hsound, hm, hprog⟩ := h
  obtain ⟨-, hp, hlmax⟩ := hsound.tableUsable (hsound.runHasTable (by rw [hm]; decide))
  by_cases he : s.block.err = .none
  · have hexec := exec_ubyte he hm byte
    have hsame := (counted_sameRun _).trans (unpackByte_sameRun byte s)
    refine ⟨_, hexec, ⟨exec_invariant hsound hexec, hsame.mode.trans hm, ?_⟩, hsame⟩
    rw [hsame.code, decodeBits_append hp]
    rcases hprog with hat | hbelow
    · exact .inl (hat.ubyte _ byte)
    · by_cases hlast : s.block.limitEn = true ∧ s.block.explen.toNat ≤
          ((decodeBits (codeAt s.block) read).1 ++
            (decodeBits (codeAt s.block) ((decodeBits (codeAt s.block) read).2 ++ byteBits byte)).1).length
      · exact .inl (hbelow.ubyte_last he byte hlast.1 hlast.2)
      · exact .inr (hbelow.ubyte he byte fun hl => not_le.mp fun hle => hlast ⟨hl, hle⟩)
  · have hexec : exec (.ubyte byte) s = .next (counted s) := exec_ignored nofun he rfl
    refine ⟨_, hexec, ⟨exec_invariant hsound hexec, hm, ?_⟩, counted_sameRun s⟩
    rcases hprog with hat | hbelow
    · exact absurd hat.err he
    · have hdead := decodeBits_dead hp (fun x => (hlmax.2 x).trans (hbelow.dead he).2) (byteBits byte)
      exact .inr (hdead ▸ hbelow.ubyte_ignored he (byteBits byte))

/-- UBYTEs one after another. -/
theorem HasRead.ubytes {before : List Sym} {read : Bits} {s : State} (h : HasRead before read s) (bytes : List Byte) :
    ∃ t, execAll (bytes.map .ubyte) s = .next t ∧ HasRead before (read ++ bytes.flatMap byteBits) t ∧
      SameRun t.block s.block := by
  induction bytes generalizing read s with
  | nil => exact ⟨s, rfl, by simpa using h, .refl _⟩
  | cons byte rest ih =>
    obtain ⟨u, hu, hread, hsame⟩ := h.ubyte byte
    obtain ⟨t, ht, hread', hsame'⟩ := ih hread
    rw [List.append_assoc, ← List.flatMap_cons] at hread'
    exact ⟨t, (execAll_cons hu).trans ht, hread', hsame'.trans hsame⟩

/-- After USTART no bit has been read; with no symbol expected the limit is reached at once (R161). -/
theorem startUnpacking_hasRead {s : State} (h : Invariant s.block) (he : s.block.err = .none)
    (hm : s.block.mode = .idle) (hk : s.block.tabOk = true) (limEn : Bool) (explen : Count) :
    HasRead s.host.outs [] (counted (startUnpacking limEn explen s)) := by
  refine ⟨counted_invariant (startUnpacking_invariant h hm hk limEn explen), rfl, ?_⟩
  by_cases hdone : limEn = true ∧ explen = 0#32
  · obtain ⟨rfl, rfl⟩ := hdone
    exact .inl ⟨he, rfl, rfl, Nat.zero_le _, (List.append_nil _).symm⟩
  · have hmissing : limEn = true → 0 < explen.toNat := fun hl =>
      Nat.pos_of_ne_zero fun h0 => hdone ⟨hl, BitVec.eq_of_toNat_eq h0⟩
    exact .inr ⟨hmissing, fun _ => rfl, (List.append_nil _).symm, fun _ => rfl, fun hne => absurd he hne⟩

/-- An unpacking run comes to its UFIN having read the bits of all its bytes. -/
theorem execAll_unpackRun {s : State} (h : Invariant s.block) (he : s.block.err = .none) (hm : s.block.mode = .idle)
    (hk : s.block.tabOk = true) {limEn : Bool} {explen : Count} (hlegal : limEn = false → explen = 0#32)
    (bytes : List Byte) :
    ∃ u t, execAll (unpackRun limEn explen bytes) s = .next t ∧ exec .ufin u = .next t ∧
      HasRead s.host.outs (bytes.flatMap byteBits) u ∧ codeAt u.block = codeAt s.block ∧ u.block.lmax = s.block.lmax ∧
      u.block.limitEn = limEn ∧ u.block.explen = explen := by
  obtain ⟨u, hu, hread, hsame⟩ := (startUnpacking_hasRead h he hm hk limEn explen).ubytes bytes
  obtain ⟨t, ht⟩ := exec_total .ufin u
  have hrun : execAll (unpackRun limEn explen bytes) s = .next t :=
    calc execAll (unpackRun limEn explen bytes) s
        = execAll (bytes.map Instr.ubyte ++ [Instr.ufin]) (counted (startUnpacking limEn explen s)) :=
          execAll_cons (exec_ustart (ustart_wf hlegal) he hm hk)
      _ = execAll [Instr.ufin] u := execAll_append hu
      _ = .next t := execAll_cons ht
  exact ⟨u, t, hrun, ht, hread, hsame.code, hsame.lmax, hsame.limitEn, hsame.explen⟩

/-! ### What a run emits (R167) -/

/-- In greedy mode every symbol of the document's loop is emitted, and what the loop keeps, if LMAX bits or more, has raised
StreamError. -/
theorem HasRead.belowLimit_of_greedy {before : List Sym} {read : Bits} {s : State} (h : HasRead before read s)
    (hl : s.block.limitEn = false) : BelowLimit before (decodeBits (codeAt s.block) read) s :=
  h.progress.resolve_left fun hat => absurd (hat.limited.symm.trans hl) (by decide)

/-- In limited mode the first EXPLEN symbols of the document's loop are emitted. -/
theorem HasRead.outs_of_limited {before : List Sym} {read : Bits} {s : State} (h : HasRead before read s)
    (hl : s.block.limitEn = true) :
    s.host.outs = before ++ (decodeBits (codeAt s.block) read).1.take s.block.explen.toNat := by
  rcases h.progress with hat | hbelow
  · exact hat.outs
  · rw [List.take_of_length_le (hbelow.missing hl).le, hbelow.outs]

/-- The document's decoder is its loop on the bits of all bytes. -/
theorem unpackBytes_eq {code : Sym → Bits} (hp : PrefixFree code) (bytes : List Byte) :
    unpackBytes code bytes = (decodeBits code (bytes.flatMap byteBits)).1 :=
  unpackFrom_eq hp bytes [] (matchIn_none.mpr (nothing_matches_nil code))

/-- Settles O44: before UFIN, which emits nothing, the run has emitted what the document's loop finds in the bits of the bytes
(`belowLimit_of_greedy`, `outs_of_limited`), and that is what the document's decoder emits (`unpackBytes_eq`). -/
theorem unpackingRunEmitsWhatTheDocumentDecodes : Obligations.UnpackingRunEmitsWhatTheDocumentDecodes := by
  intro s bytes h he hm hk
  obtain ⟨-, hp, -⟩ := h.tableUsable hk
  rw [unpackBytes_eq hp]
  constructor
  · obtain ⟨u, t, hrun, hfin, hread, hcode, -, hl, -⟩ := execAll_unpackRun h he hm hk (fun _ => rfl) bytes
    exact ⟨t, hrun, by rw [exec_ufin_outs hfin, (hread.belowLimit_of_greedy hl).outs, hcode]⟩
  · intro explen
    obtain ⟨u, t, hrun, hfin, hread, hcode, -, hl, hx⟩ :=
      execAll_unpackRun (limEn := true) (explen := explen) h he hm hk nofun bytes
    exact ⟨t, hrun, by rw [exec_ufin_outs hfin, hread.outs_of_limited hl, hcode, hx]⟩

/-! ### Unpacking what was packed (R168) -/

/-- The pad bits of a packed sequence (00_scope.md R12). -/
def padOf (code : Sym → Bits) (seq : List Sym) : Nat := (8 - (bitsOfSeq code seq).length % 8) % 8

/-- In the bytes of a packed sequence the document's loop finds the sequence, and then what it finds in the padding. -/
theorem decodeBits_packSeq {code : Sym → Bits} (hp : PrefixFree code) {seq : List Sym} (hs : ∀ x ∈ seq, code x ≠ []) :
    decodeBits code ((packSeq code seq).flatMap byteBits) =
      (seq ++ (decodeBits code (List.replicate (padOf code seq) false)).1,
        (decodeBits code (List.replicate (padOf code seq) false)).2) := by
  rw [packSeq, bits_of_bytes _ (padBits_length _)]
  exact decodeBits_seq hp seq hs _

/-- Settles O45: the document's loop finds `seq` and perhaps more (`decodeBits_packSeq`), so the run is at its limit, where no
fault was raised, and UFIN misses no symbol. -/
theorem limitedUnpackingInvertsPacking : Obligations.LimitedUnpackingInvertsPacking := by
  intro s seq h he hm hk hs hlen
  obtain ⟨-, hp, -⟩ := h.tableUsable hk
  obtain ⟨u, t, hrun, hfin, hread, hcode, -, hl, hx⟩ := execAll_unpackRun (limEn := true)
    (explen := BitVec.ofNat 32 seq.length) h he hm hk nofun (packSeq (codeAt s.block) seq)
  have hexp : u.block.explen.toNat = seq.length := by rw [hx, BitVec.toNat_ofNat, Nat.mod_eq_of_lt hlen]
  have hprog := hread.progress
  rw [hcode, decodeBits_packSeq hp hs] at hprog
  have hat := hprog.resolve_right fun hbelow => by
    have hlt := hbelow.missing hl
    rw [hexp, List.length_append] at hlt
    omega
  have houts := hat.outs
  rw [hexp, List.take_left] at houts
  rw [exec_ufin_leaves hat.err hread.mode fun _ => (congrArg _ hat.count).ge] at hfin
  obtain rfl := Host.Outcome.next.inj hfin
  exact ⟨_, hrun, houts, ⟨hat.err, rfl⟩, (congrArg BitVec.toNat hat.count).trans hexp⟩

/-- What matches zeros is zeros. -/
theorem code_of_matchIn_zeros {code : Sym → Bits} {n : Nat} {x : Sym}
    (h : matchIn code (List.replicate n false) = some x) : ∃ d, 0 < d ∧ d ≤ n ∧ code x = List.replicate d false := by
  obtain ⟨hx, hpre⟩ := matchIn_some h
  obtain ⟨hle, heq⟩ := List.prefix_replicate_iff.mp hpre
  exact ⟨(code x).length, List.length_pos_iff.mpr hx, hle, heq⟩

/-- Without a code of zeros the loop finds nothing in zeros. -/
theorem decodeBits_zeros_of_no_code {code : Sym → Bits} (h : ∀ z d, 0 < d → code z ≠ List.replicate d false)
    (n : Nat) : decodeBits code (List.replicate n false) = ([], List.replicate n false) := by
  apply decodeBits_none
  cases hm : matchIn code (List.replicate n false) with
  | none => rfl
  | some x =>
    obtain ⟨d, hd, -, hx⟩ := code_of_matchIn_zeros hm
    exact absurd hx (h x d hd)

/-- Fewer zeros than a code of zeros has match nothing, for a shorter code of zeros would begin that one. -/
theorem matchIn_short_zeros {code : Sym → Bits} (hp : PrefixFree code) {z : Sym} {d n : Nat} (hn : n < d)
    (hz : code z = List.replicate d false) : matchIn code (List.replicate n false) = none := by
  cases hm : matchIn code (List.replicate n false) with
  | none => rfl
  | some x =>
    obtain ⟨e, he, hle, hx⟩ := code_of_matchIn_zeros hm
    have hxz : (code x).length < (code z).length := by
      rw [hx, hz, List.length_replicate, List.length_replicate]
      omega
    have hpre : code x <+: code z := by
      rw [hx, hz, List.prefix_replicate_iff, List.length_replicate]
      exact ⟨by omega, rfl⟩
    exact absurd hpre (hp x z (fun h => absurd (h ▸ hxz) (lt_irrefl _)) (matchIn_some hm).1
      (List.length_pos_iff.mp (Nat.zero_lt_of_lt hxz)))

/-- With a code of `d` zeros the loop finds its symbol as often as it fits. -/
theorem decodeBits_zeros {code : Sym → Bits} (hp : PrefixFree code) {z : Sym} {d : Nat} (hd : 0 < d)
    (hz : code z = List.replicate d false) (n : Nat) :
    (decodeBits code (List.replicate n false)).1 = List.replicate (n / d) z := by
  have hne : code z ≠ [] := by
    rw [hz, ne_eq, List.replicate_eq_nil_iff]
    omega
  have hbits : List.replicate n false = bitsOfSeq code (List.replicate (n / d) z) ++ List.replicate (n % d) false := by
    rw [bitsOfSeq, List.map_replicate, hz, List.flatten_replicate_replicate, ← List.replicate_add, Nat.div_add_mod']
  rw [hbits, decodeBits_seq hp _ (fun x hx => List.eq_of_mem_replicate hx ▸ hne),
    decodeBits_none (matchIn_short_zeros hp (Nat.mod_lt n hd) hz), List.append_nil]

/-- Settles O46: the greedy run emits all that the document's loop finds, `seq` and what is in the padding
(`decodeBits_packSeq`, `decodeBits_zeros`); with nothing in it the whole padding is left pending, which is short or has raised
StreamError. -/
theorem greedyUnpackingReturnsThePadding : Obligations.GreedyUnpackingReturnsThePadding := by
  intro s seq h he hm hk hs
  obtain ⟨-, hp, -⟩ := h.tableUsable hk
  obtain ⟨u, t, hrun, hfin, hread, hcode, hlmax, hl, -⟩ :=
    execAll_unpackRun h he hm hk (fun _ => rfl) (packSeq (codeAt s.block) seq)
  have hbelow := hread.belowLimit_of_greedy hl
  rw [hcode, decodeBits_packSeq hp hs] at hbelow
  have houts := (exec_ufin_outs hfin).trans hbelow.outs
  refine ⟨t, hrun, fun z d hd hz => ?_, fun hno => ?_⟩
  · rw [houts, decodeBits_zeros hp hd hz, List.append_assoc]
    rfl
  · rw [decodeBits_zeros_of_no_code hno] at hbelow houts
    refine ⟨by rw [houts, List.append_nil], fun hlong => ?_⟩
    have herr : u.block.err ≠ .none := fun h0 => by
      have hshort := hread.sound.pendShort hread.mode h0
      rw [hbelow.alive h0, List.length_replicate, hlmax] at hshort
      exact absurd hshort (not_lt.mpr hlong)
    rw [exec_ignored (i := .ufin) nofun herr rfl] at hfin
    obtain rfl := Host.Outcome.next.inj hfin
    exact (hbelow.dead herr).1

end Sys2Proof.Machine
end

section
/-! ## Control and status commands (spec/45_control_status.md) -/

namespace Sys2Proof.Machine

/-! ### NOP and SRST -/

/-- Settles O13: NOP is a reading command, so it runs in the faulted condition too (`exec_reads`), and it reads nothing. -/
theorem nopOnlyCounts : Obligations.NopOnlyCounts :=
  fun _ => exec_reads (i := .nop) rfl rfl

/-- Settles O14: SRST does not go through the prelude; it is `resetBlock` in every state. -/
theorem srstResetsEverything : Obligations.SrstResetsEverything :=
  exec_srst

/-! ### RDSTAT: the fields of STATUS (10_state.md R23) -/

/-- The fields of more than one bit: what lies below a field is dropped part by part, then what lies above it. -/
theorem statusWord_fields (b : Block) :
    (statusWord b).extractLsb' 0 4 = b.err.code ∧ (statusWord b).extractLsb' 4 2 = b.mode.code ∧
    (statusWord b).extractLsb' 10 3 = b.nacc ∧ (statusWord b).extractLsb' 13 3 = 0#3 ∧
    (statusWord b).extractLsb' 16 9 = BitVec.ofNat 9 b.pend.length ∧ (statusWord b).extractLsb' 25 7 = 0#7 := by
  unfold statusWord
  refine ⟨BitVec.extractLsb'_append_eq_right, ?_, ?_, ?_, ?_, ?_⟩ <;>
    simp (disch := decide) only [BitVec.extractLsb'_append_eq_of_le (v := 28) (w := 4),
      BitVec.extractLsb'_append_eq_of_le, BitVec.extractLsb'_append_eq_of_add_le, Nat.reduceSub,
      BitVec.extractLsb'_eq_self]

/-- The fields of one bit. -/
theorem statusWord_flags (b : Block) :
    (statusWord b).getLsbD 6 = b.treeValid ∧ (statusWord b).getLsbD 7 = b.tabOk ∧
    (statusWord b).getLsbD 8 = b.limitEn ∧ (statusWord b).getLsbD 9 = udone b := by
  unfold statusWord
  simp only [BitVec.getLsbD_append]
  simp

theorem udone_iff (b : Block) : udone b = true ↔ b.mode = .unpack ∧ b.limitEn = true ∧ b.symcnt = b.explen := by
  simp [udone, limitReached]

/-- Settles O15: RDSTAT is a reading command, so it runs in the faulted condition too (`exec_reads`); the word it answers is
`statusWord`, whose fields the lemmas above read. -/
theorem rdstatRespondsStatus : Obligations.RdstatRespondsStatus := by
  intro s
  obtain ⟨herr, hmode, hnacc, hlow, hpend, hhigh⟩ := statusWord_fields s.block
  obtain ⟨htree, htab, hlimit, hdone⟩ := statusWord_flags s.block
  have herr' {e : Err} (h : s.block.err = e) : (statusWord s.block).extractLsb' 0 4 = e.code := h ▸ herr
  have hmode' {m : Mode} (h : s.block.mode = m) : (statusWord s.block).extractLsb' 4 2 = m.code := h ▸ hmode
  refine ⟨statusWord s.block, exec_reads (i := .rdstat) rfl rfl, herr', herr', herr', herr', herr', herr', herr', herr',
    hmode', hmode', hmode', htree, htab, hlimit, ?_, hnacc, hlow, fun hfit => ?_, hhigh⟩
  · rw [hdone, udone_iff]
  · have hfield : s.block.pend.length < 2 ^ 9 := hfit.trans_lt (by decide)
    rw [hpend, BitVec.toNat_ofNat, Nat.mod_eq_of_lt hfield]

/-! ### RDCNT: the selector map (10_state.md R36) -/

theorem exec_rdcnt {s : State} {sel : BitVec 4} {w : Resp} (hsel : sel.toNat ≤ 13) (h : counter s.block sel = some w) :
    exec (.rdcnt sel) s = .next (counted (respond w s)) := by
  rw [exec_reads (i := .rdcnt sel) rfl (decide_eq_true hsel)]
  simp only [effect, h]

theorem ncodes_le (b : Block) : ncodes b ≤ Config.nsym := by
  rw [ncodes_eq]
  exact List.countP_le_length.trans_eq symbols_length

/-- The upper part of a weight, which NRD reads of a node in the same way. -/
theorem weightHigh_toNat (v : Weight) : ((v.extractLsb' 32 8).setWidth 32).toNat = v.toNat / 2 ^ 32 :=
  nodePart_weightHigh ⟨.leaf, 0#8, v, 0#9, 0#9⟩

/-- Settles O16, selector by selector: every legal one names a counter (`counter_isSome`), which RDCNT answers as it was before
(`exec_rdcnt`): a register as wide as the response itself, a narrower one widened, ROOTWT in two parts, and NNODES and NCODES as
numbers that fit. -/
theorem rdcntRespondsTheCounter : Obligations.RdcntRespondsTheCounter := by
  intro s sel hsel
  obtain ⟨w, hw⟩ := counter_isSome hsel s.block
  have hread {v : Resp} (h : counter s.block sel = some v) : w = v := Option.some.inj (hw.symm.trans h)
  have hnarrow {n : Nat} (v : BitVec n) (hn : n ≤ 32) (h : counter s.block sel = some (v.setWidth 32)) :
      w.toNat = v.toNat := by
    rw [hread h, BitVec.toNat_setWidth_of_le hn]
  have hnumber {n : Nat} (hn : n < 2 ^ 32) (h : counter s.block sel = some (BitVec.ofNat 32 n)) : w.toNat = n := by
    rw [hread h, BitVec.toNat_ofNat, Nat.mod_eq_of_lt hn]
  refine ⟨w, exec_rdcnt hsel hw, ?_, ?_, ?_, ?_, ?_, ?_, ?_, ?_, ?_, ?_, ?_, ?_, ?_, ?_⟩ <;> rintro rfl
  · exact hread rfl
  · exact hread rfl
  · exact hnarrow s.block.padcnt (by decide) rfl
  · exact hread rfl
  · exact hnarrow s.block.nleaf (by decide) rfl
  · exact fun hfit => hnumber (hfit.trans_lt (by decide)) rfl
  · exact hnarrow s.block.root (by decide) rfl
  · rw [hread rfl, BitVec.extractLsb'_toNat, Nat.shiftRight_zero]
  · rw [hread rfl, weightHigh_toNat]
  · exact hnarrow s.block.lmax (by decide) rfl
  · rw [← ncodes_eq]; exact hnumber ((ncodes_le _).trans_lt (by decide)) rfl
  · exact hread rfl
  · exact hread rfl
  · exact hread rfl

end Sys2Proof.Machine
end

section
/-! ## Faults (spec/60_exceptions.md) -/

namespace Sys2Proof.Machine

/-! ### Waiting, and illegal words (R203, R206, R217) -/

/-- Settles O8: with no input `takeInput` answers the state itself. -/
theorem waitsWhenNothingIsPresented : Obligations.WaitsWhenNothingIsPresented := by
  intro s hin
  simp [step, takeInput, hin]

theorem acceptWord_of_illegal {w : CmdWord} {e : Illegal} (h : decode w = .error e) (s : State) :
    acceptWord w s = .next (illegalWord w s) := by
  simp [acceptWord, h]

theorem illegalWord_faults {s : State} (he : s.block.err = .none) (w : CmdWord) :
    illegalWord w s = faultState .illCmdError w s := by
  rw [illegalWord, faulted_eq_false he]
  rfl

theorem illegalWord_ignored {s : State} (he : s.block.err ≠ .none) (w : CmdWord) : illegalWord w s = counted s := by
  rw [illegalWord, faulted_eq_true he]
  rfl

/-- Settles O7: the step hands the word to `illegalWord`, which faults (`illegalWord_faults`). -/
theorem illegalWordFaults : Obligations.IllegalWordFaults := by
  intro s w rest e hin hdec he
  rw [step_of_command hin, acceptWord_of_illegal hdec]
  exact congrArg _ (illegalWord_faults (s := { s with host.input := rest }) he w)

/-! ### The faulted condition (R206, R207) -/

/-- In the faulted condition a command other than SRST is counted, and a reading one may respond before. -/
theorem exec_faulted_cases {i : Instr} {s t : State} (he : s.block.err ≠ .none) (hi : i ≠ .srst)
    (h : exec i s = .next t) : t = counted s ∨ ∃ w, t = counted (respond w s) := by
  rcases exec_cases h with ⟨hs, -⟩ | ⟨-, -, -, rfl⟩ | ⟨-, he', -⟩ | ⟨-, he', -⟩ | ⟨-, hw, -, hrun, rfl⟩
  · exact absurd hs hi
  · exact .inl rfl
  · exact absurd he' he
  · exact absurd he' he
  · by_cases hn : i = .nop
    · subst hn
      exact .inl rfl
    · obtain ⟨w, hresp⟩ := effect_responds (hrun.resolve_left he) hn hw s
      exact .inr ⟨w, by rw [hresp]⟩

/-- From `s` to `t` the block counted a command, changed nothing else of itself, and emitted no payload byte and no symbol. -/
def OnlyCounts (s t : State) : Prop :=
  t.block = { s.block with cmdcnt := satInc s.block.cmdcnt } ∧ t.host.outb = s.host.outb ∧ t.host.outs = s.host.outs

theorem exec_faulted_onlyCounts {i : Instr} {s t : State} (he : s.block.err ≠ .none) (hi : i ≠ .srst)
    (h : exec i s = .next t) : OnlyCounts s t := by
  rcases exec_faulted_cases he hi h with rfl | ⟨w, rfl⟩
  · exact ⟨rfl, rfl, rfl⟩
  · exact ⟨rfl, rfl, rfl⟩

/-- Settles O47: the commands the statement sets aside are the reading ones, and the others are ignored (`exec_ignored`), as
is an illegal word (`illegalWord_ignored`); a reading command adds a response at most (`exec_faulted_cases`). -/
theorem faultedBlockIgnoresCommands : Obligations.FaultedBlockIgnoresCommands := by
  intro s he
  refine ⟨fun i hsrst hnop hrdstat hrdcnt hfrd hnrd htlen htbits => ?_, fun w rest e hin hdec => ?_,
    fun i t hi h => exec_faulted_onlyCounts he hi h⟩
  · have hr : readsOnly i = false := by
      cases i with
      | nop => exact absurd rfl hnop
      | rdstat => exact absurd rfl hrdstat
      | rdcnt sel => exact absurd rfl (hrdcnt sel)
      | frd sym => exact absurd rfl (hfrd sym)
      | nrd sel idx => exact absurd rfl (hnrd sel idx)
      | tlen sym => exact absurd rfl (htlen sym)
      | tbits sym k => exact absurd rfl (htbits sym k)
      | _ => rfl
    exact exec_ignored hsrst he hr
  · rw [step_of_command hin, acceptWord_of_illegal hdec]
    exact congrArg _ (illegalWord_ignored (s := { s with host.input := rest }) he w)

/-- A word accepted in the faulted condition resets the block or is only counted. -/
theorem acceptWord_faulted_cases {w : CmdWord} {s t : State} (he : s.block.err ≠ .none)
    (h : acceptWord w s = .next t) : t = resetBlock s ∨ OnlyCounts s t := by
  rcases acceptWord_cases h with ⟨i, -, hexec⟩ | ⟨e, -, rfl⟩
  · by_cases hi : i = .srst
    · rw [hi, exec_srst, Host.Outcome.next.injEq] at hexec
      exact .inl hexec.symm
    · exact .inr (exec_faulted_onlyCounts he hi hexec)
  · rw [illegalWord_ignored he]
    exact .inr ⟨rfl, rfl, rfl⟩

theorem acceptWord_faulted_outputs {w : CmdWord} {s t : State} (he : s.block.err ≠ .none)
    (h : acceptWord w s = .next t) : t.host.outb = s.host.outb ∧ t.host.outs = s.host.outs := by
  rcases acceptWord_faulted_cases he h with rfl | ⟨-, hb, hs⟩
  · exact ⟨rfl, rfl⟩
  · exact ⟨hb, hs⟩

/-- A stream on which nothing was emitted stays, however much of the new the host takes. -/
theorem firstNew_self {α : Type} (taken : Nat) (l : List α) : firstNew taken l l = l := by
  simp [firstNew]

/-- Settles O48: of the ways a step can end (`step_cases`), waiting keeps the state, a command word is the business of
`acceptWord_faulted_cases`, and both forms of the reset input put the reset state, where the command cut short had emitted
nothing. -/
theorem faultLatchHolds : Obligations.FaultLatchHolds := by
  intro s t he h
  rcases step_cases h with ⟨-, rfl⟩ | ⟨w, rest, -, hw⟩ | ⟨rest, -, rfl⟩ | ⟨w, taken, rest, after, -, hw, rfl⟩
  · exact ⟨rfl, rfl, .inr rfl⟩
  · rcases acceptWord_faulted_cases (s := dropInput 1 s) he hw with rfl | ⟨hblock, hb, hs⟩
    · exact ⟨rfl, rfl, .inl rfl⟩
    · exact ⟨hb, hs, .inr (by rw [hblock]; rfl)⟩
  · exact ⟨rfl, rfl, .inl rfl⟩
  · obtain ⟨hb, hs⟩ := acceptWord_faulted_outputs (s := dropInput 1 s) he hw
    exact ⟨(congrArg (firstNew taken _) hb).trans (firstNew_self _ _),
      (congrArg (firstNew taken _) hs).trans (firstNew_self _ _), .inl rfl⟩

/-! ### Fault entry (R205, R208, R209) -/

/-- The table of R209, read by error: the command `i`, well formed, is one that can raise it. -/
def CanRaise (i : Instr) : Err → Prop
  | .none => False
  | .treeError => i = .build
  | .noCodeError => ∃ sym, i = .psym sym
  | .tableError => i = .tchk ∨ ∃ sym n v, i = .tapp sym n v
  | .streamError => ∃ byte, i = .ubyte byte
  | .shortError => i = .ufin
  | .seqError => i ∈ [.gen, .tclr, .tchk, .pstart, .pfin, .ufin] ∨ (∃ sym, i = .tdel sym) ∨
      (∃ sym n v, i = .tapp sym n v) ∨ (∃ sym, i = .psym sym) ∨ (∃ l e, i = .ustart l e) ∨ ∃ byte, i = .ubyte byte
  | .illCmdError => False

/-- From `s` the command `i` ends in fault entry with an error of its own, having done nothing but for StreamError; CMDCNT is
still the command's position. -/
def RaisesOwnError (i : Instr) (s t : State) : Prop :=
  ∃ e u, CanRaise i e ∧ t = raise e (encode i) u ∧ u.block.cmdcnt = s.block.cmdcnt ∧ (e ≠ .streamError → u = s)

/-- The raises that do nothing before (R208). -/
theorem RaisesOwnError.of_precise (i : Instr) (e : Err) (hi : CanRaise i e) (s : State) :
    RaisesOwnError i s (raise e (encode i) s) :=
  ⟨e, s, hi, rfl, rfl, fun _ => rfl⟩

/-- Only the commands with a need for a MODE or a flag can be out of sequence. -/
theorem canRaise_seqError {i : Instr} {b : Block} (hq : seqOk b i = false) : CanRaise i .seqError := by
  cases i with
  | gen | tclr | tchk | pstart | pfin | ufin => exact .inl (by decide)
  | tdel sym => exact .inr (.inl ⟨sym, rfl⟩)
  | tapp sym n v => exact .inr (.inr (.inl ⟨sym, n, v, rfl⟩))
  | psym sym => exact .inr (.inr (.inr (.inl ⟨sym, rfl⟩)))
  | ustart l e => exact .inr (.inr (.inr (.inr (.inl ⟨l, e, rfl⟩))))
  | ubyte byte => exact .inr (.inr (.inr (.inr (.inr ⟨byte, rfl⟩))))
  | _ => cases hq

/-- What a command does once the prelude has let it run leaves ERR at 0 or is fault entry. -/
theorem effect_faults {s : State} (he : s.block.err = .none) (i : Instr) :
    (effect i s).block.err = .none ∨ RaisesOwnError i s (effect i s) := by
  cases i with
  | srst => exact .inl rfl
  | build =>
    rcases buildTree_cases s with ⟨-, h⟩ | ⟨-, h⟩ <;> rw [effect, h]
    · exact .inr (.of_precise .build .treeError rfl s)
    · exact .inl he
  | tapp sym n v =>
    rcases appendCode_cases sym n v s with h | h <;> rw [effect, h]
    · exact .inr (.of_precise (.tapp sym n v) .tableError (.inr ⟨sym, n, v, rfl⟩) s)
    · exact .inl he
  | tchk =>
    rcases checkTable_cases s with h | ⟨-, -, h⟩ <;> rw [effect, h]
    · exact .inr (.of_precise .tchk .tableError (.inl rfl) s)
    · exact .inl he
  | psym sym =>
    rcases packSymbol_frame sym s with ⟨-, h⟩ | ⟨acc, nacc, bytecnt, out, h⟩ <;> rw [effect, h]
    · exact .inr (.of_precise (.psym sym) .noCodeError ⟨sym, rfl⟩ s)
    · exact .inl he
  | pfin =>
    obtain ⟨padcnt, bytecnt, out, -, h⟩ := finishPacking_frame s
    rw [effect, h]
    exact .inl he
  | ubyte byte =>
    obtain ⟨pend, symcnt, out, h | h⟩ := unpackByte_frame byte s <;> rw [effect, h]
    · exact .inl he
    · exact .inr ⟨.streamError, _, ⟨byte, rfl⟩, rfl, rfl, absurd rfl⟩
  | ufin =>
    rcases finishUnpacking_cases s with h | h <;> rw [effect, h]
    · exact .inr (.of_precise .ufin .shortError rfl s)
    · exact .inl he
  | nop | rdstat | rdcnt | frd | nrd | tlen | tbits => rw [effect_reads_block rfl]; exact .inl he
  | fclr | fset | gen | tclr | tdel | pstart | ustart => exact .inl he

/-- A well-formed command that runs into a fault is out of sequence or raises an error of its own, and is then counted. -/
theorem exec_faults {i : Instr} {s t : State} (he : s.block.err = .none) (hw : i.wf = true) (h : exec i s = .next t)
    (hne : t.block.err ≠ .none) : ∃ r, RaisesOwnError i s r ∧ t = counted r := by
  rcases exec_cases h with ⟨-, rfl⟩ | ⟨-, he', -⟩ | ⟨-, -, hw', -⟩ | ⟨-, -, -, hq, rfl⟩ | ⟨-, -, -, -, rfl⟩
  · exact absurd rfl hne
  · exact absurd he he'
  · exact absurd (hw.symm.trans hw') nofun
  · exact ⟨_, .of_precise i .seqError (canRaise_seqError hq) s, rfl⟩
  · exact ⟨_, (effect_faults he i).resolve_left hne, rfl⟩

/-- Settles O49: a faulting command ends in fault entry and the count (`exec_faults`), with an error that the table of R209
has in its row. -/
theorem faultsArePreciseButStreamError : Obligations.FaultsArePreciseButStreamError := by
  intro s t i he hw h hne
  obtain ⟨r, ⟨e, u, hraise, rfl, hidx, hprecise⟩, rfl⟩ := exec_faults he hw h hne
  have hrow (c : Err) (hc : e = c) : CanRaise i c := hc ▸ hraise
  exact ⟨rfl, hidx, fun hstream => by rw [hprecise hstream]; rfl, hrow .treeError, hrow .noCodeError,
    hrow .tableError, hrow .streamError, hrow .shortError, hrow .seqError, hrow .illCmdError⟩

end Sys2Proof.Machine
end

section
/-! PROOF. The statements of 70_reset_and_hazards.md: the reset input and the words a cut command leaves (R240, R242), the reset
state, and that every step ends (R259). -/

namespace Sys2Proof.Machine

/-! ## What an accepted word adds to the streams -/

/-- The host's side once the block has emitted these words. -/
def HostSide.withEmitted (h : HostSide) (rsp : List Resp) (outb : List Byte) (outs : List Sym) : HostSide :=
  { h with rsp := h.rsp ++ rsp, outb := h.outb ++ outb, outs := h.outs ++ outs }

theorem illegalWord_host (w : CmdWord) (s : State) : (illegalWord w s).host = s.host := by
  unfold illegalWord
  split <;> rfl

theorem exec_emits {i : Instr} {s t : State} (h : exec i s = .next t) :
    ∃ rsp outb outs, t.host = s.host.withEmitted rsp outb outs := by
  obtain ⟨f, hf, b', rsp, outb, outs, hd⟩ := exec_determined i s.block
  rw [hf s.host, hd, Host.Outcome.next.injEq] at h
  exact ⟨rsp, outb, outs, h ▸ rfl⟩

/-- An accepted word, legal or not, takes back nothing emitted before it. -/
theorem acceptWord_emits {w : CmdWord} {s t : State} (h : acceptWord w s = .next t) :
    ∃ rsp outb outs, t.host = s.host.withEmitted rsp outb outs := by
  rcases acceptWord_cases h with ⟨i, -, hexec⟩ | ⟨e, -, rfl⟩
  · exact exec_emits hexec
  · exact ⟨[], [], [], by simp [illegalWord_host, HostSide.withEmitted]⟩

/-! ## The reset input -/

theorem step_of_reset {s : State} {rest : List HostEvent} (h : s.host.input = .reset :: rest) :
    step s = .next (resetBlock { s with host.input := rest }) := by
  rw [← dropInput_one h]
  simp [step, takeInput, h]

/-- A reset during a command cuts the state the whole command would have left, `u`. -/
theorem step_of_resetDuring {s u : State} {w : CmdWord} {taken : Nat} {rest : List HostEvent}
    (h : s.host.input = .resetDuring w taken :: rest) (hu : acceptWord w { s with host.input := rest } = .next u) :
    step s = .next (cutByReset taken { s with host.input := rest } u) := by
  rw [← dropInput_one h] at hu ⊢
  simp [step, takeInput, h, hu]

theorem firstNew_append {α : Type} (taken : Nat) (l new : List α) : firstNew taken l (l ++ new) = l ++ new.take taken := by
  simp [firstNew]

/-- Of the words the uncut command emits the host keeps the first `taken` (R242). -/
theorem cutByReset_of_emits {s u : State} {rsp : List Resp} {outb : List Byte} {outs : List Sym} (taken : Nat)
    (h : u.host = s.host.withEmitted rsp outb outs) :
    cutByReset taken s u =
      ⟨Block.reset, s.host.withEmitted (rsp.take taken) (outb.take taken) (outs.take taken)⟩ := by
  simp [cutByReset, resetBlock, h, HostSide.withEmitted, firstNew_append]

/-- Settles O9: the uncut command only adds to the streams (`acceptWord_emits`), and of what it adds the cut one leaves the
first `taken` words (`cutByReset_of_emits`). -/
theorem resetInputPutsTheResetState : Obligations.ResetInputPutsTheResetState := by
  refine ⟨fun s rest hin => step_of_reset hin, fun s w taken rest hin => ?_⟩
  obtain ⟨u, hu⟩ := acceptWord_total w { s with host.input := rest }
  obtain ⟨rsp, outb, outs, hhost⟩ := acceptWord_emits hu
  have hstep := step_of_resetDuring hin hu
  rw [cutByReset_of_emits taken hhost] at hstep
  exact ⟨_, u, hstep, (step_of_command rfl).trans hu, rfl, rfl, ⟨rsp, congrArg HostSide.rsp hhost, rfl⟩,
    ⟨outb, congrArg HostSide.outb hhost, rfl⟩, ⟨outs, congrArg HostSide.outs hhost, rfl⟩⟩

/-! ## The reset state -/

/-- Settles O10: the fields are those of `Block.reset`, and an entry of an empty table reads as unlisted. -/
theorem resetStateIsAllClear : Obligations.ResetStateIsAllClear :=
  ⟨fun _ => rfl, rfl, rfl, rfl, rfl, rfl, rfl, fun _ => rfl, rfl, rfl, rfl, rfl, rfl, rfl, rfl, rfl, rfl, rfl, rfl, rfl, rfl,
    rfl, rfl, rfl, rfl⟩

/-! ## Every step ends -/

/-- Settles O11: the prelude around every command ends in a next state (`exec_total`), and so does every way the sequencer
takes its input (`takeInput_total`). -/
theorem everyStepEnds : Obligations.EveryStepEnds := ⟨exec_total, takeInput_total⟩

end Sys2Proof.Machine
end
